-- ==== Sys2Proof/Word.lean ====
section
/-! DEFINITION. The word types of ORDEC: bytes and characters, 16-bit registers, and the two formats an access is
written in, CMD8 and BUS24 (30_encoding.md R90, R96). -/

namespace Sys2Proof

/-- An 8-bit value: a byte, a character code, a command code (00_scope.md R7, R11). -/
abbrev Byte := BitVec 8

/-- A 16-bit register (10_state.md R26, R28, R34). -/
abbrev Half := BitVec 16

/-- A BUS24 word (30_encoding.md R96). -/
abbrev BusWord := BitVec 24

/-- What the host issues, in one of the spec's two formats. -/
inductive Word where
  /-- CMD8 (R90): the command byte, issued by a host write of it to CMD. -/
  | cmd8 (op : Byte)
  /-- BUS24 (R96): one host bus access spelled as a 24-bit word. -/
  | bus24 (w : BusWord)
  deriving DecidableEq, Repr

end Sys2Proof
end

