-- ==== Sys2Proof/Config.lean ====
section
/-! DEFINITION. The implementation parameters of ORDEC with the values the spec takes (00_scope.md R5; D39 of
92_eei_decisions.md). The spec leaves no value free (93_implementation_defined.md), so there is no opaque constant. -/

namespace Sys2Proof.Config

/-- `MSG_CAP`: characters in MSG (R5, D8). -/
abbrev msgCap : Nat := 256

/-- `BIT_CAP`: bits in BITS, 4 per character of MSG (R5). -/
abbrev bitCap : Nat := 1024

/-- `OUT_CAP`: bytes in OUT, length byte included (R5). -/
abbrev outCap : Nat := 32

/-- `PAY_CAP`: bytes in PAY, length byte included (R5). -/
abbrev payCap : Nat := 32

/-- `MAX_K`: the largest decoded payload byte count a decoder may emit (R5, D11). -/
abbrev maxK : Nat := 31

/-- `ADDR_W`: the host bus address width in bits (R5, D4). -/
abbrev addrW : Nat := 12

/-- `DATA_W`: the host bus data width in bits (R5, D4). -/
abbrev dataW : Nat := 8

/-- The size of the address space, `2^ADDR_W` (20_memory.md R61). -/
abbrev addrSpace : Nat := 4096

/-- `V2_PREAMBLE = 10011001`, in arrival order (R5, R6). -/
abbrev v2Preamble : List Bool := [true, false, false, true, true, false, false, true]

/-- `V3_PREAMBLE = 11110101`, in arrival order (R5, R6). -/
abbrev v3Preamble : List Bool := [true, true, true, true, false, true, false, true]

/-- `V3_MARKER = 0101`, in arrival order (R5, R6). -/
abbrev v3Marker : List Bool := [false, true, false, true]

/-- `CS_BIAS`: the constant subtracted from every nibble sum (R5). -/
abbrev csBias : Byte := 0x0A

/-- `FRAME_MARKER`: the characters `'o'`, `'m'` (R5, R11). -/
abbrev frameMarker : List Byte := [0x6F, 0x6D]

end Sys2Proof.Config
end

