-- ==== Sys2Proof/Syntax.lean ====
section
/-! DEFINITION. The instructions of ORDEC, one constructor per row of spec/opcode_table.json (30_encoding.md R92,
R96, R97). -/

namespace Sys2Proof

/-- The eleven commands (CMD8) and the two host bus accesses (BUS24). A command has no operand (R94). An access carries
the address the host presents, which may be wider than the bus (20_memory.md R61), and a write its byte. -/
inductive Instr where
  /-- No operation (R113). -/
  | nop
  /-- CUL preprocess: framing, hex to bit, V2 then V3 (R191). -/
  | pre
  /-- Hex to bit of all of MSG (R133). -/
  | h2b
  /-- Manchester/V2 decode of BITS (R153). -/
  | v2d
  /-- Bit-reversal/V3 decode of BITS (R173). -/
  | v3d
  /-- Load PAY from the canonical hex string in MSG (R215). -/
  | ldp
  /-- Load PAY from OUT (R216). -/
  | ldo
  /-- checksum1 (R219). -/
  | ck1
  /-- checksum2 (R220). -/
  | ck2
  /-- checksum4 (R221). -/
  | ck4
  /-- checksum5 (R222). -/
  | ck5
  /-- `MemWrite(addr, 1, data)` (R63). -/
  | wr (addr : Nat) (data : Byte)
  /-- `MemRead(addr, 1)` (R62). -/
  | rd (addr : Nat)
  deriving DecidableEq, Repr

end Sys2Proof
end

