-- ==== Sys2Proof/WellFormed.lean ====
section
/-! DEFINITION. Which instructions the encodings of 30_encoding.md can spell: an access's address fits the 12 bits of
BUS24's `addr` field (R96, R97); a command has nothing to check (R94). -/

namespace Sys2Proof

/-- The operands fit the fields of the format. The data byte of a write fits by its type. -/
def Instr.wellFormed : Instr → Bool
  | .nop => true
  | .pre => true
  | .h2b => true
  | .v2d => true
  | .v3d => true
  | .ldp => true
  | .ldo => true
  | .ck1 => true
  | .ck2 => true
  | .ck4 => true
  | .ck5 => true
  | .wr addr _ => decide (addr < Config.addrSpace)
  | .rd addr => decide (addr < Config.addrSpace)

/-- `Instr.wellFormed` as a proposition. -/
abbrev Instr.WellFormed (i : Instr) : Prop := i.wellFormed = true

end Sys2Proof
end

