-- ==== Sys2Proof/Decode.lean ====
section
/-! DEFINITION. The decoder of the two formats, total, rejecting by name (30_encoding.md R92, R93, R95, R96), and after
it the encoder, written from the same tables. -/

namespace Sys2Proof

/-- The eleven commands of R92. -/
inductive Command where
  | nop | pre | h2b | v2d | v3d | ldp | ldo | ck1 | ck2 | ck4 | ck5
  deriving DecidableEq, Repr

/-- Why a word spells no instruction. -/
inductive Reject where
  /-- A CMD8 code outside R92 (R93). The step gives it the effect of R114. -/
  | reservedCommand (op : Byte)
  /-- A BUS24 word with bits 22:20 not all 0 (R96). -/
  | zeroFieldNotZero (w : BusWord)
  /-- A BUS24 read word with data not 0 (R96). -/
  | readWithData (w : BusWord)
  deriving DecidableEq, Repr

/-- The instruction a command is. -/
def Command.toInstr : Command → Instr
  | .nop => .nop
  | .pre => .pre
  | .h2b => .h2b
  | .v2d => .v2d
  | .v3d => .v3d
  | .ldp => .ldp
  | .ldo => .ldo
  | .ck1 => .ck1
  | .ck2 => .ck2
  | .ck4 => .ck4
  | .ck5 => .ck5

/-- The rows of R92: the 8-bit pattern and the command it selects. -/
def opcodeMap : List (Byte × Command) :=
  [(0x00, .nop), (0x01, .pre), (0x02, .h2b), (0x03, .v2d), (0x04, .v3d), (0x08, .ldp), (0x09, .ldo),
   (0x11, .ck1), (0x12, .ck2), (0x14, .ck4), (0x15, .ck5)]

/-- The command a CMD8 code selects, matched on all 8 bits; none for a reserved code (R92, R93, R95). -/
def decodeCommand (op : Byte) : Option Command := opcodeMap.lookup op

/-- Decoding of CMD8. -/
def decodeCmd8 (op : Byte) : Except Reject Instr :=
  match decodeCommand op with
  | some c => .ok c.toInstr
  | none => .error (.reservedCommand op)

/-- BUS24 bit 23, `W` (R96). -/
def busW (w : BusWord) : Bool := w.getLsbD 23

/-- BUS24 bits 22:20, 0 in every valid word (R96). -/
def busZero (w : BusWord) : BitVec 3 := w.extractLsb' 20 3

/-- BUS24 bits 19:8, `addr` (R96). -/
def busAddr (w : BusWord) : Nat := (w.extractLsb' 8 12).toNat

/-- BUS24 bits 7:0, `data` (R96). -/
def busData (w : BusWord) : Byte := w.extractLsb' 0 8

/-- Decoding of BUS24 (R96). -/
def decodeBus24 (w : BusWord) : Except Reject Instr :=
  if busZero w ≠ 0 then .error (.zeroFieldNotZero w)
  else if busW w then .ok (.wr (busAddr w) (busData w))
  else if busData w ≠ 0 then .error (.readWithData w)
  else .ok (.rd (busAddr w))

/-- Decoding of a word of either format. -/
def decode : Word → Except Reject Instr
  | .cmd8 op => decodeCmd8 op
  | .bus24 w => decodeBus24 w

/-- The word of the opcode table's numbering: an 8-bit row is CMD8, a 24-bit row BUS24, and no row has another width or
a bit above its width. -/
def tableWord (nbits w : Nat) : Option Word :=
  if nbits = 8 ∧ w < 2 ^ 8 then some (.cmd8 (BitVec.ofNat 8 w))
  else if nbits = 24 ∧ w < 2 ^ 24 then some (.bus24 (BitVec.ofNat 24 w))
  else none

/-- The instruction the decoder reads from an instruction of `nbits` bits `w` (host's fixed name). -/
def decodeTableWord (nbits w : Nat) : Option Instr :=
  match tableWord nbits w with
  | some word => (decode word).toOption
  | none => none

/-- The code of a command (R92). -/
def Command.op : Command → Byte
  | .nop => 0x00
  | .pre => 0x01
  | .h2b => 0x02
  | .v2d => 0x03
  | .v3d => 0x04
  | .ldp => 0x08
  | .ldo => 0x09
  | .ck1 => 0x11
  | .ck2 => 0x12
  | .ck4 => 0x14
  | .ck5 => 0x15

/-- `0x800000 | addr << 8 | byte` (R97). -/
def encodeWrite (addr : Nat) (data : Byte) : BusWord :=
  0x800000#24 ||| (BitVec.ofNat 24 addr <<< 8) ||| data.setWidth 24

/-- `addr << 8` (R97). -/
def encodeRead (addr : Nat) : BusWord := BitVec.ofNat 24 addr <<< 8

/-- The word of an instruction. -/
def encode : Instr → Word
  | .nop => .cmd8 Command.nop.op
  | .pre => .cmd8 Command.pre.op
  | .h2b => .cmd8 Command.h2b.op
  | .v2d => .cmd8 Command.v2d.op
  | .v3d => .cmd8 Command.v3d.op
  | .ldp => .cmd8 Command.ldp.op
  | .ldo => .cmd8 Command.ldo.op
  | .ck1 => .cmd8 Command.ck1.op
  | .ck2 => .cmd8 Command.ck2.op
  | .ck4 => .cmd8 Command.ck4.op
  | .ck5 => .cmd8 Command.ck5.op
  | .wr addr data => .bus24 (encodeWrite addr data)
  | .rd addr => .bus24 (encodeRead addr)

/-- A word's width and bits, as the opcode table numbers them. -/
def Word.toTable : Word → Nat × Nat
  | .cmd8 op => (8, op.toNat)
  | .bus24 w => (24, w.toNat)

/-- The width and bits of an instruction, as the opcode table numbers them. -/
def encodeTableWord (i : Instr) : Nat × Nat := (encode i).toTable

end Sys2Proof
end

