-- ==== Sys2Proof/Machine/State.lean ====
section
/-! DEFINITION. The state of ORDEC (10_state.md R22 to R41) and of the host that drives it (70_reset_and_hazards.md
R277, R278), the values right after reset (R40, R270), and the ways a step can stop. Plain data throughout. -/

namespace Sys2Proof.Machine

/-- A byte buffer: (index, byte) pairs with strictly rising indices and no 0x00 entry. An unlisted index reads 0x00, the
reset contents of R40. -/
abbrev Memory := List Host.Cell

/-- A bit string in arrival order, index 0 first (00_scope.md R6). Bits past its end read 0 (10_state.md R28). -/
abbrev BitString := List Bool

/-- The fields of STATUS (R23). Bit 7 is reserved and has no storage. -/
structure Status where
  /-- Bit 0: the last command other than NOP ended with `NONE`. -/
  ok : Bool
  /-- Bit 1: the last command other than NOP ended with another code. -/
  err : Bool
  /-- Bit 2: the last decode found the V2 preamble. -/
  v2pre : Bool
  /-- Bit 3: the last decode searched for and found the V3 preamble. -/
  v3pre : Bool
  /-- Bits 5:4: 0b00 no result, 0b01 OUT holds a V2 result, 0b10 a V3 result. -/
  path : BitVec 2
  /-- Bit 6: the last checksum command passed. -/
  csok : Bool
  deriving DecidableEq, Repr

/-- The block: every register and buffer of R22 to R34. The views of R35 to R37 have no storage. -/
structure Block where
  /-- CMD (R22). -/
  cmd : Byte
  /-- STATUS (R23). -/
  status : Status
  /-- ERRCODE (R24). -/
  errCode : Byte
  /-- MSG (R25), by character index. -/
  msg : Memory
  /-- MSG_LEN (R26). -/
  msgLen : Half
  /-- BITS (R27): `BITS[i]` is `Block.bit i`. -/
  bits : BitString
  /-- BIT_LEN (R28). -/
  bitLen : Half
  /-- OUT (R29), by byte index. -/
  out : Memory
  /-- OUT_LEN (R30). -/
  outLen : Byte
  /-- PAY (R31), by byte index. -/
  pay : Memory
  /-- PAY_LEN (R32). -/
  payLen : Byte
  /-- CS_CALC (R33). -/
  csCalc : Byte
  /-- CS_REF (R33). -/
  csRef : Byte
  /-- V2_IDX (R34). -/
  v2Idx : Half
  /-- V3_PRE_IDX (R34). -/
  v3PreIdx : Half
  /-- V3_DAT_IDX (R34). -/
  v3DatIdx : Half
  deriving DecidableEq, Repr

/-- What the host does next (R277): issue an access or a command, or apply the reset input between accesses. -/
inductive HostEvent where
  | access (w : Word)
  | reset
  deriving DecidableEq, Repr

/-- The machine: the block, and the host's side of a run (R278). -/
structure State where
  /-- The block. -/
  block : Block
  /-- The host program still to run, next event first. -/
  pending : List HostEvent
  /-- The observation so far: the values of the host's reads, oldest first. -/
  reads : List Byte
  deriving DecidableEq, Repr

/-- Why the machine would stop with a fault. There is no constructor: the block has no fault ("The block can never be
stuck, faulted or refused, because every access is defined", 70_reset_and_hazards.md R277; 60_exceptions.md R240,
R249). -/
inductive Fault
  deriving DecidableEq, Repr

/-- Why a step is refused. -/
inductive Refusal where
  /-- Raised by exec's arm of an instruction that has no meaning yet; no arm does. Safe. -/
  | notModelled (mnemonic : String)
  /-- Raised by step for a BUS24 word that spells no transaction: "a transcriber refuses it" (30_encoding.md R96), so
  the block sees no access. Safe: the model stops where the host program is none. -/
  | noTransaction (w : BusWord)
  deriving DecidableEq, Repr

/-- STATUS = 0x00 (R40). -/
def Status.reset : Status :=
  { ok := false, err := false, v2pre := false, v3pre := false, path := 0, csok := false }

/-- The reset value of every register and buffer (R40, R270). -/
def Block.reset : Block :=
  { cmd := 0, status := Status.reset, errCode := 0, msg := [], msgLen := 0, bits := [], bitLen := 0, out := [],
    outLen := 0, pay := [], payLen := 0, csCalc := 0, csRef := 0, v2Idx := 0, v3PreIdx := 0, v3DatIdx := 0 }

/-- The machine right after reset: the block of R40, and a host that has issued nothing and has nothing to issue
(DESIGN CHOICE, log entry 1: the spec gives the host no reset). -/
def State.reset : State :=
  { block := Block.reset, pending := [], reads := [] }

end Sys2Proof.Machine
end

