-- ==== Sys2Proof/Machine/Flags.lean ====
section
/-! DEFINITION. The error codes (60_exceptions.md R241) and every STATUS computation: the byte the host reads (10_state.md
R23), the outcome flags (40_control.md R112) and the fields the clearing procedures write (R111). ORDEC has no arithmetic
flag (10_state.md R38). -/

namespace Sys2Proof.Machine

/-- The names of R241. -/
inductive ErrCode where
  | none | invalidFraming | invalidHex | unrecognizedProtocol | emptyDecode | truncatedMessage | unknownSensor
  | checksumMismatch | unimplementedDecoder | payloadTooLong | inputTooLong | checksumRange | illegalCommand
  deriving DecidableEq, Repr

/-- The code of a name (R241). -/
def ErrCode.code : ErrCode → Byte
  | .none => 0x00
  | .invalidFraming => 0x01
  | .invalidHex => 0x02
  | .unrecognizedProtocol => 0x03
  | .emptyDecode => 0x04
  | .truncatedMessage => 0x05
  | .unknownSensor => 0x06
  | .checksumMismatch => 0x07
  | .unimplementedDecoder => 0x08
  | .payloadTooLong => 0x10
  | .inputTooLong => 0x11
  | .checksumRange => 0x12
  | .illegalCommand => 0x13

/-- The STATUS byte (R23): bit 0 OK, 1 ERR, 2 V2PRE, 3 V3PRE, 5:4 PATH, 6 CSOK; bit 7 reads 0 (R65). -/
def Status.toByte (t : Status) : Byte :=
  (((((0#1 ++ BitVec.ofBool t.csok) ++ t.path) ++ BitVec.ofBool t.v3pre) ++ BitVec.ofBool t.v2pre)
    ++ BitVec.ofBool t.err) ++ BitVec.ofBool t.ok

/-- OK is 1 exactly for `NONE`, ERR exactly for any other code (R112). -/
def Status.withOutcome (t : Status) (c : ErrCode) : Status :=
  { t with ok := c == .none, err := c != .none }

/-- The STATUS part of `clear_dec` (R111). -/
def Status.clearDec (t : Status) : Status :=
  { t with v2pre := false, v3pre := false, path := 0 }

/-- The STATUS part of `clear_out` (R111). -/
def Status.clearOut (t : Status) : Status := { t with path := 0 }

/-- The STATUS part of `clear_cs` (R111). -/
def Status.clearCs (t : Status) : Status := { t with csok := false }

end Sys2Proof.Machine
end

