-- ==== Sys2Proof/Machine/Ops.lean ====
section
/-! DEFINITION. The named operations over the buffers and registers: reading and writing a byte buffer, reading a bit,
the clearing procedures (40_control.md R111), and the one way every command reports its outcome (R112; the `raise E` of
00_scope.md R10). ORDEC has no trap entry and no trap return (60_exceptions.md R244, R245), so `finish` is the whole of
what an error does. -/

namespace Sys2Proof.Machine

/-- Read element `a`; an unlisted element is 0x00. -/
def Memory.read : Memory → Nat → Byte
  | [], _ => 0
  | (k, v) :: m, a => if k = a then v else Memory.read m a

/-- Put a nonzero byte at `a`, keeping the indices rising. -/
def Memory.insert : Memory → Nat → Byte → Memory
  | [], a, v => [(a, v)]
  | (k, x) :: m, a, v =>
    if a < k then (a, v) :: (k, x) :: m
    else if a = k then (a, v) :: m
    else (k, x) :: Memory.insert m a v

/-- Drop the entry at `a`. -/
def Memory.erase (m : Memory) (a : Nat) : Memory := m.filter (fun c => c.1 != a)

/-- Write byte `v` at `a`; writing 0x00, what an unlisted element reads as, removes the entry. -/
def Memory.write (m : Memory) (a : Nat) (v : Byte) : Memory :=
  if v = 0 then m.erase a else m.insert a v

/-- Write bytes in order from `a` on. -/
def Memory.writeAll (m : Memory) (a : Nat) : List Byte → Memory
  | [] => m
  | v :: vs => Memory.writeAll (m.write a v) (a + 1) vs

/-- The canonical form: every index at least `lo` and rising, no 0x00 entry. -/
def Memory.wfFrom (lo : Nat) : Memory → Bool
  | [] => true
  | (k, v) :: m => decide (lo ≤ k) && decide (v ≠ 0) && Memory.wfFrom (k + 1) m

/-- The canonical form of a buffer. -/
def Memory.wf (m : Memory) : Bool := Memory.wfFrom 0 m

/-- Every listed index is below `cap`. -/
def Memory.within (cap : Nat) (m : Memory) : Bool := m.all (fun c => decide (c.1 < cap))

/-- `BITS[i]` (00_scope.md R6; 10_state.md R27). -/
def Block.bit (b : Block) (i : Nat) : Bool := b.bits.getD i false

/-- `clear_hex()` (R111). -/
def Block.clearHex (b : Block) : Block := { b with bits := [], bitLen := 0 }

/-- `clear_dec()` (R111). -/
def Block.clearDec (b : Block) : Block :=
  { b with out := [], outLen := 0, status := b.status.clearDec, v2Idx := 0, v3PreIdx := 0, v3DatIdx := 0 }

/-- `clear_out()` (R111): the preamble flags and indices stay. No command's pseudocode calls it: after `clear_dec` a
failed decode has already left what it leaves (42_v2_decoder.md R152). -/
def Block.clearOut (b : Block) : Block :=
  { b with out := [], outLen := 0, status := b.status.clearOut }

/-- `clear_pay()` (R111). -/
def Block.clearPay (b : Block) : Block := { b with pay := [], payLen := 0 }

/-- `clear_cs()` (R111). -/
def Block.clearCs (b : Block) : Block :=
  { b with status := b.status.clearCs, csCalc := 0, csRef := 0 }

/-- CMD takes the code written (10_state.md R22). -/
def Block.setCmd (b : Block) (v : Byte) : Block := { b with cmd := v }

/-- BITS and BIT_LEN take a converted bit string of `count` characters (41_hexbit.md R132). -/
def Block.setHex (b : Block) (s : BitString) (count : Nat) : Block :=
  { b with bits := s, bitLen := BitVec.ofNat 16 (4 * count) }

/-- The V2 preamble was found at `i` (42_v2_decoder.md R153). -/
def Block.setV2 (b : Block) (i : Nat) : Block :=
  { b with status := { b.status with v2pre := true }, v2Idx := BitVec.ofNat 16 i }

/-- The V3 preamble was found at `p` and the marker at `d` (43_v3_decoder.md R173). -/
def Block.setV3 (b : Block) (p d : Nat) : Block :=
  { b with status := { b.status with v3pre := true }, v3PreIdx := BitVec.ofNat 16 p, v3DatIdx := BitVec.ofNat 16 d }

/-- OUT takes the length byte `8 · K` and the `K` decoded bytes (42_v2_decoder.md R152; 90_conflicts.md C1). -/
def Block.setOut (b : Block) (bytes : List Byte) (path : BitVec 2) : Block :=
  { b with
    out := (b.out.write 0 (BitVec.ofNat 8 (8 * bytes.length))).writeAll 1 bytes
    outLen := BitVec.ofNat 8 (bytes.length + 1)
    status := { b.status with path := path } }

/-- PAY and PAY_LEN take the loaded bytes (45_checksum.md R215, R216). -/
def Block.setPay (b : Block) (bytes : List Byte) : Block :=
  { b with pay := b.pay.writeAll 0 bytes, payLen := BitVec.ofNat 8 bytes.length }

/-- CS_CALC, CS_REF and CSOK take the result of a comparison (45_checksum.md R218). -/
def Block.setCs (b : Block) (computed ref : Byte) (passed : Bool) : Block :=
  { b with csCalc := computed, csRef := ref, status := { b.status with csok := passed } }

/-- `finish(c)` (R112): writes group STAT only. -/
def Block.finish (b : Block) (c : ErrCode) : Block :=
  { b with errCode := c.code, status := b.status.withOutcome c }

/-- The outcome of a procedure that returns a code, as the end of its command: `finish(run())`. -/
def finishWith (r : ErrCode × Block) : Block := r.2.finish r.1

/-- Issue a command (30_encoding.md R91): CMD takes the code, then the command's rule runs, all in one step. -/
def issueAs (op : Byte) (rule : Block → Block) (s : State) : Host.Outcome State Fault Refusal :=
  .next { s with block := rule (s.block.setCmd op) }

end Sys2Proof.Machine
end

