-- ==== Sys2Proof/Machine/Operands.lean ====
section
/-! DEFINITION. The operand forms and conversions of the rules: nibbles and binary strings (00_scope.md R7, R8), hex
digits (41_hexbit.md R131, R135; 45_checksum.md R211), the locator (42_v2_decoder.md R150), payload indexing (R12), and
the read-only views (10_state.md R35 to R37). -/

namespace Sys2Proof.Machine

/-- `hi(b) = b[7:4]` (R7). -/
def hi (b : Byte) : Nat := b.toNat / 16

/-- `lo(b) = b[3:0]` (R7). -/
def lo (b : Byte) : Nat := b.toNat % 16

/-- `num(s)`: the leftmost bit is the most significant (R8). -/
def num (s : List Bool) : Nat := s.foldl (fun acc x => 2 * acc + x.toNat) 0

/-- `bin_w(v)` (R8). -/
def bin (w v : Nat) : List Bool := (List.range w).map (fun j => v.testBit (w - 1 - j))

/-- The byte whose bit `j` is `f j`: the sum over `j` of `f(j) << j` (R151, R171). -/
def byteOfBits (f : Nat → Bool) : Byte :=
  BitVec.ofNat 8 (((List.range 8).map (fun j => (f j).toNat <<< j)).sum)

/-- `hexval(c)`; `none` is INVALID (R131). -/
def hexval (c : Byte) : Option Nat :=
  let v := c.toNat
  if 0x30 ≤ v ∧ v ≤ 0x39 then some (v - 0x30)
  else if 0x41 ≤ v ∧ v ≤ 0x46 then some (v - 0x41 + 10)
  else if 0x61 ≤ v ∧ v ≤ 0x66 then some (v - 0x61 + 10)
  else none

/-- The value of a character already known to be a hex digit; the rules use it on no other. -/
def hexvalOf (c : Byte) : Nat := (hexval c).getD 0

/-- Are `MSG[start .. start+count-1]` all hex digits? (R132, R215). -/
def allHex (m : Memory) (start count : Nat) : Bool :=
  (List.range count).all (fun i => (hexval (m.read (start + i))).isSome)

/-- `pair(c0, c1)`: the first character is the high nibble (R211). -/
def pair (c0 c1 : Byte) : Byte := BitVec.ofNat 8 ((hexvalOf c0 <<< 4) ||| hexvalOf c1)

/-- The upper-case hex digit character of a nibble (10_state.md R36, D12). -/
def hexDigit (v : Nat) : Byte :=
  if v < 10 then BitVec.ofNat 8 (0x30 + v) else BitVec.ofNat 8 (0x41 + (v - 10))

/-- Does pattern `p` lie in `s` from index `i` on? -/
def matchesAt (s : BitString) (i : Nat) : List Bool → Bool
  | [] => true
  | x :: p => (s.getD i false == x) && matchesAt s (i + 1) p

/-- `first(s, n, p)`: the least index of a whole match inside the first `n` bits (R150). -/
def first (s : BitString) (n : Nat) (p : List Bool) : Option Nat :=
  (List.range (n + 1 - p.length)).find? (fun i => matchesAt s i p)

/-- `payload[i]` means `PAY[i+1]` (R12). -/
def payload (m : Memory) (i : Nat) : Byte := m.read (i + 1)

/-- `BITBUF[k] = num(BITS[8k .. 8k+7])` (R35). -/
def Block.bitbuf (b : Block) (k : Nat) : Byte :=
  BitVec.ofNat 8 (num ((List.range 8).map (fun j => b.bit (8 * k + j))))

/-- `OUTHEX[k]` (R36). -/
def Block.outhex (b : Block) (k : Nat) : Byte :=
  if k < 2 * b.outLen.toNat then
    if k % 2 = 0 then hexDigit (hi (b.out.read (k / 2))) else hexDigit (lo (b.out.read (k / 2)))
  else 0

/-- `OUTHEX_LEN = 2 · OUT_LEN` (R36), in 8 bits. -/
def Block.outhexLen (b : Block) : Byte := BitVec.ofNat 8 (2 * b.outLen.toNat)

/-- `TYPE_ID = (PAY[1] << 8) | PAY[2]` (R37). -/
def Block.typeId (b : Block) : Half :=
  ((b.pay.read 1).setWidth 16 <<< 8) ||| (b.pay.read 2).setWidth 16

/-- `DECL_LEN = PAY[0]` (R37). -/
def Block.declLen (b : Block) : Byte := b.pay.read 0

/-- Bits 7:0 of a 16-bit register, its `_LO` byte (20_memory.md R67). -/
def loByte (h : Half) : Byte := h.extractLsb' 0 8

/-- Bits 15:8 of a 16-bit register, its `_HI` byte (R67). -/
def hiByte (h : Half) : Byte := h.extractLsb' 8 8

end Sys2Proof.Machine
end

