-- ==== Sys2Proof/Machine/Checksum.lean ====
section
/-! DEFINITION. The nibble-sum checksum validator and its four variants (45_checksum.md R218 to R222). -/

namespace Sys2Proof.Machine

/-- `NS(h)`: both nibbles of the first `⌊h/2⌋` payload bytes, and the high nibble of the next when `h` is odd (R218). -/
def nibbleSum (m : Memory) (h : Nat) : Nat :=
  ((List.range (h / 2)).map (fun i => hi (payload m i) + lo (payload m i))).sum
    + (if h % 2 = 1 then hi (payload m (h / 2)) else 0)

/-- `(NS(h) - 0xA) mod 256` (R218, D22). -/
def csValue (m : Memory) (h : Nat) : Byte := BitVec.ofNat 8 (nibbleSum m h) - Config.csBias

/-- The comparison of `cs_run`, on a block whose CS group is cleared (R218). -/
def Block.csCompare (b : Block) (computed ref : Byte) : Block :=
  if computed = ref then (b.setCs computed ref true).finish .none
  else (b.setCs computed ref false).finish .checksumMismatch

/-- `cs_run(h, need, ref)` (R218); `ref` is an expression over the payload. -/
def Block.csRun (b : Block) (h need : Nat) (ref : Memory → Byte) : Block :=
  if b.payLen.toNat < need + 1 then b.clearCs.finish .checksumRange
  else b.clearCs.csCompare (csValue b.pay h) (ref b.pay)

/-- `hi(payload[6]) | (lo(payload[7]) << 4)` (R219, D21). -/
def ck1Ref (m : Memory) : Byte := BitVec.ofNat 8 (hi (payload m 6) ||| (lo (payload m 7) <<< 4))

/-- The rule of CK1: `cs_run(13, 8, …)` (R219). -/
def cmdCk1 (b : Block) : Block := b.csRun 13 8 ck1Ref

/-- The rule of CK2: `cs_run(16, 9, payload[8])` (R220). -/
def cmdCk2 (b : Block) : Block := b.csRun 16 9 (fun m => payload m 8)

/-- The rule of CK4: `cs_run(18, 10, payload[9])` (R221). -/
def cmdCk4 (b : Block) : Block := b.csRun 18 10 (fun m => payload m 9)

/-- The rule of CK5: `cs_run(20, 11, payload[10])` (R222). -/
def cmdCk5 (b : Block) : Block := b.csRun 20 11 (fun m => payload m 10)

/-- CK1, issued (R91, R219). -/
def execCk1 (s : State) : Host.Outcome State Fault Refusal := issueAs Command.ck1.op cmdCk1 s

/-- CK2, issued (R91, R220). -/
def execCk2 (s : State) : Host.Outcome State Fault Refusal := issueAs Command.ck2.op cmdCk2 s

/-- CK4, issued (R91, R221). -/
def execCk4 (s : State) : Host.Outcome State Fault Refusal := issueAs Command.ck4.op cmdCk4 s

/-- CK5, issued (R91, R222). -/
def execCk5 (s : State) : Host.Outcome State Fault Refusal := issueAs Command.ck5.op cmdCk5 s

end Sys2Proof.Machine
end

