-- ==== Sys2Proof/Machine/Control.lean ====
section
/-! DEFINITION. NOP and the illegal command (40_control.md R113, R114). -/

namespace Sys2Proof.Machine

/-- `NOP: skip` (R113). -/
def cmdNop (b : Block) : Block := b

/-- A reserved code: `finish(ILLEGAL_COMMAND)` (R114). -/
def cmdIllegal (b : Block) : Block := b.finish .illegalCommand

/-- NOP, issued (R91, R113). -/
def execNop (s : State) : Host.Outcome State Fault Refusal := issueAs Command.nop.op cmdNop s

end Sys2Proof.Machine
end

