-- ==== Sys2Proof/Machine/Load.lean ====
section
/-! DEFINITION. The payload loads LDP and LDO (45_checksum.md R211 to R216). -/

namespace Sys2Proof.Machine

/-- The bytes of the hex string `MSG[0 .. n-1]`, `n` even (R215). -/
def msgBytes (m : Memory) (n : Nat) : List Byte :=
  (List.range (n / 2)).map (fun k => pair (m.read (2 * k)) (m.read (2 * k + 1)))

/-- The first `n` bytes of a buffer. -/
def firstBytes (m : Memory) (n : Nat) : List Byte := (List.range n).map m.read

/-- The cleared groups a load starts from (R212). -/
def Block.loadStart (b : Block) : Block := b.clearPay.clearCs

/-- The rule of LDP (R215), its checks in the order of R243. -/
def cmdLdp (b : Block) : Block :=
  let c := b.loadStart
  let n := b.msgLen.toNat
  if n > Config.msgCap then c.finish .inputTooLong
  else if n % 2 = 1 then c.finish .invalidHex
  else if !allHex b.msg 0 n then c.finish .invalidHex
  else if n / 2 > Config.payCap then c.finish .payloadTooLong
  else if n / 2 < 3 then c.finish .truncatedMessage
  else (c.setPay (msgBytes b.msg n)).finish .none

/-- The rule of LDO (R216). -/
def cmdLdo (b : Block) : Block :=
  let c := b.loadStart
  if b.outLen.toNat < 3 then c.finish .truncatedMessage
  else (c.setPay (firstBytes b.out b.outLen.toNat)).finish .none

/-- LDP, issued (R91, R215). -/
def execLdp (s : State) : Host.Outcome State Fault Refusal := issueAs Command.ldp.op cmdLdp s

/-- LDO, issued (R91, R216). -/
def execLdo (s : State) : Host.Outcome State Fault Refusal := issueAs Command.ldo.op cmdLdo s

end Sys2Proof.Machine
end

