-- ==== Sys2Proof/Machine/HexBit.lean ====
section
/-! DEFINITION. The Hex/Bit converter: `expand` and H2B (41_hexbit.md R132, R133). -/

namespace Sys2Proof.Machine

/-- The bits of `MSG[start .. start+count-1]`, 4 per character, most significant first (R132). -/
def expandBits (m : Memory) (start count : Nat) : BitString :=
  (List.range count).flatMap (fun i => bin 4 (hexvalOf (m.read (start + i))))

/-- `expand(start, count)` (R132): every character is checked before any bit is written. -/
def Block.expand (b : Block) (start count : Nat) : ErrCode × Block :=
  if allHex b.msg start count then
    (.none, b.clearHex.setHex (expandBits b.msg start count) count)
  else (.invalidHex, b.clearHex)

/-- The rule of H2B (R133). -/
def cmdH2b (b : Block) : Block :=
  if b.msgLen.toNat > Config.msgCap then b.clearHex.finish .inputTooLong
  else finishWith (b.expand 0 b.msgLen.toNat)

/-- H2B, issued (R91, R133). -/
def execH2b (s : State) : Host.Outcome State Fault Refusal := issueAs Command.h2b.op cmdH2b s

end Sys2Proof.Machine
end

