-- ==== Sys2Proof/Machine/V2.lean ====
section
/-! DEFINITION. The output stage shared by both decoders, and the Manchester/V2 decoder (42_v2_decoder.md R151 to
R153). -/

namespace Sys2Proof.Machine

/-- `emit(b[0..K-1], path)` (R152): no byte or too many leaves OUT as it was, cleared. -/
def Block.emit (b : Block) (bytes : List Byte) (path : BitVec 2) : ErrCode × Block :=
  if bytes.length = 0 then (.emptyDecode, b)
  else if bytes.length > Config.maxK then (.payloadTooLong, b)
  else (.none, b.setOut bytes path)

/-- `v2_byte(c)`: bit `j` is chunk bit `2j + 1` (R151). -/
def v2Byte (s : BitString) (c : Nat) : Byte := byteOfBits (fun j => s.getD (c + 2 * j + 1) false)

/-- `b[0..K-1]` of the V2 decode from index `i` (R153). -/
def v2Bytes (s : BitString) (n i : Nat) : List Byte :=
  (List.range ((n - i) / 16)).map (fun k => v2Byte s (i + 16 * k))

/-- `v2_run()` (R153). -/
def Block.v2Run (b : Block) : ErrCode × Block :=
  match first b.bits b.bitLen.toNat Config.v2Preamble with
  | none => (.unrecognizedProtocol, b)
  | some i => (b.setV2 i).emit (v2Bytes b.bits b.bitLen.toNat i) 0b01

/-- The rule of V2D (R153). -/
def cmdV2d (b : Block) : Block := finishWith b.clearDec.v2Run

/-- V2D, issued (R91, R153). -/
def execV2d (s : State) : Host.Outcome State Fault Refusal := issueAs Command.v2d.op cmdV2d s

end Sys2Proof.Machine
end

