-- ==== Sys2Proof/Machine/V3.lean ====
section
/-! DEFINITION. The bit-reversal/V3 decoder (43_v3_decoder.md R171 to R173). -/

namespace Sys2Proof.Machine

/-- `rev8(x)`: the bit order of a byte reversed (R171). -/
def rev8 (x : Byte) : Byte := byteOfBits (fun j => x.getLsbD (7 - j))

/-- `v3_byte(c)`: bit `j` is chunk bit `j` (R171). -/
def v3Byte (s : BitString) (c : Nat) : Byte := byteOfBits (fun j => s.getD (c + j) false)

/-- `b[0..K-1]` of the V3 decode from index `d` (R173). -/
def v3Bytes (s : BitString) (n d : Nat) : List Byte :=
  (List.range ((n - d) / 8)).map (fun k => v3Byte s (d + 8 * k))

/-- `v3_run()` (R173). The preamble is an existence check only (R174); the data start at the first marker from bit 0
(R172). Where the preamble is found the marker is too, inside it (R172), so the inner `none` is never taken. -/
def Block.v3Run (b : Block) : ErrCode × Block :=
  match first b.bits b.bitLen.toNat Config.v3Preamble with
  | none => (.unrecognizedProtocol, b)
  | some p =>
    match first b.bits b.bitLen.toNat Config.v3Marker with
    | none => (.unrecognizedProtocol, b)
    | some d => (b.setV3 p d).emit (v3Bytes b.bits b.bitLen.toNat d) 0b10

/-- The rule of V3D (R173). -/
def cmdV3d (b : Block) : Block := finishWith b.clearDec.v3Run

/-- V3D, issued (R91, R173). -/
def execV3d (s : State) : Host.Outcome State Fault Refusal := issueAs Command.v3d.op cmdV3d s

end Sys2Proof.Machine
end

