-- ==== Sys2Proof/Machine/Preprocess.lean ====
section
/-! DEFINITION. The CUL preprocessor: framing, conversion, and the V2-then-V3 arbitration (44_preprocessor.md R191 to
R195). -/

namespace Sys2Proof.Machine

/-- The framing check: at least 4 characters, the first two exactly `om` (R195). -/
def Block.framed (b : Block) : Bool :=
  decide (4 ≤ b.msgLen.toNat) && ([b.msg.read 0, b.msg.read 1] == Config.frameMarker)

/-- The outcome when both decoders fail without an oversized decode (R193). -/
def Block.bothFailed (b : Block) : ErrCode :=
  if b.status.v2pre || b.status.v3pre then .emptyDecode else .unrecognizedProtocol

/-- The V3 attempt of PRE and what ends it (R191 from `r3` on). -/
def Block.fallback (b : Block) : Block :=
  match b.v3Run with
  | (.none, b3) => b3.finish .none
  | (.payloadTooLong, b3) => b3.finish .payloadTooLong
  | (_, b3) => b3.finish b3.bothFailed

/-- The V2-then-V3 arbitration of PRE (R191 from `r2` on; R192, R194; 90_conflicts.md C4). -/
def Block.arbitrate (b : Block) : Block :=
  match b.v2Run with
  | (.none, b2) => b2.finish .none
  | (.payloadTooLong, b2) => b2.finish .payloadTooLong
  | (_, b2) => b2.fallback

/-- The rule of PRE (R191). -/
def cmdPre (b : Block) : Block :=
  let c := b.clearHex.clearDec
  if b.msgLen.toNat > Config.msgCap then c.finish .inputTooLong
  else if b.framed then
    match c.expand 2 (b.msgLen.toNat - 2) with
    | (.none, e) => e.arbitrate
    | (r, e) => e.finish r
  else c.finish .invalidFraming

/-- PRE, issued (R91, R191). -/
def execPre (s : State) : Host.Outcome State Fault Refusal := issueAs Command.pre.op cmdPre s

end Sys2Proof.Machine
end

