-- ==== Sys2Proof/Machine/Bus.lean ====
section
/-! DEFINITION. The host bus: the address map, reads and writes (20_memory.md R61 to R67), the issue of a command by a
write to CMD (30_encoding.md R91), and the accesses WR and RD. -/

namespace Sys2Proof.Machine

/-- The rule a command code selects; a reserved code selects R114 (R91, R92, R95). -/
def performCommand (op : Byte) (b : Block) : Block :=
  match decodeCommand op with
  | some .nop => cmdNop b
  | some .pre => cmdPre b
  | some .h2b => cmdH2b b
  | some .v2d => cmdV2d b
  | some .v3d => cmdV3d b
  | some .ldp => cmdLdp b
  | some .ldo => cmdLdo b
  | some .ck1 => cmdCk1 b
  | some .ck2 => cmdCk2 b
  | some .ck4 => cmdCk4 b
  | some .ck5 => cmdCk5 b
  | none => cmdIllegal b

/-- `CMD <- v; perform command v` (R63, R91). -/
def Block.issue (b : Block) (v : Byte) : Block := performCommand v (b.setCmd v)

/-- The registers below 0x100 (R64); 0x003 and 0x016 on are reserved and read 0x00 (R65). -/
def Block.readReg (b : Block) (a : Nat) : Byte :=
  if a = 0x000 then b.cmd
  else if a = 0x001 then b.status.toByte
  else if a = 0x002 then b.errCode
  else if a = 0x004 then loByte b.msgLen
  else if a = 0x005 then hiByte b.msgLen
  else if a = 0x006 then loByte b.bitLen
  else if a = 0x007 then hiByte b.bitLen
  else if a = 0x008 then b.outLen
  else if a = 0x009 then b.payLen
  else if a = 0x00A then b.csCalc
  else if a = 0x00B then b.csRef
  else if a = 0x00C then loByte b.v2Idx
  else if a = 0x00D then hiByte b.v2Idx
  else if a = 0x00E then loByte b.v3PreIdx
  else if a = 0x00F then hiByte b.v3PreIdx
  else if a = 0x010 then loByte b.v3DatIdx
  else if a = 0x011 then hiByte b.v3DatIdx
  else if a = 0x012 then hiByte b.typeId
  else if a = 0x013 then loByte b.typeId
  else if a = 0x014 then b.declLen
  else if a = 0x015 then b.outhexLen
  else 0

/-- The whole map of R64 for an address below 4096. -/
def Block.readMap (b : Block) (a : Nat) : Byte :=
  if a < 0x100 then b.readReg a
  else if a < 0x200 then b.msg.read (a - 0x100)
  else if a < 0x280 then b.bitbuf (a - 0x200)
  else if a < 0x300 then 0
  else if a < 0x320 then b.out.read (a - 0x300)
  else if a < 0x340 then b.pay.read (a - 0x320)
  else if a < 0x380 then b.outhex (a - 0x340)
  else 0

/-- `MemRead(a, 1)` (R62), the address taken modulo 4096 (R61). -/
def Block.busRead (b : Block) (a : Nat) : Byte := b.readMap (a % Config.addrSpace)

/-- `MSG_LEN <- (MSG_LEN & 0xFF00) | v` (R63). -/
def setLo (h : Half) (v : Byte) : Half := (h &&& 0xFF00) ||| v.setWidth 16

/-- `MSG_LEN <- (MSG_LEN & 0x00FF) | (v << 8)` (R63). -/
def setHi (h : Half) (v : Byte) : Half := (h &&& 0x00FF) ||| (v.setWidth 16 <<< 8)

/-- `MemWrite(a, 1, v)` for an address below 4096 (R63, R65, R66). -/
def Block.writeMap (b : Block) (a : Nat) (v : Byte) : Block :=
  if a = 0x000 then b.issue v
  else if a = 0x004 then { b with msgLen := setLo b.msgLen v }
  else if a = 0x005 then { b with msgLen := setHi b.msgLen v }
  else if 0x100 ≤ a ∧ a ≤ 0x1FF then { b with msg := b.msg.write (a - 0x100) v }
  else b

/-- `MemWrite(a, 1, v)` (R63), the address taken modulo 4096 (R61). -/
def Block.busWrite (b : Block) (a : Nat) (v : Byte) : Block := b.writeMap (a % Config.addrSpace) v

/-- WR: one host bus write (R63). -/
def execWr (addr : Nat) (data : Byte) (s : State) : Host.Outcome State Fault Refusal :=
  .next { s with block := s.block.busWrite addr data }

/-- RD: one host bus read. It changes nothing of the block (R62); the value joins the host's observation (R278). -/
def execRd (addr : Nat) (s : State) : Host.Outcome State Fault Refusal :=
  .next { s with reads := s.reads ++ [s.block.busRead addr] }

/-- A reserved command code, issued as CMD8 (R91, R114). -/
def execReserved (op : Byte) (s : State) : Host.Outcome State Fault Refusal := issueAs op cmdIllegal s

end Sys2Proof.Machine
end

