-- ==== Sys2Proof/Machine/Dispatch.lean ====
section
/-! DEFINITION. One arm per instruction, each one direct call of its meaning. -/

namespace Sys2Proof.Machine

def exec (i : Instr) (s : State) : Host.Outcome State Fault Refusal :=
  match i with
  | .nop => Sys2Proof.Machine.execNop s
  | .pre => Sys2Proof.Machine.execPre s
  | .h2b => Sys2Proof.Machine.execH2b s
  | .v2d => Sys2Proof.Machine.execV2d s
  | .v3d => Sys2Proof.Machine.execV3d s
  | .ldp => Sys2Proof.Machine.execLdp s
  | .ldo => Sys2Proof.Machine.execLdo s
  | .ck1 => Sys2Proof.Machine.execCk1 s
  | .ck2 => Sys2Proof.Machine.execCk2 s
  | .ck4 => Sys2Proof.Machine.execCk4 s
  | .ck5 => Sys2Proof.Machine.execCk5 s
  | .wr addr data => Sys2Proof.Machine.execWr addr data s
  | .rd addr => Sys2Proof.Machine.execRd addr s

end Sys2Proof.Machine
end

