-- ==== Sys2Proof/Machine/Fetch.lean ====
section
/-! DEFINITION. What step does around an instruction: the reset input, and placing words in the host program. -/

namespace Sys2Proof.Machine

/-- Reset (70_reset_and_hazards.md R270): every register and buffer of the block takes its value of 10_state.md R40. The
host's program and observation are not the block's and stay. -/
def applyReset (s : State) : State := { s with block := Block.reset }

/-- Put one word before the rest of the host program; no word, no change. -/
def State.issueNext (s : State) (w : Option Word) : State :=
  match w with
  | some x => { s with pending := .access x :: s.pending }
  | none => s

/-- Load a host program: a finite list of transactions (R278). -/
def State.load (s : State) (program : List Word) : State :=
  { s with pending := program.map .access }

end Sys2Proof.Machine
end

