-- ==== Sys2Proof/Machine/Step.lean ====
section
/-! DEFINITION. One step: the host's next event (70_reset_and_hazards.md R277, R278; log entry 2). -/

namespace Sys2Proof.Machine

/-- One step. With no event left the run has ended and the block "does nothing until the next access" (R278). A word
that decodes is executed; a reserved command code has the effect of R114; a BUS24 word that spells no transaction is
refused (R96). -/
def step (s : State) : Host.Outcome State Fault Refusal :=
  match s.pending with
  | [] => .next s
  | .reset :: rest => .next (applyReset { s with pending := rest })
  | .access w :: rest =>
    match decode w with
    | .ok i => exec i { s with pending := rest }
    | .error (.reservedCommand op) => execReserved op { s with pending := rest }
    | .error (.zeroFieldNotZero x) => .refused (.noTransaction x)
    | .error (.readWithData x) => .refused (.noTransaction x)

/-- The state whose very next step runs the instruction of `nbits` bits `w` (host's fixed name): the word becomes the
host's next event, and the rest of the host program stays behind it. -/
def State.withFetchWord (s : State) (nbits w : Nat) : State := s.issueNext (tableWord nbits w)

end Sys2Proof.Machine
end

