-- ==== Sys2Proof/Machine/Assembler.lean ====
section
/-! DEFINITION. The host-program notation (30_encoding.md R97 to R99): the pseudo-instructions with their expansions, and
the reading of one line of text. The block never sees this text (R96); it is how a host program is written down. A
double-quoted text and a character literal name characters by their codes (00_scope.md R11). -/

namespace Sys2Proof.Machine

/-- One line of a host program: an access (R97) or a pseudo-instruction (R98). -/
inductive AsmLine where
  | wr (addr : Nat) (data : Byte)
  | rd (addr : Nat)
  | cmd (c : Command)
  | msgset (text : List Byte)
  | rdw (addr : Nat)
  | rdn (addr n : Nat)
  deriving DecidableEq, Repr

/-- The writes of `MSGSET`'s characters from index `i` on (R98). -/
def msgWrites (i : Nat) : List Byte → List Instr
  | [] => []
  | c :: cs => .wr (0x100 + i) c :: msgWrites (i + 1) cs

/-- The accesses a line stands for (R97, R98). -/
def AsmLine.expand : AsmLine → List Instr
  | .wr addr data => [.wr addr data]
  | .rd addr => [.rd addr]
  | .cmd c => [.wr 0x000 c.op]
  | .msgset text =>
    msgWrites 0 text
      ++ [.wr 0x004 (BitVec.ofNat 8 (text.length &&& 0xFF)), .wr 0x005 (BitVec.ofNat 8 (text.length >>> 8))]
  | .rdw addr => [.rd addr, .rd (addr + 1)]
  | .rdn addr n => (List.range n).map (fun i => .rd (addr + i))

/-- The 16-bit value of an `RDW`: `first + (second << 8)` (R98). -/
def rdwValue (first second : Byte) : Half := first.setWidth 16 + (second.setWidth 16 <<< 8)

/-- The value an `RDW` has given, once its two reads are the last of the observation (R98; 70_reset_and_hazards.md
R278); none before two bytes have been read. -/
def State.rdwResult (s : State) : Option Half :=
  match s.reads.reverse with
  | second :: first :: _ => some (rdwValue first second)
  | _ => none

/-- Is the address the line names, if it names one, 0x000 to 0xFFF (R97)? -/
def AsmLine.addrFits : AsmLine → Bool
  | .wr addr _ => decide (addr < Config.addrSpace)
  | .rd addr => decide (addr < Config.addrSpace)
  | .cmd _ => true
  | .msgset _ => true
  | .rdw addr => decide (addr < Config.addrSpace)
  | .rdn addr _ => decide (addr < Config.addrSpace)

/-- Can the line be spelled? The address it names and every address it expands to is 0x000 to 0xFFF (R97). DESIGN CHOICE
(log entry 8): R98 gives no range for the count of `RDN`; a count of 0 is accepted and stands for no access, and the
address is held to R97's range there too. -/
def AsmLine.fits (l : AsmLine) : Bool := l.addrFits && l.expand.all Instr.wellFormed

/-- The register names of the map (20_memory.md R64; the buffers by their first address). -/
def regNames : List (List Char × Nat) :=
  [("CMD".toList, 0x000), ("STATUS".toList, 0x001), ("ERRCODE".toList, 0x002), ("MSG_LEN_LO".toList, 0x004),
   ("MSG_LEN_HI".toList, 0x005), ("BIT_LEN_LO".toList, 0x006), ("BIT_LEN_HI".toList, 0x007), ("OUT_LEN".toList, 0x008),
   ("PAY_LEN".toList, 0x009), ("CS_CALC".toList, 0x00A), ("CS_REF".toList, 0x00B)]
  ++ [("V2_IDX_LO".toList, 0x00C), ("V2_IDX_HI".toList, 0x00D), ("V3_PRE_IDX_LO".toList, 0x00E),
   ("V3_PRE_IDX_HI".toList, 0x00F), ("V3_DAT_IDX_LO".toList, 0x010), ("V3_DAT_IDX_HI".toList, 0x011),
   ("TYPE_ID_HI".toList, 0x012), ("TYPE_ID_LO".toList, 0x013), ("DECL_LEN".toList, 0x014), ("OUTHEX_LEN".toList, 0x015)]
  ++ [("MSG".toList, 0x100), ("BITBUF".toList, 0x200), ("OUT".toList, 0x300), ("PAY".toList, 0x320),
   ("OUTHEX".toList, 0x340)]

/-- The command mnemonics of R92, upper case only (R99). -/
def cmdNames : List (List Char × Command) :=
  [("NOP".toList, .nop), ("PRE".toList, .pre), ("H2B".toList, .h2b), ("V2D".toList, .v2d), ("V3D".toList, .v3d),
   ("LDP".toList, .ldp), ("LDO".toList, .ldo), ("CK1".toList, .ck1), ("CK2".toList, .ck2), ("CK4".toList, .ck4),
   ("CK5".toList, .ck5)]

/-- The command of a mnemonic; any other spelling is refused by the assembler (R99). -/
def commandOf (name : List Char) : Option Command := cmdNames.lookup name

/-- A character's code, if it has 8 bits (R11). -/
def charCode (c : Char) : Option Byte := if c.toNat < 256 then some (BitVec.ofNat 8 c.toNat) else none

/-- The value of a numeral's digits in the given base, at least one digit. -/
def digitsValue (base : Nat) : List Char → Option Nat
  | [] => none
  | cs =>
    cs.foldl
      (fun acc c => do
        let v ← acc
        let d ← (charCode c).bind hexval
        if d < base then some (base * v + d) else none)
      (some 0)

/-- A number, hexadecimal after `0x` (00_scope.md R16), else decimal. -/
def parseNumber : List Char → Option Nat
  | '0' :: 'x' :: cs => digitsValue 16 cs
  | cs => digitsValue 10 cs

/-- An address: a number, a register name, or a name and an offset such as `OUT+3` (R97). DESIGN CHOICE (log entry 8):
R97 shows one offset, inside a buffer, and sets no bound; here any number may follow any name, so that `STATUS+5` and
`OUT+64` are read too, and `AsmLine.fits` alone bounds the sum, at 0xFFF. -/
def parseAddr (cs : List Char) : Option Nat :=
  let name := cs.takeWhile (· != '+')
  match cs.dropWhile (· != '+') with
  | [] => if (parseNumber cs).isSome then parseNumber cs else regNames.lookup name
  | _ :: off => do
    let a ← regNames.lookup name
    let d ← parseNumber off
    some (a + d)

/-- A byte: a number 0x00 to 0xFF or a character literal (R97). -/
def parseByte : List Char → Option Byte
  | ['\'', c, '\''] => charCode c
  | cs => do
    let v ← parseNumber cs
    if v < 256 then some (BitVec.ofNat 8 v) else none

/-- Leading blanks dropped. -/
def skipBlanks (cs : List Char) : List Char := cs.dropWhile (· == ' ')

/-- Nothing but blanks and a comment, which begins with `;` (R97). -/
def restIsComment (cs : List Char) : Bool :=
  match skipBlanks cs with
  | [] => true
  | c :: _ => c == ';'

/-- One operand and what follows it; a character literal is read whole, so that it may hold any character. -/
def takeOperand (cs : List Char) : List Char × List Char :=
  match skipBlanks cs with
  | '\'' :: c :: '\'' :: rest => (['\'', c, '\''], rest)
  | ds => ds.span (fun c => c != ' ' && c != ',' && c != ';')

/-- One operand and then only a comment. -/
def oneOperand (cs : List Char) : Option (List Char) :=
  let (a, rest) := takeOperand cs
  if restIsComment rest then some a else none

/-- Two operands with a comma between, and then only a comment. -/
def twoOperands (cs : List Char) : Option (List Char × List Char) :=
  let (a, rest) := takeOperand cs
  match skipBlanks rest with
  | ',' :: more => do
    let b ← oneOperand more
    some (a, b)
  | _ => none

/-- The text of a double-quoted literal, and then only a comment. -/
def quotedText (cs : List Char) : Option (List Byte) :=
  match skipBlanks cs with
  | '\"' :: ds =>
    match ds.span (· != '\"') with
    | (text, _ :: rest) => if restIsComment rest then text.mapM charCode else none
    | (_, []) => none
  | _ => none

/-- One nonempty line (R97, R98): its first word selects the form. -/
def parseForm (cs : List Char) : Option AsmLine :=
  let (word, rest) := (skipBlanks cs).span (fun c => c != ' ' && c != ';')
  if word = "WR".toList then do
    let (a, b) ← twoOperands rest
    some (.wr (← parseAddr a) (← parseByte b))
  else if word = "RD".toList then do
    some (.rd (← parseAddr (← oneOperand rest)))
  else if word = "CMD".toList then do
    some (.cmd (← commandOf (← oneOperand rest)))
  else if word = "MSGSET".toList then do
    some (.msgset (← quotedText rest))
  else if word = "RDW".toList then do
    some (.rdw (← parseAddr (← oneOperand rest)))
  else if word = "RDN".toList then do
    let (a, n) ← twoOperands rest
    some (.rdn (← parseAddr a) (← parseNumber n))
  else none

/-- The words a line of text assembles to: none at all for a blank or comment line, `none` for a line the assembler
refuses. -/
def assembleLine (cs : List Char) : Option (List Word) :=
  if restIsComment cs then some []
  else
    match parseForm cs with
    | some l => if l.fits then some (l.expand.map encode) else none
    | none => none

/-- A whole host program (R278); one refused line refuses it. -/
def assemble (lines : List (List Char)) : Option (List Word) := do
  let ws ← lines.mapM assembleLine
  some ws.flatten

end Sys2Proof.Machine
end

