-- ==== Sys2Proof/Safety.lean ====
section
/-! DEFINITION. The terms claims are stated in: what a safe run is, the invariants of 10_state.md R41, the result groups
of 40_control.md R111 as frames, occurrences of a pattern in a bit string (42_v2_decoder.md R150), and what a decode
leaves. Nothing here is used by the step. -/

namespace Sys2Proof.Machine

/-! ## Runs -/

/-- The state an outcome goes on in. -/
def nextOf (o : Host.Outcome State Fault Refusal) : Option State :=
  match o with
  | .next t => some t
  | .fault _ => none
  | .refused _ => none

/-- A step is safe when it goes on. -/
def SafeStep (s : State) : Prop := ∃ t, step s = .next t

/-- A BUS24 word that spells no transaction (30_encoding.md R96). -/
def NoTransaction (w : BusWord) : Prop :=
  (w.toNat / 2 ^ 20) % 8 ≠ 0 ∨ (w.toNat / 2 ^ 23 = 0 ∧ w.toNat % 256 ≠ 0)

/-! ## Frames (R111) -/

/-- The host's program and observation are unchanged. -/
abbrev SameHost (s t : State) : Prop := t.pending = s.pending ∧ t.reads = s.reads

/-- MSG and MSG_LEN are unchanged. -/
abbrev SameInputs (b c : Block) : Prop := c.msg = b.msg ∧ c.msgLen = b.msgLen

/-- Group HEX is unchanged. -/
abbrev SameHex (b c : Block) : Prop := c.bits = b.bits ∧ c.bitLen = b.bitLen

/-- Group DEC is unchanged. -/
abbrev SameDec (b c : Block) : Prop :=
  c.out = b.out ∧ c.outLen = b.outLen ∧ c.status.v2pre = b.status.v2pre ∧ c.status.v3pre = b.status.v3pre ∧
    c.status.path = b.status.path ∧ c.v2Idx = b.v2Idx ∧ c.v3PreIdx = b.v3PreIdx ∧ c.v3DatIdx = b.v3DatIdx

/-- Group PAYG is unchanged. -/
abbrev SamePay (b c : Block) : Prop := c.pay = b.pay ∧ c.payLen = b.payLen

/-- Group CS is unchanged. -/
abbrev SameCs (b c : Block) : Prop :=
  c.status.csok = b.status.csok ∧ c.csCalc = b.csCalc ∧ c.csRef = b.csRef

/-- Group STAT is unchanged. -/
abbrev SameStat (b c : Block) : Prop :=
  c.status.ok = b.status.ok ∧ c.status.err = b.status.err ∧ c.errCode = b.errCode

/-! ## Outcomes -/

/-- Group STAT as `finish(c)` leaves it (R112). -/
abbrev EndedWith (b : Block) (c : ErrCode) : Prop :=
  b.errCode = c.code ∧ b.status.ok = decide (c = .none) ∧ b.status.err = decide (c ≠ .none)

/-- Group HEX cleared (R111). -/
abbrev HexCleared (b : Block) : Prop := (∀ i, b.bit i = false) ∧ b.bitLen = 0

/-- OUT, OUT_LEN and PATH as a failed decode leaves them (R115). -/
abbrev NoOutput (b : Block) : Prop := (∀ k, b.out.read k = 0) ∧ b.outLen = 0 ∧ b.status.path = 0

/-- The V2 fields when the last decode found no V2 preamble (10_state.md R34). -/
abbrev NoV2 (b : Block) : Prop := b.status.v2pre = false ∧ b.v2Idx = 0

/-- The V3 fields when the last decode found no V3 preamble (R34). -/
abbrev NoV3 (b : Block) : Prop := b.status.v3pre = false ∧ b.v3PreIdx = 0 ∧ b.v3DatIdx = 0

/-- The V2 fields when the V2 preamble was found at `i` (R34). -/
abbrev FoundV2 (b : Block) (i : Nat) : Prop := b.status.v2pre = true ∧ b.v2Idx.toNat = i

/-- The V3 fields when the V3 preamble was found at `p` and the marker at `d` (R34). -/
abbrev FoundV3 (b : Block) (p d : Nat) : Prop :=
  b.status.v3pre = true ∧ b.v3PreIdx.toNat = p ∧ b.v3DatIdx.toNat = d

/-- Group PAYG cleared (R111). -/
abbrev PayCleared (b : Block) : Prop := (∀ k, b.pay.read k = 0) ∧ b.payLen = 0

/-- Group CS cleared (R111). -/
abbrev CsCleared (b : Block) : Prop := b.status.csok = false ∧ b.csCalc = 0 ∧ b.csRef = 0

/-! ## Patterns (R150) -/

/-- `p` lies at index `i`, wholly inside the first `n` bits of `s`. -/
def OccursAt (s : BitString) (n : Nat) (p : List Bool) (i : Nat) : Prop :=
  i + p.length ≤ n ∧ ∀ j, j < p.length → s.getD (i + j) false = p.getD j false

/-- `i` is the least index at which `p` lies. -/
def FirstAt (s : BitString) (n : Nat) (p : List Bool) (i : Nat) : Prop :=
  OccursAt s n p i ∧ ∀ i', i' < i → ¬ OccursAt s n p i'

/-- `p` lies nowhere in the first `n` bits. -/
def Absent (s : BitString) (n : Nat) (p : List Bool) : Prop := ∀ i, ¬ OccursAt s n p i

/-! ## What a successful decode leaves (R152, R153, R173) -/

/-- OUT holds a V2 result of `K` bytes decoded from index `i` of BITS. -/
def V2Output (b : Block) (i K : Nat) : Prop :=
  b.status.path = 0b01 ∧ b.outLen.toNat = K + 1 ∧ (b.out.read 0).toNat = 8 * K ∧
    (∀ k j, k < K → j < 8 → (b.out.read (k + 1)).getLsbD j = b.bit (i + 16 * k + 2 * j + 1)) ∧
    ∀ k, K + 1 ≤ k → b.out.read k = 0

/-- OUT holds a V3 result of `K` bytes decoded from index `d` of BITS. -/
def V3Output (b : Block) (d K : Nat) : Prop :=
  b.status.path = 0b10 ∧ b.outLen.toNat = K + 1 ∧ (b.out.read 0).toNat = 8 * K ∧
    (∀ k j, k < K → j < 8 → (b.out.read (k + 1)).getLsbD j = b.bit (d + 8 * k + j)) ∧
    ∀ k, K + 1 ≤ k → b.out.read k = 0

/-- The whole-chunk count of a V2 decode from `i` (R153). -/
abbrev v2Count (b : Block) (i : Nat) : Nat := (b.bitLen.toNat - i) / 16

/-- The whole-chunk count of a V3 decode from `d` (R173). -/
abbrev v3Count (b : Block) (d : Nat) : Nat := (b.bitLen.toNat - d) / 8

/-- BITS holds the `count` hex characters from `start` of MSG, most significant bit first, and nothing else (R132). -/
def HoldsHex (b : Block) (start count : Nat) : Prop :=
  b.bitLen.toNat = 4 * count ∧
    (∀ i j, i < count → j < 4 → b.bit (4 * i + j) = (hexvalOf (b.msg.read (start + i))).testBit (3 - j)) ∧
    ∀ i, 4 * count ≤ i → b.bit i = false

/-- Every one of the `count` characters from `start` of MSG is a hex digit. -/
def AllHex (b : Block) (start count : Nat) : Prop :=
  ∀ i, i < count → (hexval (b.msg.read (start + i))).isSome = true

/-- The outcome of a V2 attempt on the BITS of `b`, as the DEC group of `b` shows it (R153). -/
inductive V2Outcome (b : Block) : ErrCode → Prop where
  | absent : Absent b.bits b.bitLen.toNat Config.v2Preamble → NoV2 b → V2Outcome b .unrecognizedProtocol
  | empty (i : Nat) : FirstAt b.bits b.bitLen.toNat Config.v2Preamble i → b.bitLen.toNat - i < 16 → FoundV2 b i →
      V2Outcome b .emptyDecode
  | tooLong (i : Nat) : FirstAt b.bits b.bitLen.toNat Config.v2Preamble i → 512 ≤ b.bitLen.toNat - i → FoundV2 b i →
      V2Outcome b .payloadTooLong
  | decoded (i : Nat) : FirstAt b.bits b.bitLen.toNat Config.v2Preamble i → 16 ≤ b.bitLen.toNat - i →
      b.bitLen.toNat - i < 512 → FoundV2 b i → V2Output b i (v2Count b i) → V2Outcome b .none

/-- The outcome of a V3 attempt on the BITS of `b`, as the DEC group of `b` shows it (R173). -/
inductive V3Outcome (b : Block) : ErrCode → Prop where
  | absent : Absent b.bits b.bitLen.toNat Config.v3Preamble → NoV3 b → V3Outcome b .unrecognizedProtocol
  | empty (p d : Nat) : FirstAt b.bits b.bitLen.toNat Config.v3Preamble p →
      FirstAt b.bits b.bitLen.toNat Config.v3Marker d → b.bitLen.toNat - d < 8 → FoundV3 b p d →
      V3Outcome b .emptyDecode
  | tooLong (p d : Nat) : FirstAt b.bits b.bitLen.toNat Config.v3Preamble p →
      FirstAt b.bits b.bitLen.toNat Config.v3Marker d → 256 ≤ b.bitLen.toNat - d → FoundV3 b p d →
      V3Outcome b .payloadTooLong
  | decoded (p d : Nat) : FirstAt b.bits b.bitLen.toNat Config.v3Preamble p →
      FirstAt b.bits b.bitLen.toNat Config.v3Marker d → 8 ≤ b.bitLen.toNat - d → b.bitLen.toNat - d < 256 →
      FoundV3 b p d → V3Output b d (v3Count b d) → V3Outcome b .none

/-- The end of PRE once its characters are converted, as the DEC and STAT groups of `b` show it (44_preprocessor.md R191
from `r2` on, R192 to R194). -/
inductive PreOutcome (b : Block) : Prop where
  | v2 : V2Outcome b .none → NoV3 b → EndedWith b .none → PreOutcome b
  | v2TooLong : V2Outcome b .payloadTooLong → NoV3 b → NoOutput b → EndedWith b .payloadTooLong → PreOutcome b
  | v3 (c2 : ErrCode) : V2Outcome b c2 → (c2 = .unrecognizedProtocol ∨ c2 = .emptyDecode) → V3Outcome b .none →
      EndedWith b .none → PreOutcome b
  | v3TooLong (c2 : ErrCode) : V2Outcome b c2 → (c2 = .unrecognizedProtocol ∨ c2 = .emptyDecode) →
      V3Outcome b .payloadTooLong → NoOutput b → EndedWith b .payloadTooLong → PreOutcome b
  | bothEmpty (c2 c3 : ErrCode) : V2Outcome b c2 → V3Outcome b c3 →
      (c2 = .unrecognizedProtocol ∨ c2 = .emptyDecode) → (c3 = .unrecognizedProtocol ∨ c3 = .emptyDecode) →
      (c2 = .emptyDecode ∨ c3 = .emptyDecode) → NoOutput b → EndedWith b .emptyDecode → PreOutcome b
  | neither : V2Outcome b .unrecognizedProtocol → V3Outcome b .unrecognizedProtocol → NoOutput b →
      EndedWith b .unrecognizedProtocol → PreOutcome b

/-! ## Checksums (45_checksum.md R218) -/

/-- Both nibbles of the first `n` payload bytes, summed; `payload[i]` is `PAY[i+1]` (00_scope.md R12). -/
def nibbleTotal (b : Block) (n : Nat) : Nat :=
  ∑ i ∈ Finset.range n, ((b.pay.read (i + 1)).toNat / 16 + (b.pay.read (i + 1)).toNat % 16)

/-- Group CS and STAT after a comparison of the sum `ns` with the byte `ref` (R218): the bias 0xA is 10, and subtracting it
modulo 256 is adding 246. -/
def Compared (b : Block) (ns : Nat) (ref : Nat) : Prop :=
  b.csCalc.toNat = (ns + 246) % 256 ∧ b.csRef.toNat = ref ∧
    ((ns + 246) % 256 = ref → b.status.csok = true ∧ EndedWith b .none) ∧
    ((ns + 246) % 256 ≠ ref → b.status.csok = false ∧ EndedWith b .checksumMismatch)

/-! ## What a command may write and how it may end (R111, 60_exceptions.md R241) -/

/-- The addresses whose content a command may change: CMD, and the locations of the groups R111 lists for it. -/
def writesAddr (c : Command) (a : Nat) : Bool :=
  let stat := a == 0x001 || a == 0x002
  let hex := a == 0x006 || a == 0x007 || (decide (0x200 ≤ a) && decide (a ≤ 0x27F))
  let dec := a == 0x001 || a == 0x008 || (decide (0x00C ≤ a) && decide (a ≤ 0x011)) || a == 0x015 ||
    (decide (0x300 ≤ a) && decide (a ≤ 0x31F)) || (decide (0x340 ≤ a) && decide (a ≤ 0x37F))
  let payg := a == 0x009 || (decide (0x012 ≤ a) && decide (a ≤ 0x014)) || (decide (0x320 ≤ a) && decide (a ≤ 0x33F))
  let cs := a == 0x001 || a == 0x00A || a == 0x00B
  a == 0x000 ||
    match c with
    | .nop => false
    | .pre => stat || hex || dec
    | .h2b => stat || hex
    | .v2d => stat || dec
    | .v3d => stat || dec
    | .ldp => stat || payg || cs
    | .ldo => stat || payg || cs
    | .ck1 => stat || cs
    | .ck2 => stat || cs
    | .ck4 => stat || cs
    | .ck5 => stat || cs

/-- The codes a command may end with (the column "raised by" of R241, with `NONE`); NOP ends with none. -/
def mayEndWith : Command → List ErrCode
  | .nop => []
  | .pre => [.none, .inputTooLong, .invalidFraming, .invalidHex, .unrecognizedProtocol, .emptyDecode, .payloadTooLong]
  | .h2b => [.none, .inputTooLong, .invalidHex]
  | .v2d => [.none, .unrecognizedProtocol, .emptyDecode, .payloadTooLong]
  | .v3d => [.none, .unrecognizedProtocol, .emptyDecode, .payloadTooLong]
  | .ldp => [.none, .inputTooLong, .invalidHex, .payloadTooLong, .truncatedMessage]
  | .ldo => [.none, .truncatedMessage]
  | .ck1 => [.none, .checksumRange, .checksumMismatch]
  | .ck2 => [.none, .checksumRange, .checksumMismatch]
  | .ck4 => [.none, .checksumRange, .checksumMismatch]
  | .ck5 => [.none, .checksumRange, .checksumMismatch]

/-! ## Invariants (R41) -/

/-- The codes R241 lets a command write: every name but the two reserved for host software. -/
def writableCode (c : ErrCode) : Bool := c != .unknownSensor && c != .unimplementedDecoder

/-- R41, with the reserved values of R23 and R241 and the canonical form of the buffers. The history of (d), "some non-NOP
command has run", is said in the state: while neither OK nor ERR is set every result group is at its reset value (R23). -/
structure Block.Inv (b : Block) : Prop where
  bitLen_cap : b.bitLen.toNat ≤ Config.bitCap
  bitLen_mod : b.bitLen.toNat % 4 = 0
  bits_len : b.bits.length = b.bitLen.toNat
  bits_tail : ∀ i, b.bitLen.toNat ≤ i → b.bit i = false
  outLen_legal : b.outLen.toNat = 0 ∨ (2 ≤ b.outLen.toNat ∧ b.outLen.toNat ≤ 32)
  out_tail : ∀ k, b.outLen.toNat ≤ k → b.out.read k = 0
  out_path : b.outLen = 0 ↔ b.status.path = 0b00
  out_head : b.outLen ≠ 0 → (b.out.read 0).toNat = 8 * (b.outLen.toNat - 1)
  path_legal : b.status.path ≠ 0b11
  payLen_legal : b.payLen.toNat = 0 ∨ (3 ≤ b.payLen.toNat ∧ b.payLen.toNat ≤ 32)
  pay_tail : ∀ k, b.payLen.toNat ≤ k → b.pay.read k = 0
  not_both : ¬ (b.status.ok = true ∧ b.status.err = true)
  ok_code : b.status.ok = true → b.errCode = 0
  err_code : b.status.err = true ↔ b.errCode ≠ 0
  fresh : b.status.ok = false → b.status.err = false →
    b = { Block.reset with cmd := b.cmd, msg := b.msg, msgLen := b.msgLen }
  code_legal : ∃ c, writableCode c = true ∧ b.errCode = c.code
  csok_equal : b.status.csok = true → b.csCalc = b.csRef
  v3_fields : b.status.v3pre = false → b.v3PreIdx = 0 ∧ b.v3DatIdx = 0
  v2_fields : b.status.v2pre = false → b.v2Idx = 0
  msg_form : b.msg.wf = true ∧ b.msg.within Config.msgCap = true
  out_form : b.out.wf = true ∧ b.out.within Config.outCap = true
  pay_form : b.pay.wf = true ∧ b.pay.within Config.payCap = true

end Sys2Proof.Machine
end

