-- ==== Sys2Proof/Certificates/Slice0/Obligations.lean ====
section
/-! DEFINITION. The statements for the provers. Each says which rule of spec/ it formalises. -/

open Sys2Proof Sys2Proof.Machine

/-! ## Reset -/

/-- R40: right after reset every register, buffer element and view is 0. -/
def Obligations.ResetValues : Prop :=
  let b := State.reset.block
  b.cmd = 0 ∧ b.status.toByte = 0 ∧ b.errCode = 0 ∧ (∀ i, b.msg.read i = 0) ∧ b.msgLen = 0 ∧
    (∀ i, b.bit i = false) ∧ b.bitLen = 0 ∧ (∀ k, b.out.read k = 0) ∧ b.outLen = 0 ∧ (∀ k, b.pay.read k = 0) ∧
    b.payLen = 0 ∧ b.csCalc = 0 ∧ b.csRef = 0 ∧ b.v2Idx = 0 ∧ b.v3PreIdx = 0 ∧ b.v3DatIdx = 0 ∧
    (∀ k, b.bitbuf k = 0) ∧ (∀ k, b.outhex k = 0) ∧ b.outhexLen = 0 ∧ b.typeId = 0 ∧ b.declLen = 0

/-- R270, with the model's choice of log entry 2 (the reset input is an event of the host's list): the reset input leaves
the block as it is right after reset, the rest of the list to run and the observation. -/
def Obligations.ResetClearsTheBlock : Prop :=
  ∀ (s : State) (rest : List HostEvent), s.pending = .reset :: rest →
    ∃ t, step s = .next t ∧ t.block = State.reset.block ∧ t.pending = rest ∧ t.reads = s.reads

/-- R40, R62, R65: after reset every address reads 0x00. -/
def Obligations.ResetReadsZeroEverywhere : Prop := ∀ a, State.reset.block.busRead a = 0

/-- R41: the invariants hold right after reset. -/
def Obligations.ResetMeetsInvariants : Prop := State.reset.block.Inv

/-! ## Invariants of every step -/

/-- R41: "These hold in every reachable state, from reset onward": every step keeps them, whatever the host does. -/
def Obligations.StepKeepsInvariants : Prop :=
  ∀ s t : State, s.block.Inv → step s = .next t → t.block.Inv

/-- R155, R175: `lo(OUT[1]) = 0xA` whenever OUT holds a result; every step keeps it. -/
def Obligations.StepKeepsDecodedLowNibble : Prop :=
  ∀ s t : State, (s.block.outLen ≠ 0 → (s.block.out.read 1).toNat % 16 = 0xA) → step s = .next t →
    (t.block.outLen ≠ 0 → (t.block.out.read 1).toNat % 16 = 0xA)

/-! ## Encoding -/

/-- R92, R96, R97: decoding what the encoder spells gives the instruction back, with every operand the encoding admits. -/
def Obligations.DecodeOfEncode : Prop := ∀ i : Instr, i.WellFormed → decode (encode i) = .ok i

/-- R92, R96: each word that decodes is the one encoding of its instruction, which is well formed. -/
def Obligations.EncodeOfDecode : Prop :=
  ∀ (w : Word) (i : Instr), decode w = .ok i → encode i = w ∧ i.WellFormed

/-- R92, R96, P3 and P1 of 95_test_vectors.md: words written out from the spec's tables decode to their instructions. -/
def Obligations.SpecWordsDecode : Prop :=
  decode (.cmd8 0b00000000) = .ok .nop ∧ decode (.cmd8 0b00000001) = .ok .pre ∧
  decode (.cmd8 0b00000010) = .ok .h2b ∧ decode (.cmd8 0b00000011) = .ok .v2d ∧
  decode (.cmd8 0b00000100) = .ok .v3d ∧ decode (.cmd8 0b00001000) = .ok .ldp ∧
  decode (.cmd8 0b00010101) = .ok .ck5 ∧
  decode (.bus24 0b100000010000000001101111) = .ok (.wr 0x100 0x6F) ∧
  decode (.bus24 0b000000110000100100000000) = .ok (.rd 0x309)

/-- R93, R92, R95: a code decodes to no command exactly when it is one of the reserved codes, and every command has the
code of R92. -/
def Obligations.ReservedCodesSelectNoCommand : Prop :=
  (∀ op : Byte, decodeCommand op = none ↔
    ((0x05 ≤ op.toNat ∧ op.toNat ≤ 0x07) ∨ (0x0A ≤ op.toNat ∧ op.toNat ≤ 0x10) ∨ op.toNat = 0x13 ∨
      (0x16 ≤ op.toNat ∧ op.toNat ≤ 0xFF))) ∧
  decodeCommand 0x00 = some .nop ∧ decodeCommand 0x01 = some .pre ∧ decodeCommand 0x02 = some .h2b ∧
  decodeCommand 0x03 = some .v2d ∧ decodeCommand 0x04 = some .v3d ∧ decodeCommand 0x08 = some .ldp ∧
  decodeCommand 0x09 = some .ldo ∧ decodeCommand 0x11 = some .ck1 ∧ decodeCommand 0x12 = some .ck2 ∧
  decodeCommand 0x14 = some .ck4 ∧ decodeCommand 0x15 = some .ck5

/-- R96: a word whose bits 22:20 are not all 0, or a read word with data, spells no transaction; every other word is the
write or the read of its fields, numbered as R96 numbers them. -/
def Obligations.BusWordsSpellTransactions : Prop :=
  ∀ w : BusWord,
    (NoTransaction w → ∀ i, decode (.bus24 w) ≠ .ok i) ∧
    (¬ NoTransaction w → decode (.bus24 w) =
      .ok (if w.toNat / 2 ^ 23 = 1 then .wr (w.toNat / 2 ^ 8 % 2 ^ 12) (BitVec.ofNat 8 (w.toNat % 2 ^ 8))
        else .rd (w.toNat / 2 ^ 8 % 2 ^ 12)))

/-- R90, R96: an instruction's table word decodes to it, and placed before the host program it is what the next step
runs. -/
def Obligations.PlacedWordRunsItsInstruction : Prop :=
  ∀ (i : Instr) (s : State), i.WellFormed →
    decodeTableWord (encodeTableWord i).1 (encodeTableWord i).2 = some i ∧
      step (s.withFetchWord (encodeTableWord i).1 (encodeTableWord i).2) = exec i s

/-! ## The step -/

/-- R277, R91, with the host program held in the state (log entry 2): when the host's next word decodes to an
instruction, the step is its execution, the rest of the host program left to run; when it is a reserved command code, the
step is the write of that code to CMD. -/
def Obligations.StepExecutesDecodedWord : Prop :=
  (∀ (s : State) (w : Word) (rest : List HostEvent) (i : Instr), s.pending = .access w :: rest → decode w = .ok i →
    step s = exec i { s with pending := rest }) ∧
  ∀ (s : State) (op : Byte) (rest : List HostEvent), s.pending = .access (.cmd8 op) :: rest →
    decodeCommand op = none → step s = exec (.wr 0x000 op) { s with pending := rest }

/-- R114: a reserved code written to CMD ends with `ILLEGAL_COMMAND`; CMD reads it back, and every other group is
unchanged. -/
def Obligations.ReservedCommandIsIllegal : Prop :=
  ∀ (s : State) (op : Byte), decodeCommand op = none →
    ∃ t, exec (.wr 0x000 op) s = .next t ∧ SameHost s t ∧ t.block.cmd = op ∧
      EndedWith t.block .illegalCommand ∧ t.block.errCode = 0x13 ∧
      t.block.status.toByte = (s.block.status.toByte &&& 0xFC) ||| 0x02 ∧
      SameInputs s.block t.block ∧ SameHex s.block t.block ∧ SameDec s.block t.block ∧ SamePay s.block t.block ∧
      SameCs s.block t.block

/-- R277, R278, and the model's choices of log entries 2 and 5: the machine never faults; it refuses exactly a word that
spells no transaction; after the last transaction nothing changes. -/
def Obligations.StepStopsOnlyAtNoTransaction : Prop :=
  ∀ s : State,
    (∀ f, step s ≠ .fault f) ∧
    (∀ r, step s = .refused r ↔
      ∃ w rest, s.pending = .access (.bus24 w) :: rest ∧ NoTransaction w ∧ r = .noTransaction w) ∧
    (s.pending = [] → step s = .next s)

/-- R110, R277: every instruction completes in every state. -/
def Obligations.EveryInstructionCompletes : Prop := ∀ (i : Instr) (s : State), ∃ t, exec i s = .next t

/-! ## The bus -/

/-- R63, R61: what a write does at each address, taken modulo 4096. At CMD it performs the command of the byte, or ends
with `ILLEGAL_COMMAND`; at MSG_LEN it replaces one byte; at MSG it stores the character; elsewhere nothing changes. -/
def Obligations.WriteFollowsTheMap : Prop :=
  ∀ (addr : Nat) (v : Byte) (s : State),
    (addr % 4096 = 0x000 → ∀ c : Command, v = c.op → exec (.wr addr v) s = exec c.toInstr s) ∧
    (addr % 4096 = 0x000 → decodeCommand v = none → ∃ t, exec (.wr addr v) s = .next t ∧ SameHost s t ∧
      t.block.cmd = v ∧ EndedWith t.block .illegalCommand ∧ SameInputs s.block t.block ∧ SameHex s.block t.block ∧
      SameDec s.block t.block ∧ SamePay s.block t.block ∧ SameCs s.block t.block) ∧
    (addr % 4096 = 0x004 → ∃ n : Half, exec (.wr addr v) s = .next { s with block := { s.block with msgLen := n } } ∧
      n.toNat = s.block.msgLen.toNat / 256 * 256 + v.toNat) ∧
    (addr % 4096 = 0x005 → ∃ n : Half, exec (.wr addr v) s = .next { s with block := { s.block with msgLen := n } } ∧
      n.toNat = v.toNat * 256 + s.block.msgLen.toNat % 256) ∧
    (0x100 ≤ addr % 4096 → addr % 4096 ≤ 0x1FF → ∃ m : Memory,
      exec (.wr addr v) s = .next { s with block := { s.block with msg := m } } ∧
      m.read (addr % 4096 - 0x100) = v ∧ ∀ i, i ≠ addr % 4096 - 0x100 → m.read i = s.block.msg.read i) ∧
    (addr % 4096 ≠ 0x000 → addr % 4096 ≠ 0x004 → addr % 4096 ≠ 0x005 →
      ¬ (0x100 ≤ addr % 4096 ∧ addr % 4096 ≤ 0x1FF) → exec (.wr addr v) s = .next s)

/-- R63, R64: a write to MSG_LEN or MSG reads back at its address and leaves every other address as it was. -/
def Obligations.WriteReadsBackAlone : Prop :=
  ∀ (addr : Nat) (v : Byte) (s : State),
    (addr % 4096 = 0x004 ∨ addr % 4096 = 0x005 ∨ (0x100 ≤ addr % 4096 ∧ addr % 4096 ≤ 0x1FF)) →
    ∃ t, exec (.wr addr v) s = .next t ∧ t.block.busRead addr = v ∧
      ∀ a, a % 4096 ≠ addr % 4096 → t.block.busRead a = s.block.busRead a

/-- R66: a write to an RO or V address changes no state and raises no error. -/
def Obligations.ReadOnlyWritesAreIgnored : Prop :=
  ∀ (addr : Nat) (v : Byte) (s : State),
    ((0x001 ≤ addr % 4096 ∧ addr % 4096 ≤ 0x002) ∨ (0x006 ≤ addr % 4096 ∧ addr % 4096 ≤ 0x015) ∨
      (0x200 ≤ addr % 4096 ∧ addr % 4096 ≤ 0x27F) ∨ (0x300 ≤ addr % 4096 ∧ addr % 4096 ≤ 0x37F)) →
    exec (.wr addr v) s = .next s

/-- R65: a reserved address reads 0x00 and a write to it changes no state; STATUS bit 7 reads 0. -/
def Obligations.ReservedAddressesAreInert : Prop :=
  ∀ (addr : Nat) (s : State),
    (addr % 4096 = 0x003 ∨ (0x016 ≤ addr % 4096 ∧ addr % 4096 ≤ 0x0FF) ∨
      (0x280 ≤ addr % 4096 ∧ addr % 4096 ≤ 0x2FF) ∨ 0x380 ≤ addr % 4096) →
    s.block.busRead addr = 0 ∧ (∀ v, exec (.wr addr v) s = .next s) ∧ (s.block.busRead 0x001).getLsbD 7 = false

/-- R62, R61: a read returns the byte at the address taken modulo 4096 and changes no state of the block. -/
def Obligations.ReadChangesNothing : Prop :=
  ∀ (addr : Nat) (s : State), exec (.rd addr) s =
    .next { block := s.block, pending := s.pending, reads := s.reads ++ [s.block.busRead (addr % 4096)] }

/-- R64, R67: what each address holds. -/
def Obligations.AddressMapHoldsTheRegisters : Prop :=
  ∀ b : Block,
    b.busRead 0x000 = b.cmd ∧ b.busRead 0x001 = b.status.toByte ∧ b.busRead 0x002 = b.errCode ∧
    b.msgLen.toNat = (b.busRead 0x005).toNat * 256 + (b.busRead 0x004).toNat ∧
    b.bitLen.toNat = (b.busRead 0x007).toNat * 256 + (b.busRead 0x006).toNat ∧
    b.busRead 0x008 = b.outLen ∧ b.busRead 0x009 = b.payLen ∧ b.busRead 0x00A = b.csCalc ∧
    b.busRead 0x00B = b.csRef ∧
    b.v2Idx.toNat = (b.busRead 0x00D).toNat * 256 + (b.busRead 0x00C).toNat ∧
    b.v3PreIdx.toNat = (b.busRead 0x00F).toNat * 256 + (b.busRead 0x00E).toNat ∧
    b.v3DatIdx.toNat = (b.busRead 0x011).toNat * 256 + (b.busRead 0x010).toNat ∧
    b.busRead 0x012 = b.pay.read 1 ∧ b.busRead 0x013 = b.pay.read 2 ∧ b.busRead 0x014 = b.pay.read 0 ∧
    (b.busRead 0x015).toNat = 2 * b.outLen.toNat % 256 ∧
    (∀ i, i < 256 → b.busRead (0x100 + i) = b.msg.read i) ∧
    (∀ k, k < 32 → b.busRead (0x300 + k) = b.out.read k) ∧
    (∀ k, k < 32 → b.busRead (0x320 + k) = b.pay.read k)

/-- R23: the fields of the STATUS byte. -/
def Obligations.StatusByteLayout : Prop :=
  ∀ b : Block,
    let v := b.busRead 0x001
    v.getLsbD 0 = b.status.ok ∧ v.getLsbD 1 = b.status.err ∧ v.getLsbD 2 = b.status.v2pre ∧
    v.getLsbD 3 = b.status.v3pre ∧ v.extractLsb' 4 2 = b.status.path ∧ v.getLsbD 6 = b.status.csok ∧
    v.getLsbD 7 = false

/-- R35: BITS index `8k` is bit 7 of byte `k` of BITBUF, which reads as the number of its eight bits and takes no
write. -/
def Obligations.BitbufPacksBits : Prop :=
  ∀ (s : State) (k : Nat), k < 128 →
    (∀ j, j < 8 → (s.block.busRead (0x200 + k)).getLsbD (7 - j) = s.block.bit (8 * k + j)) ∧
    (s.block.busRead (0x200 + k)).toNat = num ((List.range 8).map (fun j => s.block.bit (8 * k + j))) ∧
    ∀ v, exec (.wr (0x200 + k) v) s = .next s

/-- R36: OUTHEX renders OUT in upper-case hex, high nibble first, and is 0x00 past `2 · OUT_LEN`, which OUTHEX_LEN reads
(in its 8 bits); neither takes a write. -/
def Obligations.OuthexRendersOut : Prop :=
  ∀ s : State, (∀ v, exec (.wr 0x015 v) s = .next s) ∧ (∀ k v, k < 64 → exec (.wr (0x340 + k) v) s = .next s) ∧
    let b := s.block
    (b.busRead 0x015).toNat = 2 * b.outLen.toNat % 256 ∧ ∀ (k : Nat), k < 64 →
    let v := if k % 2 = 0 then (b.out.read (k / 2)).toNat / 16 else (b.out.read (k / 2)).toNat % 16
    (b.busRead (0x340 + k)).toNat =
      if k < 2 * b.outLen.toNat then (if v < 10 then 0x30 + v else 0x41 + (v - 10)) else 0

/-! ## Conversions -/

/-- R131: the value of each hex digit character, upper and lower case alike; every other code is INVALID. -/
def Obligations.HexDigitValues : Prop :=
  (∀ v, v < 10 → hexval (BitVec.ofNat 8 (0x30 + v)) = some v) ∧
  (∀ v, v < 6 → hexval (BitVec.ofNat 8 (0x41 + v)) = some (10 + v)) ∧
  (∀ v, v < 6 → hexval (BitVec.ofNat 8 (0x61 + v)) = some (10 + v)) ∧
  ∀ c : Byte, (c.toNat < 0x30 ∨ (0x39 < c.toNat ∧ c.toNat < 0x41) ∨ (0x46 < c.toNat ∧ c.toNat < 0x61) ∨
    0x66 < c.toNat) → hexval c = none

/-- R150: the locator gives the least index at which the pattern lies wholly inside the first `n` bits, or none where it
lies nowhere there; more bits behind a match do not move it. -/
def Obligations.LocatorFindsLeastIndex : Prop :=
  ∀ (s : BitString) (n : Nat) (p : List Bool),
    ((∃ i, first s n p = some i ∧ i + p.length ≤ n ∧
        (∀ j, j < p.length → s.getD (i + j) false = p.getD j false) ∧
        (∀ i', i' < i → ∃ j, j < p.length ∧ s.getD (i' + j) false ≠ p.getD j false) ∧
        ∀ m, n ≤ m → first s m p = some i) ∨
      (first s n p = none ∧
        ∀ i, i + p.length ≤ n → ∃ j, j < p.length ∧ s.getD (i + j) false ≠ p.getD j false))

/-- R151, R171: bit `j` of a V2 byte is chunk bit `2j + 1`; bit `j` of a V3 byte is chunk bit `j`, which is the reversal of
the chunk's number; reversal moves bit `j` to bit `7 - j`. -/
def Obligations.ChunkBytesSelectBits : Prop :=
  (∀ (x : Byte) (j : Nat), j < 8 → (rev8 x).getLsbD (7 - j) = x.getLsbD j) ∧
  ∀ (s : BitString) (c : Nat),
    (∀ j, j < 8 → (v2Byte s c).getLsbD j = s.getD (c + 2 * j + 1) false) ∧
    (∀ j, j < 8 → (v3Byte s c).getLsbD j = s.getD (c + j) false) ∧
    v3Byte s c = rev8 (BitVec.ofNat 8 (num ((List.range 8).map (fun j => s.getD (c + j) false))))

/-- R175: reversing the bit order of a byte twice is the identity. -/
def Obligations.ReversalIsAnInvolution : Prop := ∀ x : Byte, rev8 (rev8 x) = x

/-! ## The commands, each in every state -/

/-- R113: NOP changes nothing but CMD. -/
def Obligations.NopWritesOnlyCmd : Prop :=
  ∀ s : State, exec .nop s = .next { s with block := { s.block with cmd := 0x00 } }

/-- R133: H2B, in every case; what it leaves in BITS is R132. -/
def Obligations.H2bConvertsMsg : Prop :=
  ∀ s : State, ∃ t, exec .h2b s = .next t ∧ SameHost s t ∧ t.block.cmd = 0x02 ∧ SameInputs s.block t.block ∧
    SameDec s.block t.block ∧ SamePay s.block t.block ∧ SameCs s.block t.block ∧
    (256 < s.block.msgLen.toNat → HexCleared t.block ∧ EndedWith t.block .inputTooLong) ∧
    (s.block.msgLen.toNat ≤ 256 → AllHex s.block 0 s.block.msgLen.toNat →
      HoldsHex t.block 0 s.block.msgLen.toNat ∧ EndedWith t.block .none) ∧
    (s.block.msgLen.toNat ≤ 256 → ¬ AllHex s.block 0 s.block.msgLen.toNat →
      HexCleared t.block ∧ EndedWith t.block .invalidHex)

/-- R134: after an expansion that returns `NONE`, BIT_LEN is 4 per character, each group of four bits is its character's
value, and each whole byte is its pair of characters, which BITBUF shows. -/
def Obligations.ExpandRoundTrips : Prop :=
  ∀ (b e : Block) (start count : Nat), start + count ≤ 256 → b.expand start count = (.none, e) →
    e.bitLen.toNat = 4 * count ∧
      (∀ i, i < count →
        some (num ((List.range 4).map (fun j => e.bit (4 * i + j)))) = hexval (b.msg.read (start + i))) ∧
      (∀ k, 2 * k + 1 < count →
        num ((List.range 8).map (fun j => e.bit (8 * k + j))) =
          16 * hexvalOf (b.msg.read (start + 2 * k)) + hexvalOf (b.msg.read (start + 2 * k + 1)) ∧
        (e.busRead (0x200 + k)).toNat = num ((List.range 8).map (fun j => e.bit (8 * k + j))))

/-- R153: V2D, in every case. -/
def Obligations.V2dDecodesBits : Prop :=
  ∀ s : State, ∃ t c, exec .v2d s = .next t ∧ SameHost s t ∧ t.block.cmd = 0x03 ∧ SameInputs s.block t.block ∧
    SameHex s.block t.block ∧ SamePay s.block t.block ∧ SameCs s.block t.block ∧
    V2Outcome t.block c ∧ (c ≠ .none → NoOutput t.block) ∧ NoV3 t.block ∧ EndedWith t.block c

/-- R173: V3D, in every case. -/
def Obligations.V3dDecodesBits : Prop :=
  ∀ s : State, ∃ t c, exec .v3d s = .next t ∧ SameHost s t ∧ t.block.cmd = 0x04 ∧ SameInputs s.block t.block ∧
    SameHex s.block t.block ∧ SamePay s.block t.block ∧ SameCs s.block t.block ∧
    V3Outcome t.block c ∧ (c ≠ .none → NoOutput t.block) ∧ NoV2 t.block ∧ EndedWith t.block c

/-- R191: PRE, in every case: the checks in order, then the V2-then-V3 arbitration. -/
def Obligations.PreDecodesMsg : Prop :=
  ∀ s : State, ∃ t, exec .pre s = .next t ∧ SameHost s t ∧ t.block.cmd = 0x01 ∧ SameInputs s.block t.block ∧
    SamePay s.block t.block ∧ SameCs s.block t.block ∧
    (256 < s.block.msgLen.toNat →
      HexCleared t.block ∧ NoOutput t.block ∧ NoV2 t.block ∧ NoV3 t.block ∧ EndedWith t.block .inputTooLong) ∧
    (s.block.msgLen.toNat ≤ 256 →
      (s.block.msgLen.toNat < 4 ∨ s.block.msg.read 0 ≠ 0x6F ∨ s.block.msg.read 1 ≠ 0x6D) →
      HexCleared t.block ∧ NoOutput t.block ∧ NoV2 t.block ∧ NoV3 t.block ∧ EndedWith t.block .invalidFraming) ∧
    (s.block.msgLen.toNat ≤ 256 → 4 ≤ s.block.msgLen.toNat → s.block.msg.read 0 = 0x6F → s.block.msg.read 1 = 0x6D →
      ¬ AllHex s.block 2 (s.block.msgLen.toNat - 2) →
      HexCleared t.block ∧ NoOutput t.block ∧ NoV2 t.block ∧ NoV3 t.block ∧ EndedWith t.block .invalidHex) ∧
    (s.block.msgLen.toNat ≤ 256 → 4 ≤ s.block.msgLen.toNat → s.block.msg.read 0 = 0x6F → s.block.msg.read 1 = 0x6D →
      AllHex s.block 2 (s.block.msgLen.toNat - 2) →
      HoldsHex t.block 2 (s.block.msgLen.toNat - 2) ∧ PreOutcome t.block)

/-- R215: LDP, in every case, the checks in order. -/
def Obligations.LdpLoadsMsg : Prop :=
  ∀ s : State, ∃ t, exec .ldp s = .next t ∧ SameHost s t ∧ t.block.cmd = 0x08 ∧ SameInputs s.block t.block ∧
    SameHex s.block t.block ∧ SameDec s.block t.block ∧ CsCleared t.block ∧
    (let n := s.block.msgLen.toNat
     (256 < n → PayCleared t.block ∧ EndedWith t.block .inputTooLong) ∧
     (n ≤ 256 → n % 2 = 1 → PayCleared t.block ∧ EndedWith t.block .invalidHex) ∧
     (n ≤ 256 → n % 2 = 0 → ¬ AllHex s.block 0 n → PayCleared t.block ∧ EndedWith t.block .invalidHex) ∧
     (n ≤ 256 → n % 2 = 0 → AllHex s.block 0 n → 64 < n → PayCleared t.block ∧ EndedWith t.block .payloadTooLong) ∧
     (n ≤ 256 → n % 2 = 0 → AllHex s.block 0 n → n < 6 → PayCleared t.block ∧ EndedWith t.block .truncatedMessage) ∧
     (n ≤ 64 → 6 ≤ n → n % 2 = 0 → AllHex s.block 0 n →
       t.block.payLen.toNat = n / 2 ∧ EndedWith t.block .none ∧
       (∀ k, k < n / 2 → (t.block.pay.read k).toNat =
         16 * hexvalOf (s.block.msg.read (2 * k)) + hexvalOf (s.block.msg.read (2 * k + 1))) ∧
       ∀ k, n / 2 ≤ k → t.block.pay.read k = 0))

/-- R216: LDO, in every case. -/
def Obligations.LdoLoadsOut : Prop :=
  ∀ s : State, ∃ t, exec .ldo s = .next t ∧ SameHost s t ∧ t.block.cmd = 0x09 ∧ SameInputs s.block t.block ∧
    SameHex s.block t.block ∧ SameDec s.block t.block ∧ CsCleared t.block ∧
    (s.block.outLen.toNat < 3 → PayCleared t.block ∧ EndedWith t.block .truncatedMessage) ∧
    (3 ≤ s.block.outLen.toNat → t.block.payLen = s.block.outLen ∧ EndedWith t.block .none ∧
      (∀ k, k < s.block.outLen.toNat → t.block.pay.read k = s.block.out.read k) ∧
      ∀ k, s.block.outLen.toNat ≤ k → t.block.pay.read k = 0)

/-- R219: CK1 sums 6.5 payload bytes and compares with the byte put together from two nibbles. -/
def Obligations.Ck1ValidatesPayload : Prop :=
  ∀ s : State, ∃ t, exec .ck1 s = .next t ∧ SameHost s t ∧ t.block.cmd = 0x11 ∧ SameInputs s.block t.block ∧
    SameHex s.block t.block ∧ SameDec s.block t.block ∧ SamePay s.block t.block ∧
    (s.block.payLen.toNat < 9 → CsCleared t.block ∧ EndedWith t.block .checksumRange) ∧
    (9 ≤ s.block.payLen.toNat → Compared t.block (nibbleTotal s.block 6 + (s.block.pay.read 7).toNat / 16)
      ((s.block.pay.read 7).toNat / 16 + 16 * ((s.block.pay.read 8).toNat % 16)))

/-- R220: CK2 sums 8 payload bytes and compares with `payload[8]`. -/
def Obligations.Ck2ValidatesPayload : Prop :=
  ∀ s : State, ∃ t, exec .ck2 s = .next t ∧ SameHost s t ∧ t.block.cmd = 0x12 ∧ SameInputs s.block t.block ∧
    SameHex s.block t.block ∧ SameDec s.block t.block ∧ SamePay s.block t.block ∧
    (s.block.payLen.toNat < 10 → CsCleared t.block ∧ EndedWith t.block .checksumRange) ∧
    (10 ≤ s.block.payLen.toNat → Compared t.block (nibbleTotal s.block 8) (s.block.pay.read 9).toNat)

/-- R221: CK4 sums 9 payload bytes and compares with `payload[9]`. -/
def Obligations.Ck4ValidatesPayload : Prop :=
  ∀ s : State, ∃ t, exec .ck4 s = .next t ∧ SameHost s t ∧ t.block.cmd = 0x14 ∧ SameInputs s.block t.block ∧
    SameHex s.block t.block ∧ SameDec s.block t.block ∧ SamePay s.block t.block ∧
    (s.block.payLen.toNat < 11 → CsCleared t.block ∧ EndedWith t.block .checksumRange) ∧
    (11 ≤ s.block.payLen.toNat → Compared t.block (nibbleTotal s.block 9) (s.block.pay.read 10).toNat)

/-- R222: CK5 sums 10 payload bytes and compares with `payload[10]`. -/
def Obligations.Ck5ValidatesPayload : Prop :=
  ∀ s : State, ∃ t, exec .ck5 s = .next t ∧ SameHost s t ∧ t.block.cmd = 0x15 ∧ SameInputs s.block t.block ∧
    SameHex s.block t.block ∧ SameDec s.block t.block ∧ SamePay s.block t.block ∧
    (s.block.payLen.toNat < 12 → CsCleared t.block ∧ EndedWith t.block .checksumRange) ∧
    (12 ≤ s.block.payLen.toNat → Compared t.block (nibbleTotal s.block 10) (s.block.pay.read 11).toNat)

/-! ## Rules over all commands -/

/-- R111, R66, R71: a command changes what the host reads only at CMD and at the addresses of its groups; every other of
the 4096 addresses reads as before. -/
def Obligations.CommandsLeaveOtherAddresses : Prop :=
  ∀ (c : Command) (s : State), ∃ t, exec c.toInstr s = .next t ∧ SameHost s t ∧
    ∀ a, writesAddr c (a % 4096) = false → t.block.busRead a = s.block.busRead a

/-- R112, R241: every command other than NOP ends with one code its rule raises, and OK and ERR say whether it is
`NONE`. -/
def Obligations.CommandsEndWithTheirCodes : Prop :=
  ∀ (c : Command) (s : State), c ≠ .nop →
    ∃ t e, exec c.toInstr s = .next t ∧ e ∈ mayEndWith c ∧ EndedWith t.block e ∧
      t.block.status.err = !t.block.status.ok ∧ (t.block.status.ok = true ↔ t.block.errCode = 0)

/-- R115: a decode, a load or a conversion that ends with an error leaves its buffer cleared. -/
def Obligations.FailureLeavesNoPartialResult : Prop :=
  ∀ s : State,
    (∀ i : Instr, i = .pre ∨ i = .v2d ∨ i = .v3d →
      ∃ t, exec i s = .next t ∧ (t.block.status.err = true → NoOutput t.block)) ∧
    (∀ i : Instr, i = .ldp ∨ i = .ldo →
      ∃ t, exec i s = .next t ∧ (t.block.status.err = true → PayCleared t.block)) ∧
    (∃ t, exec .h2b s = .next t ∧ (t.block.status.err = true → HexCleared t.block)) ∧
    (∃ t, exec .pre s = .next t ∧ (t.block.errCode = 0x02 → HexCleared t.block))

/-- R71, R116, 95_test_vectors.md 1.10: issuing the same command again, with no write between, changes nothing. -/
def Obligations.CommandsAreIdempotent : Prop :=
  ∀ (c : Command) (s : State), ∃ t, exec c.toInstr s = .next t ∧ exec c.toInstr t = .next t

/-! ## Laws of the decoders, the loads and the checksums -/

/-- R172: where the V3 preamble lies at `p` the marker is found, no later than `p + 4`. -/
def Obligations.MarkerFoundInsidePreamble : Prop :=
  ∀ (s : BitString) (n p : Nat), OccursAt s n Config.v3Preamble p →
    ∃ d, first s n Config.v3Marker = some d ∧ d ≤ p + 4

/-- R155: the V2 output does not depend on the even-indexed bits of the chunks. -/
def Obligations.V2IgnoresEvenBits : Prop :=
  ∀ (s s' : State) (i : Nat), s'.block.bitLen = s.block.bitLen →
    FirstAt s.block.bits s.block.bitLen.toNat Config.v2Preamble i →
    FirstAt s'.block.bits s'.block.bitLen.toNat Config.v2Preamble i →
    (∀ j, j < 8 * v2Count s.block i → s'.block.bit (i + 2 * j + 1) = s.block.bit (i + 2 * j + 1)) →
    ∃ t t', exec .v2d s = .next t ∧ exec .v2d s' = .next t' ∧ t'.block.outLen = t.block.outLen ∧
      t'.block.errCode = t.block.errCode ∧ ∀ k, t'.block.out.read k = t.block.out.read k

/-- R174: two bit strings of one length and one data start, equal from there on and both holding the V3 preamble
somewhere, give the same OUT. -/
def Obligations.V3PreambleIsExistenceCheckOnly : Prop :=
  ∀ (s s' : State) (p p' d : Nat), s'.block.bitLen = s.block.bitLen →
    OccursAt s.block.bits s.block.bitLen.toNat Config.v3Preamble p →
    OccursAt s'.block.bits s'.block.bitLen.toNat Config.v3Preamble p' →
    FirstAt s.block.bits s.block.bitLen.toNat Config.v3Marker d →
    FirstAt s'.block.bits s'.block.bitLen.toNat Config.v3Marker d →
    (∀ i, d ≤ i → s'.block.bit i = s.block.bit i) →
    ∃ t t', exec .v3d s = .next t ∧ exec .v3d s' = .next t' ∧ t'.block.outLen = t.block.outLen ∧
      t'.block.errCode = t.block.errCode ∧ ∀ k, t'.block.out.read k = t.block.out.read k

/-- R196, R192: after any PRE, a bit string without the V3 preamble never ends on the V3 path, one without the V2 preamble
never on the V2 path, and one whose V2 preamble starts 1 to 31 chunks ends on the V2 path. -/
def Obligations.PrePathsAreExclusive : Prop :=
  ∀ s : State, ∃ t, exec .pre s = .next t ∧ (t.block.status.path ≠ 0 → t.block.errCode = 0) ∧
    (Absent t.block.bits t.block.bitLen.toNat Config.v3Preamble → t.block.status.path ≠ 0b10) ∧
    (Absent t.block.bits t.block.bitLen.toNat Config.v2Preamble → t.block.status.path ≠ 0b01) ∧
    ∀ i, FirstAt t.block.bits t.block.bitLen.toNat Config.v2Preamble i → 1 ≤ v2Count t.block i →
      v2Count t.block i ≤ 31 → t.block.status.path = 0b01

/-- R196, last law: PRE of a framed message is H2B of its characters after the marker, then V2D, then V3D where V2D found
no preamble or no whole chunk, with the V2 fields kept. -/
def Obligations.PreIsTheThreeStages : Prop :=
  ∀ s s' : State, 4 ≤ s.block.msgLen.toNat → s.block.msgLen.toNat ≤ 256 → s.block.msg.read 0 = 0x6F →
    s.block.msg.read 1 = 0x6D → s'.block.msgLen.toNat = s.block.msgLen.toNat - 2 →
    (∀ i, i < s'.block.msgLen.toNat → s'.block.msg.read i = s.block.msg.read (i + 2)) →
    ∃ t u v w, exec .pre s = .next t ∧ exec .h2b s' = .next u ∧ exec .v2d u = .next v ∧ exec .v3d u = .next w ∧
      SameHex u.block t.block ∧
      (v.block.errCode = 0x00 ∨ v.block.errCode = 0x10 → SameDec v.block t.block) ∧
      (v.block.errCode = 0x03 ∨ v.block.errCode = 0x04 →
        t.block.out = w.block.out ∧ t.block.outLen = w.block.outLen ∧ t.block.status.path = w.block.status.path ∧
        t.block.status.v3pre = w.block.status.v3pre ∧ t.block.v3PreIdx = w.block.v3PreIdx ∧
        t.block.v3DatIdx = w.block.v3DatIdx ∧ t.block.status.v2pre = v.block.status.v2pre ∧
        t.block.v2Idx = v.block.v2Idx)

/-- R217: LDO is LDP of the rendered output. The premise that the block meets its invariants rules out an OUT_LEN no run
reaches. -/
def Obligations.LdoIsLdpOfOuthex : Prop :=
  ∀ s : State, s.block.Inv → s.block.msgLen.toNat = 2 * s.block.outLen.toNat →
    (∀ k, k < 2 * s.block.outLen.toNat → s.block.msg.read k = s.block.busRead (0x340 + k)) →
    ∃ t u, exec .ldp s = .next t ∧ exec .ldo s = .next u ∧ SamePay t.block u.block ∧ SameCs t.block u.block ∧
      SameStat t.block u.block

/-- R223 (a), (e): a checksum command's result depends on PAY_LEN and on the payload bytes it needs alone; the length
byte `PAY[0]` plays no part. -/
def Obligations.ChecksumReadsItsBytesOnly : Prop :=
  ∀ (c : Command) (need : Nat) (s s' : State),
    (c, need) ∈ [(Command.ck1, 8), (Command.ck2, 9), (Command.ck4, 10), (Command.ck5, 11)] →
    s'.block.payLen = s.block.payLen →
    (∀ i, 1 ≤ i → i ≤ need → s'.block.pay.read i = s.block.pay.read i) →
    ∃ t t', exec c.toInstr s = .next t ∧ exec c.toInstr s' = .next t' ∧ SameCs t.block t'.block ∧
      SameStat t.block t'.block

/-- R223 (b), (c): for CK2, CK4 and CK5, flipping one bit of a summed byte of a passing payload makes it fail. -/
def Obligations.SingleBitFlipFailsChecksum : Prop :=
  ∀ (c : Command) (summed : Nat) (s s' t : State) (i k : Nat),
    (c, summed) ∈ [(Command.ck2, 8), (Command.ck4, 9), (Command.ck5, 10)] → i < summed → k < 8 →
    exec c.toInstr s = .next t → t.block.status.csok = true →
    s'.block.payLen = s.block.payLen →
    s'.block.pay.read (i + 1) = s.block.pay.read (i + 1) ^^^ (1#8 <<< k) →
    (∀ j, j ≠ i + 1 → s'.block.pay.read j = s.block.pay.read j) →
    ∃ t', exec c.toInstr s' = .next t' ∧ t'.block.csCalc ≠ t.block.csCalc ∧ t'.block.csRef = t.block.csRef ∧
      t'.block.status.csok = false ∧ t'.block.errCode = 0x07

/-- R223 (d): for CK1, a flip in `hi(payload[6])` keeps the verdict, one in `lo(payload[6])` changes neither value, and one
in `lo(payload[7])` changes CS_REF only. -/
def Obligations.Ck1NibbleFlips : Prop :=
  ∀ (s s' : State) (i k : Nat), 9 ≤ s.block.payLen.toNat → s'.block.payLen = s.block.payLen → k < 8 →
    s'.block.pay.read i = s.block.pay.read i ^^^ (1#8 <<< k) →
    (∀ j, j ≠ i → s'.block.pay.read j = s.block.pay.read j) →
    ∃ t t', exec .ck1 s = .next t ∧ exec .ck1 s' = .next t' ∧
      (i = 7 → 4 ≤ k → t'.block.csCalc - t.block.csCalc = t'.block.csRef - t.block.csRef ∧
        t'.block.csCalc ≠ t.block.csCalc ∧ t'.block.status.csok = t.block.status.csok) ∧
      (i = 7 → k < 4 → t'.block.csCalc = t.block.csCalc ∧ t'.block.csRef = t.block.csRef) ∧
      (i = 8 → k < 4 → t'.block.csCalc = t.block.csCalc ∧ t'.block.csRef ≠ t.block.csRef)

/-- R98: running the accesses `MSGSET` expands to puts the text into MSG and its length into MSG_LEN, keeps the characters
past its end, and changes nothing else of the block. -/
def Obligations.MsgsetStoresText : Prop :=
  ∀ (s : State) (text : List Byte), text.length ≤ 256 →
    ∃ t : State, Sys2Proof.core.run (text.length + 2)
        (s.load ((AsmLine.msgset text).expand.map encode)) = .next t ∧
      t.pending = [] ∧ t.reads = s.reads ∧
      t.block = { s.block with msg := t.block.msg, msgLen := t.block.msgLen } ∧
      t.block.msgLen.toNat = text.length ∧
      (∀ i, i < text.length → t.block.msg.read i = text.getD i 0) ∧
      ∀ i, text.length ≤ i → t.block.msg.read i = s.block.msg.read i

/-- R98: running the accesses `RDW` expands to reads two addresses and changes nothing of the block; the value it gives is
`first + (second << 8)`, which is the 16-bit register whose low byte lies at the address. -/
def Obligations.RdwGivesTheRegister : Prop :=
  ∀ (s : State) (addr : Nat), addr + 1 < 4096 →
    ∃ (t : State) (v : Half), Sys2Proof.core.run 2 (s.load ((AsmLine.rdw addr).expand.map encode)) = .next t ∧
      t.pending = [] ∧ t.block = s.block ∧ t.reads = s.reads ++ [s.block.busRead addr, s.block.busRead (addr + 1)] ∧
      t.rdwResult = some v ∧ v.toNat = (s.block.busRead addr).toNat + 256 * (s.block.busRead (addr + 1)).toNat ∧
      (addr = 0x004 → v = s.block.msgLen) ∧ (addr = 0x006 → v = s.block.bitLen) ∧ (addr = 0x00C → v = s.block.v2Idx) ∧
      (addr = 0x00E → v = s.block.v3PreIdx) ∧ (addr = 0x010 → v = s.block.v3DatIdx)

/-- R98: running the accesses `RDN` expands to reads the addresses in order and changes nothing of the block. -/
def Obligations.RdnReadsInOrder : Prop :=
  ∀ (s : State) (addr n : Nat), addr + n ≤ 4096 →
    ∃ t : State, Sys2Proof.core.run n (s.load ((AsmLine.rdn addr n).expand.map encode)) = .next t ∧
      t.pending = [] ∧ t.block = s.block ∧
      t.reads = s.reads ++ (List.range n).map (fun i => s.block.busRead (addr + i))

/-- R98: running the access the line `CMD` expands to is the command. -/
def Obligations.CmdLineIssuesTheCommand : Prop :=
  ∀ (s : State) (c : Command),
    step (s.load ((AsmLine.cmd c).expand.map encode)) = exec c.toInstr { s with pending := [] }
end

