-- ==== Sys2Proof/Laws/State.lean ====
section
/-! SUPPORT. One lemma per field per named update of the state, each true by rfl, so that no proof unfolds a record
update. -/

namespace Sys2Proof.Machine

/-! ### clearHex -/

@[simp] theorem Block.clearHex_cmd (b : Block) : b.clearHex.cmd = b.cmd := rfl
@[simp] theorem Block.clearHex_ok (b : Block) : b.clearHex.status.ok = b.status.ok := rfl
@[simp] theorem Block.clearHex_err (b : Block) : b.clearHex.status.err = b.status.err := rfl
@[simp] theorem Block.clearHex_v2pre (b : Block) : b.clearHex.status.v2pre = b.status.v2pre := rfl
@[simp] theorem Block.clearHex_v3pre (b : Block) : b.clearHex.status.v3pre = b.status.v3pre := rfl
@[simp] theorem Block.clearHex_path (b : Block) : b.clearHex.status.path = b.status.path := rfl
@[simp] theorem Block.clearHex_csok (b : Block) : b.clearHex.status.csok = b.status.csok := rfl
@[simp] theorem Block.clearHex_errCode (b : Block) : b.clearHex.errCode = b.errCode := rfl
@[simp] theorem Block.clearHex_msg (b : Block) : b.clearHex.msg = b.msg := rfl
@[simp] theorem Block.clearHex_msgLen (b : Block) : b.clearHex.msgLen = b.msgLen := rfl
@[simp] theorem Block.clearHex_bits (b : Block) : b.clearHex.bits = [] := rfl
@[simp] theorem Block.clearHex_bitLen (b : Block) : b.clearHex.bitLen = 0 := rfl
@[simp] theorem Block.clearHex_out (b : Block) : b.clearHex.out = b.out := rfl
@[simp] theorem Block.clearHex_outLen (b : Block) : b.clearHex.outLen = b.outLen := rfl
@[simp] theorem Block.clearHex_pay (b : Block) : b.clearHex.pay = b.pay := rfl
@[simp] theorem Block.clearHex_payLen (b : Block) : b.clearHex.payLen = b.payLen := rfl
@[simp] theorem Block.clearHex_csCalc (b : Block) : b.clearHex.csCalc = b.csCalc := rfl
@[simp] theorem Block.clearHex_csRef (b : Block) : b.clearHex.csRef = b.csRef := rfl
@[simp] theorem Block.clearHex_v2Idx (b : Block) : b.clearHex.v2Idx = b.v2Idx := rfl
@[simp] theorem Block.clearHex_v3PreIdx (b : Block) : b.clearHex.v3PreIdx = b.v3PreIdx := rfl
@[simp] theorem Block.clearHex_v3DatIdx (b : Block) : b.clearHex.v3DatIdx = b.v3DatIdx := rfl
@[simp] theorem Block.clearHex_bit (b : Block) (i : Nat) : b.clearHex.bit i = false := rfl

/-! ### clearDec -/

@[simp] theorem Block.clearDec_cmd (b : Block) : b.clearDec.cmd = b.cmd := rfl
@[simp] theorem Block.clearDec_ok (b : Block) : b.clearDec.status.ok = b.status.ok := rfl
@[simp] theorem Block.clearDec_err (b : Block) : b.clearDec.status.err = b.status.err := rfl
@[simp] theorem Block.clearDec_v2pre (b : Block) : b.clearDec.status.v2pre = false := rfl
@[simp] theorem Block.clearDec_v3pre (b : Block) : b.clearDec.status.v3pre = false := rfl
@[simp] theorem Block.clearDec_path (b : Block) : b.clearDec.status.path = 0 := rfl
@[simp] theorem Block.clearDec_csok (b : Block) : b.clearDec.status.csok = b.status.csok := rfl
@[simp] theorem Block.clearDec_errCode (b : Block) : b.clearDec.errCode = b.errCode := rfl
@[simp] theorem Block.clearDec_msg (b : Block) : b.clearDec.msg = b.msg := rfl
@[simp] theorem Block.clearDec_msgLen (b : Block) : b.clearDec.msgLen = b.msgLen := rfl
@[simp] theorem Block.clearDec_bits (b : Block) : b.clearDec.bits = b.bits := rfl
@[simp] theorem Block.clearDec_bitLen (b : Block) : b.clearDec.bitLen = b.bitLen := rfl
@[simp] theorem Block.clearDec_out (b : Block) : b.clearDec.out = [] := rfl
@[simp] theorem Block.clearDec_outLen (b : Block) : b.clearDec.outLen = 0 := rfl
@[simp] theorem Block.clearDec_pay (b : Block) : b.clearDec.pay = b.pay := rfl
@[simp] theorem Block.clearDec_payLen (b : Block) : b.clearDec.payLen = b.payLen := rfl
@[simp] theorem Block.clearDec_csCalc (b : Block) : b.clearDec.csCalc = b.csCalc := rfl
@[simp] theorem Block.clearDec_csRef (b : Block) : b.clearDec.csRef = b.csRef := rfl
@[simp] theorem Block.clearDec_v2Idx (b : Block) : b.clearDec.v2Idx = 0 := rfl
@[simp] theorem Block.clearDec_v3PreIdx (b : Block) : b.clearDec.v3PreIdx = 0 := rfl
@[simp] theorem Block.clearDec_v3DatIdx (b : Block) : b.clearDec.v3DatIdx = 0 := rfl
@[simp] theorem Block.clearDec_bit (b : Block) (i : Nat) : b.clearDec.bit i = b.bit i := rfl

/-! ### clearOut -/

@[simp] theorem Block.clearOut_cmd (b : Block) : b.clearOut.cmd = b.cmd := rfl
@[simp] theorem Block.clearOut_ok (b : Block) : b.clearOut.status.ok = b.status.ok := rfl
@[simp] theorem Block.clearOut_err (b : Block) : b.clearOut.status.err = b.status.err := rfl
@[simp] theorem Block.clearOut_v2pre (b : Block) : b.clearOut.status.v2pre = b.status.v2pre := rfl
@[simp] theorem Block.clearOut_v3pre (b : Block) : b.clearOut.status.v3pre = b.status.v3pre := rfl
@[simp] theorem Block.clearOut_path (b : Block) : b.clearOut.status.path = 0 := rfl
@[simp] theorem Block.clearOut_csok (b : Block) : b.clearOut.status.csok = b.status.csok := rfl
@[simp] theorem Block.clearOut_errCode (b : Block) : b.clearOut.errCode = b.errCode := rfl
@[simp] theorem Block.clearOut_msg (b : Block) : b.clearOut.msg = b.msg := rfl
@[simp] theorem Block.clearOut_msgLen (b : Block) : b.clearOut.msgLen = b.msgLen := rfl
@[simp] theorem Block.clearOut_bits (b : Block) : b.clearOut.bits = b.bits := rfl
@[simp] theorem Block.clearOut_bitLen (b : Block) : b.clearOut.bitLen = b.bitLen := rfl
@[simp] theorem Block.clearOut_out (b : Block) : b.clearOut.out = [] := rfl
@[simp] theorem Block.clearOut_outLen (b : Block) : b.clearOut.outLen = 0 := rfl
@[simp] theorem Block.clearOut_pay (b : Block) : b.clearOut.pay = b.pay := rfl
@[simp] theorem Block.clearOut_payLen (b : Block) : b.clearOut.payLen = b.payLen := rfl
@[simp] theorem Block.clearOut_csCalc (b : Block) : b.clearOut.csCalc = b.csCalc := rfl
@[simp] theorem Block.clearOut_csRef (b : Block) : b.clearOut.csRef = b.csRef := rfl
@[simp] theorem Block.clearOut_v2Idx (b : Block) : b.clearOut.v2Idx = b.v2Idx := rfl
@[simp] theorem Block.clearOut_v3PreIdx (b : Block) : b.clearOut.v3PreIdx = b.v3PreIdx := rfl
@[simp] theorem Block.clearOut_v3DatIdx (b : Block) : b.clearOut.v3DatIdx = b.v3DatIdx := rfl
@[simp] theorem Block.clearOut_bit (b : Block) (i : Nat) : b.clearOut.bit i = b.bit i := rfl

/-! ### clearPay -/

@[simp] theorem Block.clearPay_cmd (b : Block) : b.clearPay.cmd = b.cmd := rfl
@[simp] theorem Block.clearPay_ok (b : Block) : b.clearPay.status.ok = b.status.ok := rfl
@[simp] theorem Block.clearPay_err (b : Block) : b.clearPay.status.err = b.status.err := rfl
@[simp] theorem Block.clearPay_v2pre (b : Block) : b.clearPay.status.v2pre = b.status.v2pre := rfl
@[simp] theorem Block.clearPay_v3pre (b : Block) : b.clearPay.status.v3pre = b.status.v3pre := rfl
@[simp] theorem Block.clearPay_path (b : Block) : b.clearPay.status.path = b.status.path := rfl
@[simp] theorem Block.clearPay_csok (b : Block) : b.clearPay.status.csok = b.status.csok := rfl
@[simp] theorem Block.clearPay_errCode (b : Block) : b.clearPay.errCode = b.errCode := rfl
@[simp] theorem Block.clearPay_msg (b : Block) : b.clearPay.msg = b.msg := rfl
@[simp] theorem Block.clearPay_msgLen (b : Block) : b.clearPay.msgLen = b.msgLen := rfl
@[simp] theorem Block.clearPay_bits (b : Block) : b.clearPay.bits = b.bits := rfl
@[simp] theorem Block.clearPay_bitLen (b : Block) : b.clearPay.bitLen = b.bitLen := rfl
@[simp] theorem Block.clearPay_out (b : Block) : b.clearPay.out = b.out := rfl
@[simp] theorem Block.clearPay_outLen (b : Block) : b.clearPay.outLen = b.outLen := rfl
@[simp] theorem Block.clearPay_pay (b : Block) : b.clearPay.pay = [] := rfl
@[simp] theorem Block.clearPay_payLen (b : Block) : b.clearPay.payLen = 0 := rfl
@[simp] theorem Block.clearPay_csCalc (b : Block) : b.clearPay.csCalc = b.csCalc := rfl
@[simp] theorem Block.clearPay_csRef (b : Block) : b.clearPay.csRef = b.csRef := rfl
@[simp] theorem Block.clearPay_v2Idx (b : Block) : b.clearPay.v2Idx = b.v2Idx := rfl
@[simp] theorem Block.clearPay_v3PreIdx (b : Block) : b.clearPay.v3PreIdx = b.v3PreIdx := rfl
@[simp] theorem Block.clearPay_v3DatIdx (b : Block) : b.clearPay.v3DatIdx = b.v3DatIdx := rfl
@[simp] theorem Block.clearPay_bit (b : Block) (i : Nat) : b.clearPay.bit i = b.bit i := rfl

/-! ### clearCs -/

@[simp] theorem Block.clearCs_cmd (b : Block) : b.clearCs.cmd = b.cmd := rfl
@[simp] theorem Block.clearCs_ok (b : Block) : b.clearCs.status.ok = b.status.ok := rfl
@[simp] theorem Block.clearCs_err (b : Block) : b.clearCs.status.err = b.status.err := rfl
@[simp] theorem Block.clearCs_v2pre (b : Block) : b.clearCs.status.v2pre = b.status.v2pre := rfl
@[simp] theorem Block.clearCs_v3pre (b : Block) : b.clearCs.status.v3pre = b.status.v3pre := rfl
@[simp] theorem Block.clearCs_path (b : Block) : b.clearCs.status.path = b.status.path := rfl
@[simp] theorem Block.clearCs_csok (b : Block) : b.clearCs.status.csok = false := rfl
@[simp] theorem Block.clearCs_errCode (b : Block) : b.clearCs.errCode = b.errCode := rfl
@[simp] theorem Block.clearCs_msg (b : Block) : b.clearCs.msg = b.msg := rfl
@[simp] theorem Block.clearCs_msgLen (b : Block) : b.clearCs.msgLen = b.msgLen := rfl
@[simp] theorem Block.clearCs_bits (b : Block) : b.clearCs.bits = b.bits := rfl
@[simp] theorem Block.clearCs_bitLen (b : Block) : b.clearCs.bitLen = b.bitLen := rfl
@[simp] theorem Block.clearCs_out (b : Block) : b.clearCs.out = b.out := rfl
@[simp] theorem Block.clearCs_outLen (b : Block) : b.clearCs.outLen = b.outLen := rfl
@[simp] theorem Block.clearCs_pay (b : Block) : b.clearCs.pay = b.pay := rfl
@[simp] theorem Block.clearCs_payLen (b : Block) : b.clearCs.payLen = b.payLen := rfl
@[simp] theorem Block.clearCs_csCalc (b : Block) : b.clearCs.csCalc = 0 := rfl
@[simp] theorem Block.clearCs_csRef (b : Block) : b.clearCs.csRef = 0 := rfl
@[simp] theorem Block.clearCs_v2Idx (b : Block) : b.clearCs.v2Idx = b.v2Idx := rfl
@[simp] theorem Block.clearCs_v3PreIdx (b : Block) : b.clearCs.v3PreIdx = b.v3PreIdx := rfl
@[simp] theorem Block.clearCs_v3DatIdx (b : Block) : b.clearCs.v3DatIdx = b.v3DatIdx := rfl
@[simp] theorem Block.clearCs_bit (b : Block) (i : Nat) : b.clearCs.bit i = b.bit i := rfl

/-! ### loadStart -/

@[simp] theorem Block.loadStart_cmd (b : Block) : b.loadStart.cmd = b.cmd := rfl
@[simp] theorem Block.loadStart_ok (b : Block) : b.loadStart.status.ok = b.status.ok := rfl
@[simp] theorem Block.loadStart_err (b : Block) : b.loadStart.status.err = b.status.err := rfl
@[simp] theorem Block.loadStart_v2pre (b : Block) : b.loadStart.status.v2pre = b.status.v2pre := rfl
@[simp] theorem Block.loadStart_v3pre (b : Block) : b.loadStart.status.v3pre = b.status.v3pre := rfl
@[simp] theorem Block.loadStart_path (b : Block) : b.loadStart.status.path = b.status.path := rfl
@[simp] theorem Block.loadStart_csok (b : Block) : b.loadStart.status.csok = false := rfl
@[simp] theorem Block.loadStart_errCode (b : Block) : b.loadStart.errCode = b.errCode := rfl
@[simp] theorem Block.loadStart_msg (b : Block) : b.loadStart.msg = b.msg := rfl
@[simp] theorem Block.loadStart_msgLen (b : Block) : b.loadStart.msgLen = b.msgLen := rfl
@[simp] theorem Block.loadStart_bits (b : Block) : b.loadStart.bits = b.bits := rfl
@[simp] theorem Block.loadStart_bitLen (b : Block) : b.loadStart.bitLen = b.bitLen := rfl
@[simp] theorem Block.loadStart_out (b : Block) : b.loadStart.out = b.out := rfl
@[simp] theorem Block.loadStart_outLen (b : Block) : b.loadStart.outLen = b.outLen := rfl
@[simp] theorem Block.loadStart_pay (b : Block) : b.loadStart.pay = [] := rfl
@[simp] theorem Block.loadStart_payLen (b : Block) : b.loadStart.payLen = 0 := rfl
@[simp] theorem Block.loadStart_csCalc (b : Block) : b.loadStart.csCalc = 0 := rfl
@[simp] theorem Block.loadStart_csRef (b : Block) : b.loadStart.csRef = 0 := rfl
@[simp] theorem Block.loadStart_v2Idx (b : Block) : b.loadStart.v2Idx = b.v2Idx := rfl
@[simp] theorem Block.loadStart_v3PreIdx (b : Block) : b.loadStart.v3PreIdx = b.v3PreIdx := rfl
@[simp] theorem Block.loadStart_v3DatIdx (b : Block) : b.loadStart.v3DatIdx = b.v3DatIdx := rfl
@[simp] theorem Block.loadStart_bit (b : Block) (i : Nat) : b.loadStart.bit i = b.bit i := rfl

/-! ### setCmd -/

@[simp] theorem Block.setCmd_cmd (b : Block) (v : Byte) : (b.setCmd v).cmd = v := rfl
@[simp] theorem Block.setCmd_ok (b : Block) (v : Byte) : (b.setCmd v).status.ok = b.status.ok := rfl
@[simp] theorem Block.setCmd_err (b : Block) (v : Byte) : (b.setCmd v).status.err = b.status.err := rfl
@[simp] theorem Block.setCmd_v2pre (b : Block) (v : Byte) : (b.setCmd v).status.v2pre = b.status.v2pre := rfl
@[simp] theorem Block.setCmd_v3pre (b : Block) (v : Byte) : (b.setCmd v).status.v3pre = b.status.v3pre := rfl
@[simp] theorem Block.setCmd_path (b : Block) (v : Byte) : (b.setCmd v).status.path = b.status.path := rfl
@[simp] theorem Block.setCmd_csok (b : Block) (v : Byte) : (b.setCmd v).status.csok = b.status.csok := rfl
@[simp] theorem Block.setCmd_errCode (b : Block) (v : Byte) : (b.setCmd v).errCode = b.errCode := rfl
@[simp] theorem Block.setCmd_msg (b : Block) (v : Byte) : (b.setCmd v).msg = b.msg := rfl
@[simp] theorem Block.setCmd_msgLen (b : Block) (v : Byte) : (b.setCmd v).msgLen = b.msgLen := rfl
@[simp] theorem Block.setCmd_bits (b : Block) (v : Byte) : (b.setCmd v).bits = b.bits := rfl
@[simp] theorem Block.setCmd_bitLen (b : Block) (v : Byte) : (b.setCmd v).bitLen = b.bitLen := rfl
@[simp] theorem Block.setCmd_out (b : Block) (v : Byte) : (b.setCmd v).out = b.out := rfl
@[simp] theorem Block.setCmd_outLen (b : Block) (v : Byte) : (b.setCmd v).outLen = b.outLen := rfl
@[simp] theorem Block.setCmd_pay (b : Block) (v : Byte) : (b.setCmd v).pay = b.pay := rfl
@[simp] theorem Block.setCmd_payLen (b : Block) (v : Byte) : (b.setCmd v).payLen = b.payLen := rfl
@[simp] theorem Block.setCmd_csCalc (b : Block) (v : Byte) : (b.setCmd v).csCalc = b.csCalc := rfl
@[simp] theorem Block.setCmd_csRef (b : Block) (v : Byte) : (b.setCmd v).csRef = b.csRef := rfl
@[simp] theorem Block.setCmd_v2Idx (b : Block) (v : Byte) : (b.setCmd v).v2Idx = b.v2Idx := rfl
@[simp] theorem Block.setCmd_v3PreIdx (b : Block) (v : Byte) : (b.setCmd v).v3PreIdx = b.v3PreIdx := rfl
@[simp] theorem Block.setCmd_v3DatIdx (b : Block) (v : Byte) : (b.setCmd v).v3DatIdx = b.v3DatIdx := rfl
@[simp] theorem Block.setCmd_bit (b : Block) (v : Byte) (i : Nat) :
    (b.setCmd v).bit i = b.bit i := rfl

/-! ### setHex -/

@[simp] theorem Block.setHex_cmd (b : Block) (s : BitString) (n : Nat) : (b.setHex s n).cmd = b.cmd := rfl
@[simp] theorem Block.setHex_ok (b : Block) (s : BitString) (n : Nat) : (b.setHex s n).status.ok = b.status.ok := rfl
@[simp] theorem Block.setHex_err (b : Block) (s : BitString) (n : Nat) :
    (b.setHex s n).status.err = b.status.err := rfl
@[simp] theorem Block.setHex_v2pre (b : Block) (s : BitString) (n : Nat) :
    (b.setHex s n).status.v2pre = b.status.v2pre := rfl
@[simp] theorem Block.setHex_v3pre (b : Block) (s : BitString) (n : Nat) :
    (b.setHex s n).status.v3pre = b.status.v3pre := rfl
@[simp] theorem Block.setHex_path (b : Block) (s : BitString) (n : Nat) :
    (b.setHex s n).status.path = b.status.path := rfl
@[simp] theorem Block.setHex_csok (b : Block) (s : BitString) (n : Nat) :
    (b.setHex s n).status.csok = b.status.csok := rfl
@[simp] theorem Block.setHex_errCode (b : Block) (s : BitString) (n : Nat) : (b.setHex s n).errCode = b.errCode := rfl
@[simp] theorem Block.setHex_msg (b : Block) (s : BitString) (n : Nat) : (b.setHex s n).msg = b.msg := rfl
@[simp] theorem Block.setHex_msgLen (b : Block) (s : BitString) (n : Nat) : (b.setHex s n).msgLen = b.msgLen := rfl
@[simp] theorem Block.setHex_bits (b : Block) (s : BitString) (n : Nat) : (b.setHex s n).bits = s := rfl
@[simp] theorem Block.setHex_bitLen (b : Block) (s : BitString) (n : Nat) :
    (b.setHex s n).bitLen = BitVec.ofNat 16 (4 * n) := rfl
@[simp] theorem Block.setHex_out (b : Block) (s : BitString) (n : Nat) : (b.setHex s n).out = b.out := rfl
@[simp] theorem Block.setHex_outLen (b : Block) (s : BitString) (n : Nat) : (b.setHex s n).outLen = b.outLen := rfl
@[simp] theorem Block.setHex_pay (b : Block) (s : BitString) (n : Nat) : (b.setHex s n).pay = b.pay := rfl
@[simp] theorem Block.setHex_payLen (b : Block) (s : BitString) (n : Nat) : (b.setHex s n).payLen = b.payLen := rfl
@[simp] theorem Block.setHex_csCalc (b : Block) (s : BitString) (n : Nat) : (b.setHex s n).csCalc = b.csCalc := rfl
@[simp] theorem Block.setHex_csRef (b : Block) (s : BitString) (n : Nat) : (b.setHex s n).csRef = b.csRef := rfl
@[simp] theorem Block.setHex_v2Idx (b : Block) (s : BitString) (n : Nat) : (b.setHex s n).v2Idx = b.v2Idx := rfl
@[simp] theorem Block.setHex_v3PreIdx (b : Block) (s : BitString) (n : Nat) :
    (b.setHex s n).v3PreIdx = b.v3PreIdx := rfl
@[simp] theorem Block.setHex_v3DatIdx (b : Block) (s : BitString) (n : Nat) :
    (b.setHex s n).v3DatIdx = b.v3DatIdx := rfl
@[simp] theorem Block.setHex_bit (b : Block) (s : BitString) (n : Nat) (i : Nat) :
    (b.setHex s n).bit i = s.getD i false := rfl

/-! ### setV2 -/

@[simp] theorem Block.setV2_cmd (b : Block) (k : Nat) : (b.setV2 k).cmd = b.cmd := rfl
@[simp] theorem Block.setV2_ok (b : Block) (k : Nat) : (b.setV2 k).status.ok = b.status.ok := rfl
@[simp] theorem Block.setV2_err (b : Block) (k : Nat) : (b.setV2 k).status.err = b.status.err := rfl
@[simp] theorem Block.setV2_v2pre (b : Block) (k : Nat) : (b.setV2 k).status.v2pre = true := rfl
@[simp] theorem Block.setV2_v3pre (b : Block) (k : Nat) : (b.setV2 k).status.v3pre = b.status.v3pre := rfl
@[simp] theorem Block.setV2_path (b : Block) (k : Nat) : (b.setV2 k).status.path = b.status.path := rfl
@[simp] theorem Block.setV2_csok (b : Block) (k : Nat) : (b.setV2 k).status.csok = b.status.csok := rfl
@[simp] theorem Block.setV2_errCode (b : Block) (k : Nat) : (b.setV2 k).errCode = b.errCode := rfl
@[simp] theorem Block.setV2_msg (b : Block) (k : Nat) : (b.setV2 k).msg = b.msg := rfl
@[simp] theorem Block.setV2_msgLen (b : Block) (k : Nat) : (b.setV2 k).msgLen = b.msgLen := rfl
@[simp] theorem Block.setV2_bits (b : Block) (k : Nat) : (b.setV2 k).bits = b.bits := rfl
@[simp] theorem Block.setV2_bitLen (b : Block) (k : Nat) : (b.setV2 k).bitLen = b.bitLen := rfl
@[simp] theorem Block.setV2_out (b : Block) (k : Nat) : (b.setV2 k).out = b.out := rfl
@[simp] theorem Block.setV2_outLen (b : Block) (k : Nat) : (b.setV2 k).outLen = b.outLen := rfl
@[simp] theorem Block.setV2_pay (b : Block) (k : Nat) : (b.setV2 k).pay = b.pay := rfl
@[simp] theorem Block.setV2_payLen (b : Block) (k : Nat) : (b.setV2 k).payLen = b.payLen := rfl
@[simp] theorem Block.setV2_csCalc (b : Block) (k : Nat) : (b.setV2 k).csCalc = b.csCalc := rfl
@[simp] theorem Block.setV2_csRef (b : Block) (k : Nat) : (b.setV2 k).csRef = b.csRef := rfl
@[simp] theorem Block.setV2_v2Idx (b : Block) (k : Nat) : (b.setV2 k).v2Idx = BitVec.ofNat 16 k := rfl
@[simp] theorem Block.setV2_v3PreIdx (b : Block) (k : Nat) : (b.setV2 k).v3PreIdx = b.v3PreIdx := rfl
@[simp] theorem Block.setV2_v3DatIdx (b : Block) (k : Nat) : (b.setV2 k).v3DatIdx = b.v3DatIdx := rfl
@[simp] theorem Block.setV2_bit (b : Block) (k : Nat) (i : Nat) :
    (b.setV2 k).bit i = b.bit i := rfl

/-! ### setV3 -/

@[simp] theorem Block.setV3_cmd (b : Block) (p d : Nat) : (b.setV3 p d).cmd = b.cmd := rfl
@[simp] theorem Block.setV3_ok (b : Block) (p d : Nat) : (b.setV3 p d).status.ok = b.status.ok := rfl
@[simp] theorem Block.setV3_err (b : Block) (p d : Nat) : (b.setV3 p d).status.err = b.status.err := rfl
@[simp] theorem Block.setV3_v2pre (b : Block) (p d : Nat) : (b.setV3 p d).status.v2pre = b.status.v2pre := rfl
@[simp] theorem Block.setV3_v3pre (b : Block) (p d : Nat) : (b.setV3 p d).status.v3pre = true := rfl
@[simp] theorem Block.setV3_path (b : Block) (p d : Nat) : (b.setV3 p d).status.path = b.status.path := rfl
@[simp] theorem Block.setV3_csok (b : Block) (p d : Nat) : (b.setV3 p d).status.csok = b.status.csok := rfl
@[simp] theorem Block.setV3_errCode (b : Block) (p d : Nat) : (b.setV3 p d).errCode = b.errCode := rfl
@[simp] theorem Block.setV3_msg (b : Block) (p d : Nat) : (b.setV3 p d).msg = b.msg := rfl
@[simp] theorem Block.setV3_msgLen (b : Block) (p d : Nat) : (b.setV3 p d).msgLen = b.msgLen := rfl
@[simp] theorem Block.setV3_bits (b : Block) (p d : Nat) : (b.setV3 p d).bits = b.bits := rfl
@[simp] theorem Block.setV3_bitLen (b : Block) (p d : Nat) : (b.setV3 p d).bitLen = b.bitLen := rfl
@[simp] theorem Block.setV3_out (b : Block) (p d : Nat) : (b.setV3 p d).out = b.out := rfl
@[simp] theorem Block.setV3_outLen (b : Block) (p d : Nat) : (b.setV3 p d).outLen = b.outLen := rfl
@[simp] theorem Block.setV3_pay (b : Block) (p d : Nat) : (b.setV3 p d).pay = b.pay := rfl
@[simp] theorem Block.setV3_payLen (b : Block) (p d : Nat) : (b.setV3 p d).payLen = b.payLen := rfl
@[simp] theorem Block.setV3_csCalc (b : Block) (p d : Nat) : (b.setV3 p d).csCalc = b.csCalc := rfl
@[simp] theorem Block.setV3_csRef (b : Block) (p d : Nat) : (b.setV3 p d).csRef = b.csRef := rfl
@[simp] theorem Block.setV3_v2Idx (b : Block) (p d : Nat) : (b.setV3 p d).v2Idx = b.v2Idx := rfl
@[simp] theorem Block.setV3_v3PreIdx (b : Block) (p d : Nat) : (b.setV3 p d).v3PreIdx = BitVec.ofNat 16 p := rfl
@[simp] theorem Block.setV3_v3DatIdx (b : Block) (p d : Nat) : (b.setV3 p d).v3DatIdx = BitVec.ofNat 16 d := rfl
@[simp] theorem Block.setV3_bit (b : Block) (p d : Nat) (i : Nat) :
    (b.setV3 p d).bit i = b.bit i := rfl

/-! ### setOut -/

@[simp] theorem Block.setOut_cmd (b : Block) (l : List Byte) (p : BitVec 2) : (b.setOut l p).cmd = b.cmd := rfl
@[simp] theorem Block.setOut_ok (b : Block) (l : List Byte) (p : BitVec 2) :
    (b.setOut l p).status.ok = b.status.ok := rfl
@[simp] theorem Block.setOut_err (b : Block) (l : List Byte) (p : BitVec 2) :
    (b.setOut l p).status.err = b.status.err := rfl
@[simp] theorem Block.setOut_v2pre (b : Block) (l : List Byte) (p : BitVec 2) :
    (b.setOut l p).status.v2pre = b.status.v2pre := rfl
@[simp] theorem Block.setOut_v3pre (b : Block) (l : List Byte) (p : BitVec 2) :
    (b.setOut l p).status.v3pre = b.status.v3pre := rfl
@[simp] theorem Block.setOut_path (b : Block) (l : List Byte) (p : BitVec 2) : (b.setOut l p).status.path = p := rfl
@[simp] theorem Block.setOut_csok (b : Block) (l : List Byte) (p : BitVec 2) :
    (b.setOut l p).status.csok = b.status.csok := rfl
@[simp] theorem Block.setOut_errCode (b : Block) (l : List Byte) (p : BitVec 2) :
    (b.setOut l p).errCode = b.errCode := rfl
@[simp] theorem Block.setOut_msg (b : Block) (l : List Byte) (p : BitVec 2) : (b.setOut l p).msg = b.msg := rfl
@[simp] theorem Block.setOut_msgLen (b : Block) (l : List Byte) (p : BitVec 2) :
    (b.setOut l p).msgLen = b.msgLen := rfl
@[simp] theorem Block.setOut_bits (b : Block) (l : List Byte) (p : BitVec 2) : (b.setOut l p).bits = b.bits := rfl
@[simp] theorem Block.setOut_bitLen (b : Block) (l : List Byte) (p : BitVec 2) :
    (b.setOut l p).bitLen = b.bitLen := rfl
@[simp] theorem Block.setOut_out (b : Block) (l : List Byte) (p : BitVec 2) :
    (b.setOut l p).out = (b.out.write 0 (BitVec.ofNat 8 (8 * l.length))).writeAll 1 l := rfl
@[simp] theorem Block.setOut_outLen (b : Block) (l : List Byte) (p : BitVec 2) :
    (b.setOut l p).outLen = BitVec.ofNat 8 (l.length + 1) := rfl
@[simp] theorem Block.setOut_pay (b : Block) (l : List Byte) (p : BitVec 2) : (b.setOut l p).pay = b.pay := rfl
@[simp] theorem Block.setOut_payLen (b : Block) (l : List Byte) (p : BitVec 2) :
    (b.setOut l p).payLen = b.payLen := rfl
@[simp] theorem Block.setOut_csCalc (b : Block) (l : List Byte) (p : BitVec 2) :
    (b.setOut l p).csCalc = b.csCalc := rfl
@[simp] theorem Block.setOut_csRef (b : Block) (l : List Byte) (p : BitVec 2) : (b.setOut l p).csRef = b.csRef := rfl
@[simp] theorem Block.setOut_v2Idx (b : Block) (l : List Byte) (p : BitVec 2) : (b.setOut l p).v2Idx = b.v2Idx := rfl
@[simp] theorem Block.setOut_v3PreIdx (b : Block) (l : List Byte) (p : BitVec 2) :
    (b.setOut l p).v3PreIdx = b.v3PreIdx := rfl
@[simp] theorem Block.setOut_v3DatIdx (b : Block) (l : List Byte) (p : BitVec 2) :
    (b.setOut l p).v3DatIdx = b.v3DatIdx := rfl
@[simp] theorem Block.setOut_bit (b : Block) (l : List Byte) (p : BitVec 2) (i : Nat) :
    (b.setOut l p).bit i = b.bit i := rfl

/-! ### setPay -/

@[simp] theorem Block.setPay_cmd (b : Block) (l : List Byte) : (b.setPay l).cmd = b.cmd := rfl
@[simp] theorem Block.setPay_ok (b : Block) (l : List Byte) : (b.setPay l).status.ok = b.status.ok := rfl
@[simp] theorem Block.setPay_err (b : Block) (l : List Byte) : (b.setPay l).status.err = b.status.err := rfl
@[simp] theorem Block.setPay_v2pre (b : Block) (l : List Byte) : (b.setPay l).status.v2pre = b.status.v2pre := rfl
@[simp] theorem Block.setPay_v3pre (b : Block) (l : List Byte) : (b.setPay l).status.v3pre = b.status.v3pre := rfl
@[simp] theorem Block.setPay_path (b : Block) (l : List Byte) : (b.setPay l).status.path = b.status.path := rfl
@[simp] theorem Block.setPay_csok (b : Block) (l : List Byte) : (b.setPay l).status.csok = b.status.csok := rfl
@[simp] theorem Block.setPay_errCode (b : Block) (l : List Byte) : (b.setPay l).errCode = b.errCode := rfl
@[simp] theorem Block.setPay_msg (b : Block) (l : List Byte) : (b.setPay l).msg = b.msg := rfl
@[simp] theorem Block.setPay_msgLen (b : Block) (l : List Byte) : (b.setPay l).msgLen = b.msgLen := rfl
@[simp] theorem Block.setPay_bits (b : Block) (l : List Byte) : (b.setPay l).bits = b.bits := rfl
@[simp] theorem Block.setPay_bitLen (b : Block) (l : List Byte) : (b.setPay l).bitLen = b.bitLen := rfl
@[simp] theorem Block.setPay_out (b : Block) (l : List Byte) : (b.setPay l).out = b.out := rfl
@[simp] theorem Block.setPay_outLen (b : Block) (l : List Byte) : (b.setPay l).outLen = b.outLen := rfl
@[simp] theorem Block.setPay_pay (b : Block) (l : List Byte) : (b.setPay l).pay = b.pay.writeAll 0 l := rfl
@[simp] theorem Block.setPay_payLen (b : Block) (l : List Byte) : (b.setPay l).payLen = BitVec.ofNat 8 l.length := rfl
@[simp] theorem Block.setPay_csCalc (b : Block) (l : List Byte) : (b.setPay l).csCalc = b.csCalc := rfl
@[simp] theorem Block.setPay_csRef (b : Block) (l : List Byte) : (b.setPay l).csRef = b.csRef := rfl
@[simp] theorem Block.setPay_v2Idx (b : Block) (l : List Byte) : (b.setPay l).v2Idx = b.v2Idx := rfl
@[simp] theorem Block.setPay_v3PreIdx (b : Block) (l : List Byte) : (b.setPay l).v3PreIdx = b.v3PreIdx := rfl
@[simp] theorem Block.setPay_v3DatIdx (b : Block) (l : List Byte) : (b.setPay l).v3DatIdx = b.v3DatIdx := rfl
@[simp] theorem Block.setPay_bit (b : Block) (l : List Byte) (i : Nat) :
    (b.setPay l).bit i = b.bit i := rfl

/-! ### setCs -/

@[simp] theorem Block.setCs_cmd (b : Block) (x r : Byte) (p : Bool) : (b.setCs x r p).cmd = b.cmd := rfl
@[simp] theorem Block.setCs_ok (b : Block) (x r : Byte) (p : Bool) : (b.setCs x r p).status.ok = b.status.ok := rfl
@[simp] theorem Block.setCs_err (b : Block) (x r : Byte) (p : Bool) : (b.setCs x r p).status.err = b.status.err := rfl
@[simp] theorem Block.setCs_v2pre (b : Block) (x r : Byte) (p : Bool) :
    (b.setCs x r p).status.v2pre = b.status.v2pre := rfl
@[simp] theorem Block.setCs_v3pre (b : Block) (x r : Byte) (p : Bool) :
    (b.setCs x r p).status.v3pre = b.status.v3pre := rfl
@[simp] theorem Block.setCs_path (b : Block) (x r : Byte) (p : Bool) :
    (b.setCs x r p).status.path = b.status.path := rfl
@[simp] theorem Block.setCs_csok (b : Block) (x r : Byte) (p : Bool) : (b.setCs x r p).status.csok = p := rfl
@[simp] theorem Block.setCs_errCode (b : Block) (x r : Byte) (p : Bool) : (b.setCs x r p).errCode = b.errCode := rfl
@[simp] theorem Block.setCs_msg (b : Block) (x r : Byte) (p : Bool) : (b.setCs x r p).msg = b.msg := rfl
@[simp] theorem Block.setCs_msgLen (b : Block) (x r : Byte) (p : Bool) : (b.setCs x r p).msgLen = b.msgLen := rfl
@[simp] theorem Block.setCs_bits (b : Block) (x r : Byte) (p : Bool) : (b.setCs x r p).bits = b.bits := rfl
@[simp] theorem Block.setCs_bitLen (b : Block) (x r : Byte) (p : Bool) : (b.setCs x r p).bitLen = b.bitLen := rfl
@[simp] theorem Block.setCs_out (b : Block) (x r : Byte) (p : Bool) : (b.setCs x r p).out = b.out := rfl
@[simp] theorem Block.setCs_outLen (b : Block) (x r : Byte) (p : Bool) : (b.setCs x r p).outLen = b.outLen := rfl
@[simp] theorem Block.setCs_pay (b : Block) (x r : Byte) (p : Bool) : (b.setCs x r p).pay = b.pay := rfl
@[simp] theorem Block.setCs_payLen (b : Block) (x r : Byte) (p : Bool) : (b.setCs x r p).payLen = b.payLen := rfl
@[simp] theorem Block.setCs_csCalc (b : Block) (x r : Byte) (p : Bool) : (b.setCs x r p).csCalc = x := rfl
@[simp] theorem Block.setCs_csRef (b : Block) (x r : Byte) (p : Bool) : (b.setCs x r p).csRef = r := rfl
@[simp] theorem Block.setCs_v2Idx (b : Block) (x r : Byte) (p : Bool) : (b.setCs x r p).v2Idx = b.v2Idx := rfl
@[simp] theorem Block.setCs_v3PreIdx (b : Block) (x r : Byte) (p : Bool) :
    (b.setCs x r p).v3PreIdx = b.v3PreIdx := rfl
@[simp] theorem Block.setCs_v3DatIdx (b : Block) (x r : Byte) (p : Bool) :
    (b.setCs x r p).v3DatIdx = b.v3DatIdx := rfl
@[simp] theorem Block.setCs_bit (b : Block) (x r : Byte) (p : Bool) (i : Nat) :
    (b.setCs x r p).bit i = b.bit i := rfl

/-! ### finish -/

@[simp] theorem Block.finish_cmd (b : Block) (c : ErrCode) : (b.finish c).cmd = b.cmd := rfl
@[simp] theorem Block.finish_ok (b : Block) (c : ErrCode) : (b.finish c).status.ok = (c == .none) := rfl
@[simp] theorem Block.finish_err (b : Block) (c : ErrCode) : (b.finish c).status.err = (c != .none) := rfl
@[simp] theorem Block.finish_v2pre (b : Block) (c : ErrCode) : (b.finish c).status.v2pre = b.status.v2pre := rfl
@[simp] theorem Block.finish_v3pre (b : Block) (c : ErrCode) : (b.finish c).status.v3pre = b.status.v3pre := rfl
@[simp] theorem Block.finish_path (b : Block) (c : ErrCode) : (b.finish c).status.path = b.status.path := rfl
@[simp] theorem Block.finish_csok (b : Block) (c : ErrCode) : (b.finish c).status.csok = b.status.csok := rfl
@[simp] theorem Block.finish_errCode (b : Block) (c : ErrCode) : (b.finish c).errCode = c.code := rfl
@[simp] theorem Block.finish_msg (b : Block) (c : ErrCode) : (b.finish c).msg = b.msg := rfl
@[simp] theorem Block.finish_msgLen (b : Block) (c : ErrCode) : (b.finish c).msgLen = b.msgLen := rfl
@[simp] theorem Block.finish_bits (b : Block) (c : ErrCode) : (b.finish c).bits = b.bits := rfl
@[simp] theorem Block.finish_bitLen (b : Block) (c : ErrCode) : (b.finish c).bitLen = b.bitLen := rfl
@[simp] theorem Block.finish_out (b : Block) (c : ErrCode) : (b.finish c).out = b.out := rfl
@[simp] theorem Block.finish_outLen (b : Block) (c : ErrCode) : (b.finish c).outLen = b.outLen := rfl
@[simp] theorem Block.finish_pay (b : Block) (c : ErrCode) : (b.finish c).pay = b.pay := rfl
@[simp] theorem Block.finish_payLen (b : Block) (c : ErrCode) : (b.finish c).payLen = b.payLen := rfl
@[simp] theorem Block.finish_csCalc (b : Block) (c : ErrCode) : (b.finish c).csCalc = b.csCalc := rfl
@[simp] theorem Block.finish_csRef (b : Block) (c : ErrCode) : (b.finish c).csRef = b.csRef := rfl
@[simp] theorem Block.finish_v2Idx (b : Block) (c : ErrCode) : (b.finish c).v2Idx = b.v2Idx := rfl
@[simp] theorem Block.finish_v3PreIdx (b : Block) (c : ErrCode) : (b.finish c).v3PreIdx = b.v3PreIdx := rfl
@[simp] theorem Block.finish_v3DatIdx (b : Block) (c : ErrCode) : (b.finish c).v3DatIdx = b.v3DatIdx := rfl
@[simp] theorem Block.finish_bit (b : Block) (c : ErrCode) (i : Nat) : (b.finish c).bit i = b.bit i := rfl

/-! ### Parameters (00_scope.md R5) -/

@[simp] theorem msgCap_val : Config.msgCap = 256 := rfl
@[simp] theorem maxK_val : Config.maxK = 31 := rfl
@[simp] theorem payCap_val : Config.payCap = 32 := rfl
@[simp] theorem outCap_val : Config.outCap = 32 := rfl
@[simp] theorem bitCap_val : Config.bitCap = 1024 := rfl
@[simp] theorem addrSpace_val : Config.addrSpace = 4096 := rfl
theorem addrSpace_width : Config.addrSpace = 2 ^ Config.addrW := rfl

/-! ### Outcomes and the host's side -/

@[simp] theorem finishWith_eq (c : ErrCode) (b : Block) : finishWith (c, b) = b.finish c := rfl
@[simp] theorem applyReset_block (s : State) : (applyReset s).block = Block.reset := rfl
@[simp] theorem applyReset_pending (s : State) : (applyReset s).pending = s.pending := rfl
@[simp] theorem applyReset_reads (s : State) : (applyReset s).reads = s.reads := rfl
@[simp] theorem State.load_block (s : State) (p : List Word) : (s.load p).block = s.block := rfl
@[simp] theorem State.load_pending (s : State) (p : List Word) : (s.load p).pending = p.map .access := rfl
@[simp] theorem State.load_reads (s : State) (p : List Word) : (s.load p).reads = s.reads := rfl
@[simp] theorem State.issueNext_some (s : State) (w : Word) :
    s.issueNext (some w) = { s with pending := .access w :: s.pending } := rfl
@[simp] theorem State.issueNext_none (s : State) : s.issueNext none = s := rfl
@[simp] theorem nextOf_next (t : State) : nextOf (.next t) = some t := rfl

/-- An issued command goes on, in the state its rule leaves after CMD took the code. -/
theorem issueAs_next (op : Byte) (rule : Block → Block) (s : State) :
    issueAs op rule s = .next { s with block := rule (s.block.setCmd op) } := rfl

end Sys2Proof.Machine
end

