-- ==== Sys2Proof/Laws/Bits.lean ====
section
/-! SUPPORT. Bit strings: the byte built from eight bits, the packed view, the locator, the expansion of hex characters,
and hex digits. -/

namespace Sys2Proof.Machine

/-! ## Bytes and bits -/

/-- Bit `j` of the byte built from `f` is `f j`. -/
theorem byteOfBits_getLsbD (f : Nat → Bool) (j : Nat) (h : j < 8) : (byteOfBits f).getLsbD j = f j := by
  have key : ∀ b0 b1 b2 b3 b4 b5 b6 b7 : Bool, ∀ j : Fin 8,
      (BitVec.ofNat 8 ([b0.toNat <<< 0, b1.toNat <<< 1, b2.toNat <<< 2, b3.toNat <<< 3, b4.toNat <<< 4,
        b5.toNat <<< 5, b6.toNat <<< 6, b7.toNat <<< 7]).sum).getLsbD j
      = [b0, b1, b2, b3, b4, b5, b6, b7].getD j false := by decide
  have h2 := key (f 0) (f 1) (f 2) (f 3) (f 4) (f 5) (f 6) (f 7) ⟨j, h⟩
  have h3 : byteOfBits f = BitVec.ofNat 8 ([(f 0).toNat <<< 0, (f 1).toNat <<< 1, (f 2).toNat <<< 2,
    (f 3).toNat <<< 3, (f 4).toNat <<< 4, (f 5).toNat <<< 5, (f 6).toNat <<< 6, (f 7).toNat <<< 7]).sum := rfl
  rw [h3, h2]
  have : j = 0 ∨ j = 1 ∨ j = 2 ∨ j = 3 ∨ j = 4 ∨ j = 5 ∨ j = 6 ∨ j = 7 := by omega
  rcases this with rfl | rfl | rfl | rfl | rfl | rfl | rfl | rfl <;> rfl

/-- The leftmost of eight bits is the most significant of the byte they number. -/
theorem num8_getLsbD (f : Nat → Bool) (j : Nat) (h : j < 8) :
    (BitVec.ofNat 8 (num ((List.range 8).map f))).getLsbD (7 - j) = f j := by
  have key : ∀ b0 b1 b2 b3 b4 b5 b6 b7 : Bool, ∀ j : Fin 8,
      (BitVec.ofNat 8 (num [b0, b1, b2, b3, b4, b5, b6, b7])).getLsbD (7 - j)
      = [b0, b1, b2, b3, b4, b5, b6, b7].getD j false := by decide
  have h2 := key (f 0) (f 1) (f 2) (f 3) (f 4) (f 5) (f 6) (f 7) ⟨j, h⟩
  have h3 : (List.range 8).map f = [f 0, f 1, f 2, f 3, f 4, f 5, f 6, f 7] := rfl
  rw [h3, h2]
  have : j = 0 ∨ j = 1 ∨ j = 2 ∨ j = 3 ∨ j = 4 ∨ j = 5 ∨ j = 6 ∨ j = 7 := by omega
  rcases this with rfl | rfl | rfl | rfl | rfl | rfl | rfl | rfl <;> rfl

/-- BITS past its end reads 0. -/
theorem Block.bit_of_length_le {b : Block} {i : Nat} (h : b.bits.length ≤ i) : b.bit i = false := by
  simp [Block.bit, List.getD_eq_getElem?_getD, List.getElem?_eq_none h]

theorem v2Byte_getLsbD (s : BitString) (c j : Nat) (h : j < 8) :
    (v2Byte s c).getLsbD j = s.getD (c + 2 * j + 1) false := byteOfBits_getLsbD _ j h

theorem v3Byte_getLsbD (s : BitString) (c j : Nat) (h : j < 8) :
    (v3Byte s c).getLsbD j = s.getD (c + j) false := byteOfBits_getLsbD _ j h

theorem bitbuf_getLsbD (b : Block) (k j : Nat) (h : j < 8) :
    (b.bitbuf k).getLsbD (7 - j) = b.bit (8 * k + j) := num8_getLsbD _ j h

@[simp] theorem v2Bytes_length (s : BitString) (n i : Nat) : (v2Bytes s n i).length = (n - i) / 16 := by
  simp [v2Bytes]

@[simp] theorem v3Bytes_length (s : BitString) (n d : Nat) : (v3Bytes s n d).length = (n - d) / 8 := by
  simp [v3Bytes]

theorem v2Bytes_getD (s : BitString) (n i k : Nat) (h : k < (n - i) / 16) :
    (v2Bytes s n i).getD k 0 = v2Byte s (i + 16 * k) := by
  simp [v2Bytes, List.getD_eq_getElem?_getD, h]

theorem v3Bytes_getD (s : BitString) (n d k : Nat) (h : k < (n - d) / 8) :
    (v3Bytes s n d).getD k 0 = v3Byte s (d + 8 * k) := by
  simp [v3Bytes, List.getD_eq_getElem?_getD, h]

/-! ## The locator -/

theorem matchesAt_iff (s : BitString) (i : Nat) (p : List Bool) :
    matchesAt s i p = true ↔ ∀ j, j < p.length → s.getD (i + j) false = p.getD j false := by
  induction p generalizing i with
  | nil => simp [matchesAt]
  | cons x p ih =>
    rw [matchesAt, Bool.and_eq_true, ih, beq_iff_eq]
    constructor
    · rintro ⟨h0, h⟩ j hj
      cases j with
      | zero => simpa using h0
      | succ j =>
        have := h j (by simpa using hj)
        rw [show i + 1 + j = i + (j + 1) by omega] at this
        rw [this]; rfl
    · intro h
      refine ⟨by simpa using h 0 (by simp), fun j hj => ?_⟩
      have := h (j + 1) (by simpa using hj)
      rw [show i + (j + 1) = i + 1 + j by omega] at this
      rw [this]; rfl

/-- The locator finds an index exactly when it is the first occurrence. -/
theorem first_eq_some_iff (s : BitString) (n : Nat) (p : List Bool) (i : Nat) :
    first s n p = some i ↔ FirstAt s n p i := by
  unfold first FirstAt OccursAt
  rw [List.find?_range_eq_some, matchesAt_iff, List.mem_range]
  constructor
  · rintro ⟨h, hi, hmin⟩
    refine ⟨⟨by omega, h⟩, fun i' hi' hocc => ?_⟩
    have h2 := hmin i' hi'
    rw [Bool.not_eq_true', ← Bool.not_eq_true, matchesAt_iff] at h2
    exact h2 hocc.2
  · rintro ⟨⟨hi, h⟩, hmin⟩
    refine ⟨h, by omega, fun j hj => ?_⟩
    rw [Bool.not_eq_true', ← Bool.not_eq_true, matchesAt_iff]
    exact fun hocc => hmin j hj ⟨by omega, hocc⟩

/-- The locator finds nothing exactly when the pattern is absent. -/
theorem first_eq_none_iff (s : BitString) (n : Nat) (p : List Bool) :
    first s n p = none ↔ Absent s n p := by
  unfold first Absent OccursAt
  rw [List.find?_range_eq_none]
  constructor
  · rintro h i ⟨hi, hocc⟩
    have h2 := h i (by omega)
    rw [Bool.not_eq_true', ← Bool.not_eq_true, matchesAt_iff] at h2
    exact h2 hocc
  · intro h i hi
    rw [Bool.not_eq_true', ← Bool.not_eq_true, matchesAt_iff]
    exact fun hocc => h i ⟨by omega, hocc⟩

theorem firstAt_unique {s : BitString} {n : Nat} {p : List Bool} {i i' : Nat} (h : FirstAt s n p i)
    (h' : FirstAt s n p i') : i = i' := by
  rw [← first_eq_some_iff] at h h'
  exact Option.some.inj (h.symm.trans h')

theorem absent_not_firstAt {s : BitString} {n : Nat} {p : List Bool} {i : Nat} (h : Absent s n p) :
    ¬ FirstAt s n p i := fun f => h i f.1

/-- A pattern that occurs is located, no later than there. -/
theorem first_of_occursAt {s : BitString} {n : Nat} {p : List Bool} {i : Nat} (h : OccursAt s n p i) :
    ∃ d, first s n p = some d ∧ d ≤ i := by
  cases hf : first s n p with
  | none => exact absurd h ((first_eq_none_iff s n p).1 hf i)
  | some d =>
    refine ⟨d, rfl, Nat.le_of_not_lt fun hlt => ?_⟩
    exact ((first_eq_some_iff s n p d).1 hf).2 i hlt h

/-- The V3 marker lies inside the V3 preamble (43_v3_decoder.md R172). -/
theorem marker_inside_preamble {s : BitString} {n p : Nat} (h : OccursAt s n Config.v3Preamble p) :
    OccursAt s n Config.v3Marker (p + 4) := by
  refine ⟨by have := h.1; simp at this ⊢; omega, fun j hj => ?_⟩
  have h4 := h.2 (4 + j) (by simp at hj ⊢; omega)
  rw [show p + (4 + j) = p + 4 + j by omega] at h4
  rw [h4]
  have : j = 0 ∨ j = 1 ∨ j = 2 ∨ j = 3 := by simp at hj; omega
  rcases this with rfl | rfl | rfl | rfl <;> rfl

/-! ## Hex characters to bits -/

theorem bin_getD (w v j : Nat) (h : j < w) : (bin w v).getD j false = v.testBit (w - 1 - j) := by
  simp [bin, List.getD_eq_getElem?_getD, h]

@[simp] theorem bin_length (w v : Nat) : (bin w v).length = w := by simp [bin]

theorem expandBits_succ (m : Memory) (start count : Nat) :
    expandBits m start (count + 1) = expandBits m start count ++ bin 4 (hexvalOf (m.read (start + count))) := by
  simp [expandBits, List.range_succ]

@[simp] theorem expandBits_length (m : Memory) (start count : Nat) :
    (expandBits m start count).length = 4 * count := by
  induction count with
  | zero => rfl
  | succ n ih => rw [expandBits_succ]; simp [ih]; omega

/-- Bit `j` of character `i` (41_hexbit.md R132). -/
theorem expandBits_getD (m : Memory) (start count i j : Nat) (hi : i < count) (hj : j < 4) :
    (expandBits m start count).getD (4 * i + j) false = (hexvalOf (m.read (start + i))).testBit (3 - j) := by
  induction count with
  | zero => omega
  | succ n ih =>
    rw [expandBits_succ]
    by_cases h : i = n
    · subst h
      rw [List.getD_append_right _ _ _ _ (by simp), expandBits_length,
        show 4 * i + j - 4 * i = j by omega, bin_getD 4 _ j hj]
    · rw [List.getD_append _ _ _ _ (by simp; omega)]
      exact ih (by omega)

theorem expandBits_getD_tail (m : Memory) (start count i : Nat) (h : 4 * count ≤ i) :
    (expandBits m start count).getD i false = false := by
  rw [List.getD_eq_default _ _ (by simpa using h)]

theorem allHex_iff (m : Memory) (start count : Nat) :
    allHex m start count = true ↔ ∀ i, i < count → (hexval (m.read (start + i))).isSome = true := by
  simp [allHex]

theorem allHex_iff_AllHex (b : Block) (start count : Nat) :
    allHex b.msg start count = true ↔ AllHex b start count := allHex_iff _ _ _

/-- A hex digit's value has four bits. -/
theorem hexvalOf_lt (c : Byte) : hexvalOf c < 16 := by
  unfold hexvalOf hexval
  dsimp only
  split
  · simp; omega
  · split
    · simp; omega
    · split
      · simp; omega
      · simp

/-! ## Nibbles and hex digits -/

theorem hi_lt (b : Byte) : hi b < 16 := by unfold hi; have := b.isLt; omega

theorem lo_lt (b : Byte) : lo b < 16 := by unfold lo; omega

theorem hexval_hexDigit : ∀ v : Fin 16, hexval (hexDigit v) = some v.val := by decide

theorem hexvalOf_hexDigit (v : Nat) (h : v < 16) : hexvalOf (hexDigit v) = v := by
  unfold hexvalOf; rw [hexval_hexDigit ⟨v, h⟩]; rfl

theorem hexval_hexDigit_isSome (v : Nat) (h : v < 16) : (hexval (hexDigit v)).isSome = true := by
  rw [hexval_hexDigit ⟨v, h⟩]; rfl

/-- A byte is the pair of the digits of its nibbles (45_checksum.md R211, 10_state.md R36). -/
theorem pair_hexDigits (b : Byte) : pair (hexDigit (hi b)) (hexDigit (lo b)) = b := by
  unfold pair
  rw [hexvalOf_hexDigit _ (hi_lt b), hexvalOf_hexDigit _ (lo_lt b)]
  have h : (hi b <<< 4) ||| lo b = b.toNat := by
    have := Nat.shiftLeft_add_eq_or_of_lt (show lo b < 2 ^ 4 from lo_lt b) (hi b)
    rw [← this, Nat.shiftLeft_eq]
    unfold hi lo
    omega
  rw [h]; simp

end Sys2Proof.Machine
end

