-- ==== Sys2Proof/Laws/Memory.lean ====
section
/-! SUPPORT. Byte buffers: read after write, and every operation keeps the canonical form. -/

namespace Sys2Proof.Machine.Memory

@[simp] theorem read_nil (a : Nat) : Memory.read [] a = 0 := rfl

theorem read_cons (k : Nat) (v : Byte) (m : Memory) (a : Nat) :
    Memory.read ((k, v) :: m) a = if k = a then v else m.read a := rfl

theorem read_insert (m : Memory) (a : Nat) (v : Byte) (i : Nat) :
    (m.insert a v).read i = if i = a then v else m.read i := by
  induction m with
  | nil => simp [Memory.insert, read_cons, eq_comm]
  | cons c m ih =>
    obtain ⟨k, x⟩ := c
    simp only [Memory.insert]
    split
    · simp [read_cons, eq_comm]
    · split
      · subst_vars; by_cases h : i = k <;> simp [read_cons, h, Ne.symm]
      · rw [read_cons, ih, read_cons]
        by_cases h : k = i <;> simp [h]
        intro h'; omega

theorem read_erase (m : Memory) (a i : Nat) :
    (m.erase a).read i = if i = a then 0 else m.read i := by
  induction m with
  | nil => simp [Memory.erase]
  | cons c m ih =>
    obtain ⟨k, x⟩ := c
    unfold Memory.erase at ih ⊢
    by_cases h : k = a
    · subst h
      by_cases hi : i = k
      · simpa [hi] using ih
      · simpa [hi, read_cons, Ne.symm hi] using ih
    · by_cases hi : k = i
      · subst hi; simp [h, read_cons]
      · simpa [h, hi, read_cons] using ih

/-- A read after a write gives the byte written at that place, and the old byte at every other. -/
theorem read_write (m : Memory) (a : Nat) (v : Byte) (i : Nat) :
    (m.write a v).read i = if i = a then v else m.read i := by
  unfold Memory.write
  split
  · rename_i h; rw [read_erase, h]
  · exact read_insert m a v i

theorem read_write_same (m : Memory) (a : Nat) (v : Byte) : (m.write a v).read a = v := by
  simp [read_write]

theorem read_write_other (m : Memory) {a i : Nat} (v : Byte) (h : i ≠ a) :
    (m.write a v).read i = m.read i := by
  simp [read_write, h]

/-- A read after a run of writes from `a` on. -/
theorem read_writeAll (m : Memory) (a : Nat) (vs : List Byte) (i : Nat) :
    (m.writeAll a vs).read i = if a ≤ i ∧ i < a + vs.length then vs.getD (i - a) 0 else m.read i := by
  induction vs generalizing m a with
  | nil => rw [Memory.writeAll, if_neg (by simp only [List.length_nil]; omega)]
  | cons v vs ih =>
    rw [Memory.writeAll, ih, read_write]
    by_cases h : i = a
    · subst h; simp
    · by_cases h2 : a ≤ i ∧ i < a + (v :: vs).length
      · have h3 : a + 1 ≤ i ∧ i < a + 1 + vs.length := by simp only [List.length_cons] at h2; omega
        obtain ⟨j, hj⟩ : ∃ j, i = a + 1 + j := ⟨i - (a + 1), by omega⟩
        subst hj
        rw [if_pos h3, if_pos h2, show a + 1 + j - a = j + 1 by omega, show a + 1 + j - (a + 1) = j by omega]
        rfl
      · have h3 : ¬ (a + 1 ≤ i ∧ i < a + 1 + vs.length) := by simp only [List.length_cons] at h2; omega
        rw [if_neg h2, if_neg h3, if_neg h]

/-! ## The canonical form -/

theorem wfFrom_mono {lo lo' : Nat} {m : Memory} (h : lo ≤ lo') (w : wfFrom lo' m = true) : wfFrom lo m = true := by
  cases m with
  | nil => rfl
  | cons c m =>
    simp only [wfFrom, Bool.and_eq_true, decide_eq_true_eq] at w ⊢
    exact ⟨⟨Nat.le_trans h w.1.1, w.1.2⟩, w.2⟩

theorem insert_wfFrom {lo a : Nat} {v : Byte} {m : Memory} (ha : lo ≤ a) (hv : v ≠ 0) (w : wfFrom lo m = true) :
    wfFrom lo (m.insert a v) = true := by
  induction m generalizing lo with
  | nil =>
    simp only [Memory.insert, wfFrom, Bool.and_eq_true, decide_eq_true_eq]
    exact ⟨⟨ha, hv⟩, trivial⟩
  | cons c m ih =>
    obtain ⟨k, x⟩ := c
    simp only [wfFrom, Bool.and_eq_true, decide_eq_true_eq] at w
    simp only [Memory.insert]
    split
    · simp only [wfFrom, Bool.and_eq_true, decide_eq_true_eq]
      exact ⟨⟨ha, hv⟩, ⟨by omega, w.1.2⟩, w.2⟩
    · split
      · subst_vars; simp only [wfFrom, Bool.and_eq_true, decide_eq_true_eq]; exact ⟨⟨ha, hv⟩, w.2⟩
      · simp only [wfFrom, Bool.and_eq_true, decide_eq_true_eq]
        exact ⟨w.1, ih (by omega) w.2⟩

theorem filter_wfFrom {lo : Nat} (q : Host.Cell → Bool) {m : Memory} (w : wfFrom lo m = true) :
    wfFrom lo (List.filter q m) = true := by
  induction m generalizing lo with
  | nil => simp [wfFrom]
  | cons c m ih =>
    obtain ⟨k, x⟩ := c
    simp only [wfFrom, Bool.and_eq_true, decide_eq_true_eq] at w
    rw [List.filter_cons]
    split
    · simp only [wfFrom, Bool.and_eq_true, decide_eq_true_eq]; exact ⟨w.1, ih w.2⟩
    · exact wfFrom_mono (by omega) (ih w.2)

/-- A write keeps the canonical form. -/
theorem write_wf {m : Memory} (a : Nat) (v : Byte) (w : m.wf = true) : (m.write a v).wf = true := by
  unfold Memory.wf at *
  unfold Memory.write
  split
  · exact filter_wfFrom _ w
  · exact insert_wfFrom (Nat.zero_le _) ‹_› w

/-- A run of writes keeps the canonical form. -/
theorem writeAll_wf {m : Memory} (a : Nat) (vs : List Byte) (w : m.wf = true) : (m.writeAll a vs).wf = true := by
  induction vs generalizing m a with
  | nil => exact w
  | cons v vs ih => exact ih (a + 1) (write_wf a v w)

theorem nil_wf : Memory.wf [] = true := rfl

theorem insert_within {cap a : Nat} {v : Byte} {m : Memory} (ha : a < cap) (w : m.within cap = true) :
    (m.insert a v).within cap = true := by
  induction m with
  | nil => simp [Memory.insert, Memory.within, ha]
  | cons c m ih =>
    obtain ⟨k, x⟩ := c
    simp only [Memory.within, List.all_cons, Bool.and_eq_true, decide_eq_true_eq] at w ih
    simp only [Memory.insert]
    split
    · simpa [Memory.within, ha] using w
    · split
      · simpa [Memory.within, ha] using w.2
      · simpa [Memory.within, w.1] using ih w.2

/-- A write below the capacity keeps the buffer within it. -/
theorem write_within {cap a : Nat} (v : Byte) {m : Memory} (ha : a < cap) (w : m.within cap = true) :
    (m.write a v).within cap = true := by
  unfold Memory.write
  split
  · unfold Memory.erase Memory.within at *
    rw [List.all_eq_true] at *
    exact fun c hc => w c (List.mem_of_mem_filter hc)
  · exact insert_within ha w

/-- A run of writes below the capacity keeps the buffer within it. -/
theorem writeAll_within {cap a : Nat} (vs : List Byte) {m : Memory} (ha : a + vs.length ≤ cap)
    (w : m.within cap = true) : (m.writeAll a vs).within cap = true := by
  induction vs generalizing m a with
  | nil => exact w
  | cons v vs ih =>
    simp only [List.length_cons] at ha
    exact ih (by omega) (write_within v (by omega) w)

/-- A buffer reads 0x00 past what it holds. -/
theorem read_of_within {cap : Nat} {m : Memory} {k : Nat} (h : m.within cap = true) (hk : cap ≤ k) : m.read k = 0 := by
  induction m with
  | nil => rfl
  | cons c m ih =>
    obtain ⟨a, v⟩ := c
    simp only [Memory.within, List.all_cons, Bool.and_eq_true, decide_eq_true_eq] at h ih
    rw [read_cons, if_neg (by omega)]
    exact ih h.2

/-- Two buffers in canonical form that read alike are the same data. -/
theorem eq_of_read {lo : Nat} {m m' : Memory} (w : wfFrom lo m = true) (w' : wfFrom lo m' = true)
    (h : ∀ i, m.read i = m'.read i) : m = m' := by
  have low : ∀ {l : Nat} {x : Memory}, wfFrom l x = true → ∀ i, i < l → x.read i = 0 := by
    intro l x hx
    induction x generalizing l with
    | nil => simp
    | cons c x ih =>
      obtain ⟨k, v⟩ := c
      simp only [wfFrom, Bool.and_eq_true, decide_eq_true_eq] at hx
      intro i hi
      rw [read_cons, if_neg (by omega)]
      exact ih hx.2 i (by omega)
  induction m generalizing lo m' with
  | nil =>
    cases m' with
    | nil => rfl
    | cons c m' =>
      obtain ⟨k, v⟩ := c
      simp only [wfFrom, Bool.and_eq_true, decide_eq_true_eq] at w'
      have := h k
      simp only [read_nil, read_cons, if_pos] at this
      exact absurd this.symm w'.1.2
  | cons c m ih =>
    obtain ⟨k, v⟩ := c
    simp only [wfFrom, Bool.and_eq_true, decide_eq_true_eq] at w
    cases m' with
    | nil =>
      have := h k
      simp only [read_nil, read_cons, if_pos] at this
      exact absurd this w.1.2
    | cons c' m' =>
      obtain ⟨k', v'⟩ := c'
      simp only [wfFrom, Bool.and_eq_true, decide_eq_true_eq] at w'
      have hk : k = k' := by
        rcases Nat.lt_trichotomy k k' with hlt | heq | hgt
        · have := h k
          rw [read_cons, if_pos rfl, read_cons, if_neg (by omega), low w'.2 k (by omega)] at this
          exact absurd this w.1.2
        · exact heq
        · have := h k'
          rw [read_cons, if_neg (by omega), low w.2 k' (by omega), read_cons, if_pos rfl] at this
          exact absurd this.symm w'.1.2
      subst hk
      have hv : v = v' := by simpa [read_cons] using h k
      subst hv
      have hm : m = m' := by
        refine ih w.2 w'.2 fun i => ?_
        by_cases hi : i = k
        · subst hi; rw [low w.2 i (by omega), low w'.2 i (by omega)]
        · simpa [read_cons, Ne.symm hi] using h i
      rw [hm]

end Sys2Proof.Machine.Memory
end

