-- ==== Sys2Proof/Laws/Bus.lean ====
section
/-! SUPPORT. The host bus: what a read depends on, region by region (20_memory.md R64), and the 16-bit registers in two
bytes (R67). -/

namespace Sys2Proof.Machine

/-- Two blocks read alike at an address of the map where they agree on what the map puts there. -/
theorem readMap_congr {b c : Block} {a : Nat}
    (hcmd : a = 0x000 → b.cmd = c.cmd)
    (hst : a = 0x001 → b.status = c.status)
    (herr : a = 0x002 → b.errCode = c.errCode)
    (hmlen : a = 0x004 ∨ a = 0x005 → b.msgLen = c.msgLen)
    (hblen : a = 0x006 ∨ a = 0x007 → b.bitLen = c.bitLen)
    (holen : a = 0x008 ∨ a = 0x015 → b.outLen = c.outLen)
    (hplen : a = 0x009 → b.payLen = c.payLen)
    (hcalc : a = 0x00A → b.csCalc = c.csCalc)
    (href : a = 0x00B → b.csRef = c.csRef)
    (hv2 : a = 0x00C ∨ a = 0x00D → b.v2Idx = c.v2Idx)
    (hv3p : a = 0x00E ∨ a = 0x00F → b.v3PreIdx = c.v3PreIdx)
    (hv3d : a = 0x010 ∨ a = 0x011 → b.v3DatIdx = c.v3DatIdx)
    (hview : a = 0x012 ∨ a = 0x013 ∨ a = 0x014 → b.pay = c.pay)
    (hmsg : 0x100 ≤ a → a < 0x200 → b.msg.read (a - 0x100) = c.msg.read (a - 0x100))
    (hbits : 0x200 ≤ a → a < 0x280 → b.bits = c.bits)
    (hout : 0x300 ≤ a → a < 0x320 → b.out = c.out)
    (hpay : 0x320 ≤ a → a < 0x340 → b.pay = c.pay)
    (hhex : 0x340 ≤ a → a < 0x380 → b.out = c.out ∧ b.outLen = c.outLen) :
    b.readMap a = c.readMap a := by
  unfold Block.readMap Block.readReg
  refine ite_congr rfl (fun _ => ?_) fun h1 => ?_
  · refine ite_congr rfl hcmd fun _ => ?_
    refine ite_congr rfl (fun h => by rw [hst h]) fun _ => ?_
    refine ite_congr rfl herr fun _ => ?_
    refine ite_congr rfl (fun h => by rw [hmlen (.inl h)]) fun _ => ?_
    refine ite_congr rfl (fun h => by rw [hmlen (.inr h)]) fun _ => ?_
    refine ite_congr rfl (fun h => by rw [hblen (.inl h)]) fun _ => ?_
    refine ite_congr rfl (fun h => by rw [hblen (.inr h)]) fun _ => ?_
    refine ite_congr rfl (fun h => holen (.inl h)) fun _ => ?_
    refine ite_congr rfl hplen fun _ => ?_
    refine ite_congr rfl hcalc fun _ => ?_
    refine ite_congr rfl href fun _ => ?_
    refine ite_congr rfl (fun h => by rw [hv2 (.inl h)]) fun _ => ?_
    refine ite_congr rfl (fun h => by rw [hv2 (.inr h)]) fun _ => ?_
    refine ite_congr rfl (fun h => by rw [hv3p (.inl h)]) fun _ => ?_
    refine ite_congr rfl (fun h => by rw [hv3p (.inr h)]) fun _ => ?_
    refine ite_congr rfl (fun h => by rw [hv3d (.inl h)]) fun _ => ?_
    refine ite_congr rfl (fun h => by rw [hv3d (.inr h)]) fun _ => ?_
    refine ite_congr rfl (fun h => by unfold Block.typeId; rw [hview (.inl h)]) fun _ => ?_
    refine ite_congr rfl (fun h => by unfold Block.typeId; rw [hview (.inr (.inl h))]) fun _ => ?_
    refine ite_congr rfl (fun h => by unfold Block.declLen; rw [hview (.inr (.inr h))]) fun _ => ?_
    exact ite_congr rfl (fun h => by unfold Block.outhexLen; rw [holen (.inr h)]) fun _ => rfl
  · refine ite_congr rfl (fun h => hmsg (by omega) h) fun h2 => ?_
    refine ite_congr rfl (fun h => by unfold Block.bitbuf Block.bit; rw [hbits (by omega) h]) fun h3 => ?_
    refine ite_congr rfl (fun _ => rfl) fun h4 => ?_
    refine ite_congr rfl (fun h => by rw [hout (by omega) h]) fun h5 => ?_
    refine ite_congr rfl (fun h => by rw [hpay (by omega) h]) fun h6 => ?_
    exact ite_congr rfl
      (fun h => by unfold Block.outhex; rw [(hhex (by omega) h).1, (hhex (by omega) h).2]) fun _ => rfl

/-! ## 16-bit registers in two bytes (R67) -/

theorem loByte_toNat (h : Half) : (loByte h).toNat = h.toNat % 256 := by
  simp [loByte, BitVec.extractLsb'_toNat]

theorem hiByte_toNat (h : Half) : (hiByte h).toNat = h.toNat / 256 := by
  have := h.isLt
  simp [hiByte, BitVec.extractLsb'_toNat, Nat.shiftRight_eq_div_pow]; omega

theorem half_eq_bytes (h : Half) : h.toNat = (hiByte h).toNat * 256 + (loByte h).toNat := by
  rw [loByte_toNat, hiByte_toNat]; omega

/-- The value of an `RDW` as a number (30_encoding.md R98). -/
theorem rdwValue_toNat (first second : Byte) : (rdwValue first second).toNat = first.toNat + 256 * second.toNat := by
  have h1 := first.isLt
  have h2 := second.isLt
  simp only [rdwValue, BitVec.toNat_add, BitVec.toNat_shiftLeft, BitVec.toNat_setWidth, Nat.shiftLeft_eq]
  omega

/-- Reading a 16-bit register low byte first gives it back. -/
theorem rdwValue_bytes (h : Half) : rdwValue (loByte h) (hiByte h) = h :=
  BitVec.eq_of_toNat_eq (by rw [rdwValue_toNat, loByte_toNat, hiByte_toNat]; omega)

/-- Two reads at the end of the observation are what `RDW` combines. -/
theorem State.rdwResult_append (s : State) (l : List Byte) (first second : Byte) (h : s.reads = l ++ [first, second]) :
    s.rdwResult = some (rdwValue first second) := by
  unfold State.rdwResult; rw [h, List.reverse_append]; rfl

theorem setLo_bytes (h : Half) (v : Byte) : loByte (setLo h v) = v ∧ hiByte (setLo h v) = hiByte h := by
  constructor <;>
  · apply BitVec.eq_of_getLsbD_eq
    intro i hi
    have : i = 0 ∨ i = 1 ∨ i = 2 ∨ i = 3 ∨ i = 4 ∨ i = 5 ∨ i = 6 ∨ i = 7 := by omega
    rcases this with rfl | rfl | rfl | rfl | rfl | rfl | rfl | rfl <;>
      simp [loByte, hiByte, setLo]

theorem setHi_bytes (h : Half) (v : Byte) : loByte (setHi h v) = loByte h ∧ hiByte (setHi h v) = v := by
  constructor <;>
  · apply BitVec.eq_of_getLsbD_eq
    intro i hi
    have : i = 0 ∨ i = 1 ∨ i = 2 ∨ i = 3 ∨ i = 4 ∨ i = 5 ∨ i = 6 ∨ i = 7 := by omega
    rcases this with rfl | rfl | rfl | rfl | rfl | rfl | rfl | rfl <;>
      simp [loByte, hiByte, setHi]

theorem typeId_bytes (b : Block) : hiByte b.typeId = b.pay.read 1 ∧ loByte b.typeId = b.pay.read 2 := by
  constructor <;>
  · apply BitVec.eq_of_getLsbD_eq
    intro i hi
    have : i = 0 ∨ i = 1 ∨ i = 2 ∨ i = 3 ∨ i = 4 ∨ i = 5 ∨ i = 6 ∨ i = 7 := by omega
    rcases this with rfl | rfl | rfl | rfl | rfl | rfl | rfl | rfl <;>
      simp [loByte, hiByte, Block.typeId]

/-! ## Where each region of the map is -/

theorem busRead_msg (b : Block) {i : Nat} (h : i < 256) : b.busRead (0x100 + i) = b.msg.read i := by
  unfold Block.busRead Block.readMap
  rw [addrSpace_val, Nat.mod_eq_of_lt (by omega), if_neg (by omega), if_pos (by omega), Nat.add_sub_cancel_left]

theorem busRead_bitbuf (b : Block) {k : Nat} (h : k < 128) : b.busRead (0x200 + k) = b.bitbuf k := by
  unfold Block.busRead Block.readMap
  rw [addrSpace_val, Nat.mod_eq_of_lt (by omega), if_neg (by omega), if_neg (by omega), if_pos (by omega),
    Nat.add_sub_cancel_left]

theorem busRead_out (b : Block) {k : Nat} (h : k < 32) : b.busRead (0x300 + k) = b.out.read k := by
  unfold Block.busRead Block.readMap
  rw [addrSpace_val, Nat.mod_eq_of_lt (by omega), if_neg (by omega), if_neg (by omega), if_neg (by omega),
    if_neg (by omega), if_pos (by omega), Nat.add_sub_cancel_left]

theorem busRead_pay (b : Block) {k : Nat} (h : k < 32) : b.busRead (0x320 + k) = b.pay.read k := by
  unfold Block.busRead Block.readMap
  rw [addrSpace_val, Nat.mod_eq_of_lt (by omega), if_neg (by omega), if_neg (by omega), if_neg (by omega),
    if_neg (by omega), if_neg (by omega), if_pos (by omega), Nat.add_sub_cancel_left]

theorem busRead_outhex (b : Block) {k : Nat} (h : k < 64) : b.busRead (0x340 + k) = b.outhex k := by
  unfold Block.busRead Block.readMap
  rw [addrSpace_val, Nat.mod_eq_of_lt (by omega), if_neg (by omega), if_neg (by omega), if_neg (by omega),
    if_neg (by omega), if_neg (by omega), if_neg (by omega), if_pos (by omega), Nat.add_sub_cancel_left]

end Sys2Proof.Machine
end

