-- ==== Sys2Proof/Laws/Decoders.lean ====
section
/-! SUPPORT. What each procedure of the converter and the decoders can do, said once: `expand`, `emit`, `v2_run`,
`v3_run`. Callers cite these and do not unfold the procedures. -/

namespace Sys2Proof.Machine

/-! ## expand (41_hexbit.md R132) -/

theorem expand_ok {b : Block} {start count : Nat} (h : allHex b.msg start count = true) :
    b.expand start count = (.none, b.clearHex.setHex (expandBits b.msg start count) count) := by
  unfold Block.expand; rw [if_pos h]

theorem expand_bad {b : Block} {start count : Nat} (h : allHex b.msg start count = false) :
    b.expand start count = (.invalidHex, b.clearHex) := by
  unfold Block.expand; rw [h]; rfl

/-- A successful expansion leaves BITS holding the characters' bits, if the count fits BITS. -/
theorem expand_holdsHex (b : Block) (start count : Nat) (hc : 4 * count < 2 ^ 16) :
    HoldsHex (b.clearHex.setHex (expandBits b.msg start count) count) start count :=
  ⟨by simp; omega, fun i j hi hj => expandBits_getD b.msg start count i j hi hj,
    fun i hi => expandBits_getD_tail b.msg start count i hi⟩

/-! ## emit (42_v2_decoder.md R152) -/

theorem emit_empty {b : Block} {bytes : List Byte} {path : BitVec 2} (h : bytes.length = 0) :
    b.emit bytes path = (.emptyDecode, b) := by
  unfold Block.emit; rw [if_pos h]

theorem emit_long {b : Block} {bytes : List Byte} {path : BitVec 2} (h : 31 < bytes.length) :
    b.emit bytes path = (.payloadTooLong, b) := by
  unfold Block.emit; rw [if_neg (by omega), if_pos h]

theorem emit_fits {b : Block} {bytes : List Byte} {path : BitVec 2} (h : 1 ≤ bytes.length)
    (h' : bytes.length ≤ 31) :
    b.emit bytes path = (.none, b.setOut bytes path) := by
  unfold Block.emit; rw [if_neg (by omega), if_neg (Nat.not_lt.2 h')]

/-- What OUT reads after a decode into a cleared OUT. -/
theorem setOut_read {b : Block} (h : b.out = []) (bytes : List Byte) (path : BitVec 2) (k : Nat) :
    (b.setOut bytes path).out.read k =
      if k = 0 then BitVec.ofNat 8 (8 * bytes.length)
      else if k < 1 + bytes.length then bytes.getD (k - 1) 0 else 0 := by
  rw [Block.setOut_out, h, Memory.read_writeAll, Memory.read_write]
  by_cases hk : k = 0
  · subst hk; simp
  · simp only [hk, if_false, Memory.read_nil]
    have : 1 ≤ k := by omega
    simp [this]

/-- OUT holds the V2 result after the V2 decoder's bytes are put out. -/
theorem setOut_v2Output {b : Block} (h : b.out = []) {i : Nat} (h1 : (b.bitLen.toNat - i) / 16 ≤ 31) :
    V2Output (b.setOut (v2Bytes b.bits b.bitLen.toNat i) 0b01) i (v2Count b i) := by
  refine ⟨rfl, ?_, ?_, fun k j hk hj => ?_, fun k hk => ?_⟩
  · rw [Block.setOut_outLen, v2Bytes_length, BitVec.toNat_ofNat]; unfold v2Count; omega
  · rw [setOut_read h, if_pos rfl, v2Bytes_length, BitVec.toNat_ofNat]; unfold v2Count; omega
  · unfold v2Count at hk
    rw [setOut_read h, if_neg (by omega), if_pos (by rw [v2Bytes_length]; omega), Nat.add_sub_cancel,
      v2Bytes_getD _ _ _ _ hk, v2Byte_getLsbD _ _ _ hj]
    rfl
  · unfold v2Count at hk
    rw [setOut_read h, if_neg (by omega), if_neg (by rw [v2Bytes_length]; omega)]

/-- OUT holds the V3 result after the V3 decoder's bytes are put out. -/
theorem setOut_v3Output {b : Block} (h : b.out = []) {d : Nat} (h1 : (b.bitLen.toNat - d) / 8 ≤ 31) :
    V3Output (b.setOut (v3Bytes b.bits b.bitLen.toNat d) 0b10) d (v3Count b d) := by
  refine ⟨rfl, ?_, ?_, fun k j hk hj => ?_, fun k hk => ?_⟩
  · rw [Block.setOut_outLen, v3Bytes_length, BitVec.toNat_ofNat]; unfold v3Count; omega
  · rw [setOut_read h, if_pos rfl, v3Bytes_length, BitVec.toNat_ofNat]; unfold v3Count; omega
  · unfold v3Count at hk
    rw [setOut_read h, if_neg (by omega), if_pos (by rw [v3Bytes_length]; omega), Nat.add_sub_cancel,
      v3Bytes_getD _ _ _ _ hk, v3Byte_getLsbD _ _ _ hj]
    rfl
  · unfold v3Count at hk
    rw [setOut_read h, if_neg (by omega), if_neg (by rw [v3Bytes_length]; omega)]

/-! ## v2_run (R153) -/

/-- What a decode starts from: group DEC without the other decoder's fields cleared. -/
def OutCleared (b : Block) : Prop := b.out = [] ∧ b.outLen = 0 ∧ b.status.path = 0

theorem OutCleared.noOutput {b : Block} (h : OutCleared b) : NoOutput b :=
  ⟨fun k => by rw [h.1]; rfl, h.2.1, h.2.2⟩

/-- A V2 attempt changes OUT, OUT_LEN, PATH, V2PRE and V2_IDX only. -/
def V2Frame (b c : Block) : Prop :=
  c = { b with
    out := c.out, outLen := c.outLen, v2Idx := c.v2Idx
    status := { b.status with v2pre := c.status.v2pre, path := c.status.path } }

/-- A V3 attempt changes OUT, OUT_LEN, PATH and the V3 fields only. -/
def V3Frame (b c : Block) : Prop :=
  c = { b with
    out := c.out, outLen := c.outLen, v3PreIdx := c.v3PreIdx, v3DatIdx := c.v3DatIdx
    status := { b.status with v3pre := c.status.v3pre, path := c.status.path } }

/-- Everything `v2_run` can do on a cleared output: the outcome it returns is the one its result shows. -/
theorem v2Run_spec (b : Block) (ho : OutCleared b) (h2 : NoV2 b) :
    ∃ c e, b.v2Run = (c, e) ∧ V2Outcome e c ∧ (c ≠ .none → OutCleared e) ∧ V2Frame b e := by
  obtain ⟨ho1, ho2, ho3⟩ := ho
  have hn : b.bitLen.toNat < 65536 := b.bitLen.isLt
  unfold Block.v2Run
  cases hf : first b.bits b.bitLen.toNat Config.v2Preamble with
  | none =>
    exact ⟨_, _, rfl, .absent ((first_eq_none_iff _ _ _).1 hf) h2, fun _ => ⟨ho1, ho2, ho3⟩, rfl⟩
  | some i =>
    have hfa := (first_eq_some_iff _ _ _ _).1 hf
    have hi : i + 8 ≤ b.bitLen.toNat := hfa.1.1
    have hidx : (BitVec.ofNat 16 i).toNat = i := by simp; omega
    dsimp only
    rcases Nat.lt_or_ge (b.bitLen.toNat - i) 16 with h16 | h16
    · rw [emit_empty (by rw [v2Bytes_length]; omega)]
      exact ⟨_, _, rfl, .empty i hfa h16 ⟨rfl, hidx⟩, fun _ => ⟨ho1, ho2, ho3⟩, rfl⟩
    · rcases Nat.lt_or_ge (b.bitLen.toNat - i) 512 with h512 | h512
      · rw [emit_fits (by rw [v2Bytes_length]; omega) (by rw [v2Bytes_length]; omega)]
        exact ⟨_, _, rfl, .decoded i hfa h16 h512 ⟨rfl, hidx⟩ (setOut_v2Output (b := b.setV2 i) ho1 (by
          rw [Block.setV2_bitLen]; omega)), fun h => absurd rfl h, rfl⟩
      · rw [emit_long (by rw [v2Bytes_length]; omega)]
        exact ⟨_, _, rfl, .tooLong i hfa h512 ⟨rfl, hidx⟩, fun _ => ⟨ho1, ho2, ho3⟩, rfl⟩

/-- Everything `v3_run` can do on a cleared output. -/
theorem v3Run_spec (b : Block) (ho : OutCleared b) (h3 : NoV3 b) :
    ∃ c e, b.v3Run = (c, e) ∧ V3Outcome e c ∧ (c ≠ .none → OutCleared e) ∧ V3Frame b e := by
  obtain ⟨ho1, ho2, ho3⟩ := ho
  have hn : b.bitLen.toNat < 65536 := b.bitLen.isLt
  unfold Block.v3Run
  cases hf : first b.bits b.bitLen.toNat Config.v3Preamble with
  | none =>
    exact ⟨_, _, rfl, .absent ((first_eq_none_iff _ _ _).1 hf) h3, fun _ => ⟨ho1, ho2, ho3⟩, rfl⟩
  | some p =>
    have hfp := (first_eq_some_iff _ _ _ _).1 hf
    obtain ⟨d, hd, hle⟩ := first_of_occursAt (marker_inside_preamble hfp.1)
    have hfd := (first_eq_some_iff _ _ _ _).1 hd
    have hp : p + 8 ≤ b.bitLen.toNat := hfp.1.1
    have hidp : (BitVec.ofNat 16 p).toNat = p := by simp; omega
    have hidd : (BitVec.ofNat 16 d).toNat = d := by simp; omega
    rw [hd]
    dsimp only
    rcases Nat.lt_or_ge (b.bitLen.toNat - d) 8 with h8 | h8
    · rw [emit_empty (by rw [v3Bytes_length]; omega)]
      exact ⟨_, _, rfl, .empty p d hfp hfd h8 ⟨rfl, hidp, hidd⟩, fun _ => ⟨ho1, ho2, ho3⟩, rfl⟩
    · rcases Nat.lt_or_ge (b.bitLen.toNat - d) 256 with h256 | h256
      · rw [emit_fits (by rw [v3Bytes_length]; omega) (by rw [v3Bytes_length]; omega)]
        exact ⟨_, _, rfl, .decoded p d hfp hfd h8 h256 ⟨rfl, hidp, hidd⟩ (setOut_v3Output (b := b.setV3 p d) ho1 (by
          rw [Block.setV3_bitLen]; omega)), fun h => absurd rfl h, rfl⟩
      · rw [emit_long (by rw [v3Bytes_length]; omega)]
        exact ⟨_, _, rfl, .tooLong p d hfp hfd h256 ⟨rfl, hidp, hidd⟩, fun _ => ⟨ho1, ho2, ho3⟩, rfl⟩

end Sys2Proof.Machine
end

