-- ==== Sys2Proof/Laws/Encoding.lean ====
section
/-! SUPPORT. The BUS24 fields as numbers, and the numbers the encoder spells (30_encoding.md R96, R97). -/

namespace Sys2Proof

theorem busZero_toNat (w : BusWord) : (busZero w).toNat = w.toNat / 2 ^ 20 % 8 := by
  simp [busZero, BitVec.extractLsb'_toNat, Nat.shiftRight_eq_div_pow]

theorem busAddr_eq (w : BusWord) : busAddr w = w.toNat / 2 ^ 8 % 2 ^ 12 := by
  simp [busAddr, BitVec.extractLsb'_toNat, Nat.shiftRight_eq_div_pow]

theorem busData_toNat (w : BusWord) : (busData w).toNat = w.toNat % 2 ^ 8 := by
  simp [busData, BitVec.extractLsb'_toNat]

/-- Bit 23 is the word's top bit. -/
theorem busW_iff (w : BusWord) : busW w = true ↔ w.toNat / 2 ^ 23 = 1 := by
  have h := w.isLt
  simp only [busW, BitVec.getLsbD, Nat.testBit, Nat.shiftRight_eq_div_pow, Nat.one_and_eq_mod_two,
    bne_iff_ne, ne_eq]
  omega

theorem encodeWrite_toNat {addr : Nat} (data : Byte) (h : addr < 4096) :
    (encodeWrite addr data).toNat = 0x800000 + addr * 256 + data.toNat := by
  have hd := data.isLt
  have h1 : (BitVec.ofNat 24 addr <<< 8).toNat = addr <<< 8 := by
    rw [BitVec.toNat_shiftLeft, BitVec.toNat_ofNat, Nat.shiftLeft_eq, Nat.shiftLeft_eq]; omega
  have h2 : 0x800000 ||| (addr <<< 8) = 0x800000 + addr <<< 8 := by
    have := Nat.shiftLeft_add_eq_or_of_lt (b := addr <<< 8) (i := 23) (by rw [Nat.shiftLeft_eq]; omega) 1
    rw [show (0x800000 : Nat) = 1 <<< 23 from rfl, this]
  have h3 : (0x800000 + addr <<< 8) = (0x8000 + addr) <<< 8 := by
    rw [Nat.shiftLeft_eq, Nat.shiftLeft_eq]; omega
  have h4 := Nat.shiftLeft_add_eq_or_of_lt (b := data.toNat) (i := 8) hd (0x8000 + addr)
  unfold encodeWrite
  rw [BitVec.toNat_or, BitVec.toNat_or, h1, BitVec.toNat_setWidth, Nat.mod_eq_of_lt (by omega),
    show (0x800000#24).toNat = 0x800000 from rfl, h2, h3, ← h4, Nat.shiftLeft_eq]
  omega

theorem encodeRead_toNat {addr : Nat} (h : addr < 4096) : (encodeRead addr).toNat = addr * 256 := by
  unfold encodeRead
  rw [BitVec.toNat_shiftLeft, BitVec.toNat_ofNat, Nat.shiftLeft_eq]; omega

namespace Machine

/-- The words R96 refuses, by their fields. -/
theorem noTransaction_iff (w : BusWord) :
    NoTransaction w ↔ (busZero w ≠ 0 ∨ (busW w = false ∧ busData w ≠ 0)) := by
  have h := w.isLt
  have hz : busZero w = 0 ↔ w.toNat / 2 ^ 20 % 8 = 0 := by
    rw [← BitVec.toNat_inj, busZero_toNat]; rfl
  have hd : busData w = 0 ↔ w.toNat % 2 ^ 8 = 0 := by
    rw [← BitVec.toNat_inj, busData_toNat]; rfl
  unfold NoTransaction
  rw [← Bool.not_eq_true, busW_iff, Ne, Ne, Ne, Ne, hz, hd]
  omega

/-- Everything the BUS24 decoder can answer. -/
theorem decodeBus24_cases (w : BusWord) :
    (NoTransaction w ∧
      (decodeBus24 w = .error (.zeroFieldNotZero w) ∨ decodeBus24 w = .error (.readWithData w))) ∨
    (¬ NoTransaction w ∧ w.toNat / 2 ^ 23 = 1 ∧ decodeBus24 w =
      .ok (.wr (w.toNat / 2 ^ 8 % 2 ^ 12) (BitVec.ofNat 8 (w.toNat % 2 ^ 8)))) ∨
    (¬ NoTransaction w ∧ w.toNat / 2 ^ 23 = 0 ∧ w.toNat % 2 ^ 8 = 0 ∧ decodeBus24 w =
      .ok (.rd (w.toNat / 2 ^ 8 % 2 ^ 12))) := by
  have hlt := w.isLt
  rw [noTransaction_iff]
  have hd : busData w = BitVec.ofNat 8 (w.toNat % 2 ^ 8) :=
    BitVec.eq_of_toNat_eq (by rw [busData_toNat]; simp)
  unfold decodeBus24
  by_cases hz : busZero w = 0
  · rw [if_neg (not_not.2 hz)]
    by_cases hw : busW w = true
    · right; left
      rw [if_pos hw, busAddr_eq, ← hd]
      refine ⟨?_, (busW_iff w).1 hw, rfl⟩
      rintro (h | ⟨h, -⟩)
      · exact h hz
      · rw [hw] at h; cases h
    · have h2 : w.toNat / 2 ^ 23 = 0 := by
        have := mt (busW_iff w).2 hw; omega
      rw [if_neg hw]
      by_cases h0 : busData w = 0
      · right; right
        rw [if_neg (not_not.2 h0), busAddr_eq]
        refine ⟨?_, h2, ?_, rfl⟩
        · rintro (h | ⟨-, h⟩)
          · exact h hz
          · exact h h0
        · have := congrArg BitVec.toNat h0; rwa [busData_toNat] at this
      · left
        rw [if_pos h0]
        exact ⟨.inr ⟨Bool.eq_false_iff.2 hw, h0⟩, .inr rfl⟩
  · left; rw [if_pos hz]; exact ⟨.inl hz, .inl rfl⟩

/-! ## Lines of the notation (R97, R98) -/

/-- A line that can be spelled expands to well-formed accesses, each of which has a word. -/
theorem AsmLine.wellFormed_of_fits {l : AsmLine} (h : l.fits = true) {i : Instr} (hi : i ∈ l.expand) :
    i.WellFormed := by
  unfold AsmLine.fits at h
  rw [Bool.and_eq_true, List.all_eq_true] at h
  exact h.2 i hi

/-- What `RDN` asks of its operands: the address in range, and every address it reads. -/
theorem AsmLine.rdn_fits_iff (addr n : Nat) : (AsmLine.rdn addr n).fits = true ↔ addr < 4096 ∧ addr + n ≤ 4096 := by
  simp only [AsmLine.fits, AsmLine.addrFits, AsmLine.expand, Bool.and_eq_true, decide_eq_true_eq, List.all_eq_true,
    List.mem_map, List.mem_range, forall_exists_index, and_imp, forall_apply_eq_imp_iff₂, Instr.wellFormed,
    show Config.addrSpace = 4096 from rfl]
  constructor
  · rintro ⟨h, hall⟩
    refine ⟨h, ?_⟩
    by_contra hc
    have := hall (n - 1) (by omega)
    omega
  · rintro ⟨h, hn⟩
    exact ⟨h, fun i hi => by omega⟩

end Machine

end Sys2Proof
end

