-- ==== Sys2Proof/Laws/Payload.lean ====
section
/-! SUPPORT. What the payload loads and the checksum procedure can do, said once (45_checksum.md R211 to R222). -/

namespace Sys2Proof.Machine

/-! ## Loads -/

/-- The byte of a pair of hex digits, as a number (R211). -/
theorem pair_toNat (c0 c1 : Byte) : (pair c0 c1).toNat = 16 * hexvalOf c0 + hexvalOf c1 := by
  have h0 := hexvalOf_lt c0
  have h1 := hexvalOf_lt c1
  unfold pair
  rw [← Nat.shiftLeft_add_eq_or_of_lt (show hexvalOf c1 < 2 ^ 4 from h1), Nat.shiftLeft_eq, BitVec.toNat_ofNat]
  omega

@[simp] theorem msgBytes_length (m : Memory) (n : Nat) : (msgBytes m n).length = n / 2 := by simp [msgBytes]

theorem msgBytes_getD (m : Memory) (n k : Nat) (h : k < n / 2) :
    (msgBytes m n).getD k 0 = pair (m.read (2 * k)) (m.read (2 * k + 1)) := by
  simp [msgBytes, List.getD_eq_getElem?_getD, h]

@[simp] theorem firstBytes_length (m : Memory) (n : Nat) : (firstBytes m n).length = n := by simp [firstBytes]

theorem firstBytes_getD (m : Memory) (n k : Nat) (h : k < n) : (firstBytes m n).getD k 0 = m.read k := by
  simp [firstBytes, List.getD_eq_getElem?_getD, h]

/-- PAY after a load into a cleared PAY. -/
theorem loaded_read (bytes : List Byte) (k : Nat) :
    (Memory.writeAll [] 0 bytes).read k = if k < bytes.length then bytes.getD k 0 else 0 := by
  rw [Memory.read_writeAll]; simp

/-! ## Checksums -/

/-- The payload sum over an even count of nibbles is the sum over its bytes. -/
theorem nibbleSum_even (b : Block) (n : Nat) : nibbleSum b.pay (2 * n) = nibbleTotal b n := by
  unfold nibbleSum nibbleTotal
  rw [show 2 * n / 2 = n by omega, if_neg (by omega), Nat.add_zero]
  rfl

/-- Over an odd count the last byte gives its high nibble only. -/
theorem nibbleSum_odd (b : Block) (n : Nat) :
    nibbleSum b.pay (2 * n + 1) = nibbleTotal b n + (b.pay.read (n + 1)).toNat / 16 := by
  unfold nibbleSum nibbleTotal
  rw [show (2 * n + 1) / 2 = n by omega, if_pos (by omega)]
  rfl

theorem csValue_toNat (m : Memory) (h : Nat) : (csValue m h).toNat = (nibbleSum m h + 246) % 256 := by
  unfold csValue
  rw [BitVec.toNat_sub, BitVec.toNat_ofNat, show Config.csBias.toNat = 10 from rfl]
  omega

theorem ck1Ref_toNat (b : Block) :
    (ck1Ref b.pay).toNat = (b.pay.read 7).toNat / 16 + 16 * ((b.pay.read 8).toNat % 16) := by
  have h6 : hi (payload b.pay 6) < 2 ^ 4 := hi_lt _
  have h7 := lo_lt (payload b.pay 7)
  unfold ck1Ref
  rw [Nat.lor_comm, ← Nat.shiftLeft_add_eq_or_of_lt h6, Nat.shiftLeft_eq, BitVec.toNat_ofNat,
    Nat.mod_eq_of_lt (by omega)]
  show lo (b.pay.read 8) * 2 ^ 4 + hi (b.pay.read 7) = _
  unfold hi lo
  omega

/-- A payload shorter than the variant reads: CS is cleared and nothing is compared (R218). -/
theorem csRun_short {b : Block} {h need : Nat} {ref : Memory → Byte} (hl : b.payLen.toNat < need + 1) :
    b.csRun h need ref = b.clearCs.finish .checksumRange := by
  unfold Block.csRun; rw [if_pos hl]

/-- A checksum command writes groups CS and STAT only. -/
def CsFrame (b c : Block) : Prop :=
  c = { b with
    csCalc := c.csCalc, csRef := c.csRef, errCode := c.errCode
    status := { b.status with ok := c.status.ok, err := c.status.err, csok := c.status.csok } }

/-- Everything the comparison can do (R218). -/
theorem csRun_compares {b : Block} {h need : Nat} {ref : Memory → Byte} (hl : need + 1 ≤ b.payLen.toNat) :
    Compared (b.csRun h need ref) (nibbleSum b.pay h) (ref b.pay).toNat ∧ CsFrame b (b.csRun h need ref) := by
  have hv := csValue_toNat b.pay h
  unfold Block.csRun
  rw [if_neg (by omega)]
  unfold Block.csCompare
  by_cases he : csValue b.pay h = ref b.pay
  · rw [if_pos he]
    refine ⟨⟨hv, rfl, fun _ => ⟨rfl, rfl, rfl, rfl⟩, fun hne => absurd ?_ hne⟩, rfl⟩
    rw [← hv, he]
  · rw [if_neg he]
    refine ⟨⟨hv, rfl, fun heq => absurd ?_ he, fun _ => ⟨rfl, rfl, rfl, rfl⟩⟩, rfl⟩
    exact BitVec.eq_of_toNat_eq (by rw [hv, heq])

theorem csRun_frame (b : Block) (h need : Nat) (ref : Memory → Byte) : CsFrame b (b.csRun h need ref) := by
  rcases Nat.lt_or_ge b.payLen.toNat (need + 1) with hl | hl
  · rw [csRun_short hl]; rfl
  · exact (csRun_compares hl).2

end Sys2Proof.Machine
end

