-- ==== Sys2Proof/Laws/PerInstr.lean ====
section
/-! SUPPORT. One fact about every instruction, an instruction at a time: its encoding has the width of its row and stays
within it (30_encoding.md R90, R92, R96, R97). -/

namespace Sys2Proof.Laws.EncodingWidth

/-- A command's word has 8 bits and is its code; an access's has 24, with bit 23 telling a write from a read. -/
def Statement (i : Instr) : Prop :=
  i.WellFormed →
    (encodeTableWord i).2 < 2 ^ (encodeTableWord i).1 ∧
    match i with
    | .wr addr data => (encodeTableWord i).1 = 24 ∧ (encodeTableWord i).2 = 2 ^ 23 + 2 ^ 8 * addr + data.toNat
    | .rd addr => (encodeTableWord i).1 = 24 ∧ (encodeTableWord i).2 = 2 ^ 8 * addr
    | _ => (encodeTableWord i).1 = 8

theorem nop : Statement .nop := fun _ => by decide

theorem pre : Statement .pre := fun _ => by decide

theorem h2b : Statement .h2b := fun _ => by decide

theorem v2d : Statement .v2d := fun _ => by decide

theorem v3d : Statement .v3d := fun _ => by decide

theorem ldp : Statement .ldp := fun _ => by decide

theorem ldo : Statement .ldo := fun _ => by decide

theorem ck1 : Statement .ck1 := fun _ => by decide

theorem ck2 : Statement .ck2 := fun _ => by decide

theorem ck4 : Statement .ck4 := fun _ => by decide

theorem ck5 : Statement .ck5 := fun _ => by decide

theorem wr (addr : Nat) (data : Byte) : Statement (.wr addr data) := fun h => by
  have h : addr < 4096 := of_decide_eq_true h
  have e : (encodeTableWord (.wr addr data)).2 = 2 ^ 23 + 2 ^ 8 * addr + data.toNat := by
    show (encodeWrite addr data).toNat = _
    rw [encodeWrite_toNat data h]; omega
  exact ⟨(encodeWrite addr data).isLt, rfl, e⟩

theorem rd (addr : Nat) : Statement (.rd addr) := fun h => by
  have h : addr < 4096 := of_decide_eq_true h
  have e : (encodeTableWord (.rd addr)).2 = 2 ^ 8 * addr := by
    show (encodeRead addr).toNat = _
    rw [encodeRead_toNat h]; omega
  exact ⟨(encodeRead addr).isLt, rfl, e⟩

end Sys2Proof.Laws.EncodingWidth
end

