-- ==== Sys2Proof/Laws/Preprocess.lean ====
section
/-! SUPPORT. The V2-then-V3 arbitration of PRE: everything it can do, said once. -/

namespace Sys2Proof.Machine

/-- Finishing changes nothing a V2 outcome looks at. -/
theorem V2Outcome.finish {e : Block} {c c' : ErrCode} (ho : V2Outcome e c) : V2Outcome (e.finish c') c := by
  cases ho with
  | absent a b => exact .absent a b
  | empty i a b c => exact .empty i a b c
  | tooLong i a b c => exact .tooLong i a b c
  | decoded i a b c d f => exact .decoded i a b c d f
/-- Finishing changes nothing a V3 outcome looks at. -/
theorem V3Outcome.finish {e : Block} {c c' : ErrCode} (ho : V3Outcome e c) : V3Outcome (e.finish c') c := by
  cases ho with
  | absent a b => exact .absent a b
  | empty p i a b c d => exact .empty p i a b c d
  | tooLong p i a b c d => exact .tooLong p i a b c d
  | decoded p i a b c d f g => exact .decoded p i a b c d f g

/-- A V2 outcome without a result looks only at what a V3 attempt keeps. -/
theorem V2Outcome.keptByV3 {e f : Block} {c : ErrCode} (ho : V2Outcome e c) (hc : c ≠ .none) (hf : V3Frame e f) :
    V2Outcome f c := by
  rw [hf]
  cases ho with
  | absent a b => exact .absent a b
  | empty i a b c => exact .empty i a b c
  | tooLong i a b c => exact .tooLong i a b c
  | decoded i a b c d f => exact absurd rfl hc

theorem V2Outcome.code_cases {e : Block} {c : ErrCode} (ho : V2Outcome e c) :
    c = .unrecognizedProtocol ∨ c = .emptyDecode ∨ c = .payloadTooLong ∨ c = .none := by
  cases ho <;> simp
theorem V3Outcome.code_cases {e : Block} {c : ErrCode} (ho : V3Outcome e c) :
    c = .unrecognizedProtocol ∨ c = .emptyDecode ∨ c = .payloadTooLong ∨ c = .none := by
  cases ho <;> simp

/-- The arbitration changes groups DEC and STAT only. -/
def DecFrame (b c : Block) : Prop :=
  c = { b with
    out := c.out, outLen := c.outLen, v2Idx := c.v2Idx, v3PreIdx := c.v3PreIdx, v3DatIdx := c.v3DatIdx
    errCode := c.errCode
    status := { c.status with csok := b.status.csok } }

/-- Everything the V2-then-V3 arbitration can do on a cleared DEC group (44_preprocessor.md R191 to R194). -/
theorem arbitrate_spec (b : Block) (ho : OutCleared b) (h2 : NoV2 b) (h3 : NoV3 b) :
    PreOutcome b.arbitrate ∧ DecFrame b b.arbitrate := by
  obtain ⟨c2, e, hr, hv, hcl, hf⟩ := v2Run_spec b ho h2
  unfold Block.arbitrate
  rw [hr]
  have h3e : NoV3 e := by rw [hf]; exact h3
  have tail : (c2 = .unrecognizedProtocol ∨ c2 = .emptyDecode) → PreOutcome e.fallback ∧ DecFrame b e.fallback := by
    intro hc2
    have hne : c2 ≠ .none := by rcases hc2 with h | h <;> rw [h] <;> simp
    obtain ⟨c3, f, hr3, hv3, hcl3, hf3⟩ := v3Run_spec e (hcl hne) h3e
    have hvf := hv.keptByV3 hne hf3
    have hfr : ∀ c, DecFrame b (f.finish c) := by
      intro c
      have hbf : f = _ := hf3
      rw [hf] at hbf
      rw [hbf]; rfl
    unfold Block.fallback
    rw [hr3]
    rcases hv3.code_cases with rfl | rfl | rfl | rfl
    · refine ⟨?_, hfr _⟩
      have hno := (hcl3 (by simp)).noOutput
      have hn3 : f.status.v3pre = false := by cases hv3 with | absent a b => exact b.1
      rcases hc2 with rfl | rfl
      · have hn2 : f.status.v2pre = false := by cases hvf with | absent a b => exact b.1
        have : f.bothFailed = .unrecognizedProtocol := by simp [Block.bothFailed, hn2, hn3]
        dsimp only; rw [this]
        exact .neither (hvf.finish) (hv3.finish) hno ⟨rfl, rfl, rfl⟩
      · have hn2 : f.status.v2pre = true := by cases hvf with | empty i a b c => exact c.1
        have : f.bothFailed = .emptyDecode := by simp [Block.bothFailed, hn2]
        dsimp only; rw [this]
        exact .bothEmpty _ _ (hvf.finish) (hv3.finish) (.inr rfl) (.inl rfl) (.inl rfl) hno ⟨rfl, rfl, rfl⟩
    · refine ⟨?_, hfr _⟩
      have hno := (hcl3 (by simp)).noOutput
      have hn3 : f.status.v3pre = true := by cases hv3 with | empty p i a b c d => exact d.1
      have : f.bothFailed = .emptyDecode := by simp [Block.bothFailed, hn3]
      dsimp only; rw [this]
      exact .bothEmpty _ _ (hvf.finish) (hv3.finish) hc2 (.inr rfl) (.inr rfl) hno ⟨rfl, rfl, rfl⟩
    · exact ⟨.v3TooLong _ (hvf.finish) hc2 (hv3.finish) (hcl3 (by simp)).noOutput ⟨rfl, rfl, rfl⟩, hfr _⟩
    · exact ⟨.v3 _ (hvf.finish) hc2 (hv3.finish) ⟨rfl, rfl, rfl⟩, hfr _⟩
  have hfe : ∀ c, DecFrame b (e.finish c) := by intro c; rw [hf]; rfl
  rcases hv.code_cases with rfl | rfl | rfl | rfl
  · exact tail (.inl rfl)
  · exact tail (.inr rfl)
  · exact ⟨.v2TooLong (hv.finish) h3e (hcl (by simp)).noOutput ⟨rfl, rfl, rfl⟩, hfe _⟩
  · exact ⟨.v2 (hv.finish) h3e ⟨rfl, rfl, rfl⟩, hfe _⟩

end Sys2Proof.Machine
end

