-- ==== Sys2Proof/Tests/Slice0.lean ====
section
/-! SUPPORT. The model's own tests. Expected values are those of spec/95_test_vectors.md (section named at each group) or
worked by hand from the rule named; a word under test is written out bit by bit from 30_encoding.md R92 and R96. Then a
witness for the hypotheses of each statement that has some. -/

namespace Sys2Proof.Tests

open Sys2Proof.Machine

/-- The codes of a text (00_scope.md R11). -/
def chars (s : String) : List Byte := s.toList.map (fun c => BitVec.ofNat 8 c.toNat)

/-- Right after reset, but with a text in MSG and its length in MSG_LEN. -/
def withMsg (s : String) : State :=
  { State.reset with block := { Block.reset with
      msg := Memory.writeAll [] 0 (chars s), msgLen := BitVec.ofNat 16 (chars s).length } }

/-- Right after reset, but with the given MSG_LEN and nothing in MSG. -/
def withMsgLen (n : Half) : State := { State.reset with block := { Block.reset with msgLen := n } }

/-- Right after reset, but with the given bits in BITS. -/
def withBits (s : BitString) : State :=
  { State.reset with block := { Block.reset with bits := s, bitLen := BitVec.ofNat 16 s.length } }

/-- Right after reset, but with the given bytes in PAY. -/
def withPay (bytes : List Byte) : State :=
  { State.reset with block := { Block.reset with
      pay := Memory.writeAll [] 0 bytes, payLen := BitVec.ofNat 8 bytes.length } }

/-- Right after reset, but with the given bytes in OUT and the V2 path. -/
def withOut (bytes : List Byte) : State :=
  { State.reset with block := { Block.reset with
      out := Memory.writeAll [] 0 bytes, outLen := BitVec.ofNat 8 bytes.length
      status := { Status.reset with v2pre := true, path := 0b01 } } }

/-- Right after reset, but with one word for the host to issue. -/
def issuing (w : Word) : State := { State.reset with pending := [.access w] }

/-- The block an instruction leaves. -/
def after (i : Instr) (s : State) : Block := ((nextOf (exec i s)).getD State.reset).block

/-- STATUS and ERRCODE after an instruction. -/
def ends (i : Instr) (s : State) : Byte × Byte := ((after i s).busRead 0x001, (after i s).busRead 0x002)

/-- The first `n` bytes read from address `a` after an instruction. -/
def reads (i : Instr) (s : State) (a n : Nat) : List Byte := (List.range n).map (fun k => (after i s).busRead (a + k))

/-! ## WellFormed refuses each ill-formed term -/

theorem test_wr_address_too_wide : ¬ Instr.WellFormed (.wr 0x1000 0) := by decide
theorem test_rd_address_too_wide : ¬ Instr.WellFormed (.rd 0x1000) := by decide
theorem test_wr_last_address : Instr.WellFormed (.wr 0xFFF 0xFF) := by decide
theorem test_rd_last_address : Instr.WellFormed (.rd 0xFFF) := by decide

/-! ## Decoding: every constructor, from its row of R92 or R96 -/

theorem test_decode_nop : decode (.cmd8 0b00000000) = .ok .nop := by decide
theorem test_decode_pre : decode (.cmd8 0b00000001) = .ok .pre := by decide
theorem test_decode_h2b : decode (.cmd8 0b00000010) = .ok .h2b := by decide
theorem test_decode_v2d : decode (.cmd8 0b00000011) = .ok .v2d := by decide
theorem test_decode_v3d : decode (.cmd8 0b00000100) = .ok .v3d := by decide
theorem test_decode_ldp : decode (.cmd8 0b00001000) = .ok .ldp := by decide
theorem test_decode_ldo : decode (.cmd8 0b00001001) = .ok .ldo := by decide
theorem test_decode_ck1 : decode (.cmd8 0b00010001) = .ok .ck1 := by decide
theorem test_decode_ck2 : decode (.cmd8 0b00010010) = .ok .ck2 := by decide
theorem test_decode_ck4 : decode (.cmd8 0b00010100) = .ok .ck4 := by decide
theorem test_decode_ck5 : decode (.cmd8 0b00010101) = .ok .ck5 := by decide
/-- `WR MSG+5, 'A'` of 95_test_vectors.md 3.5: W 1, zero 000, addr 0x105, data 0x41. -/
theorem test_decode_wr : decode (.bus24 0b1_000_000100000101_01000001) = .ok (.wr 0x105 0x41) := by decide
/-- `RD 0xFFF` of 3.3. -/
theorem test_decode_rd : decode (.bus24 0b0_000_111111111111_00000000) = .ok (.rd 0xFFF) := by decide
/-- The retired `checksum3` (R95) is a reserved code. -/
theorem test_decode_reserved : decode (.cmd8 0b00010011) = .error (.reservedCommand 0x13) := by decide
/-- Bit 20 set, in a write and in a read (R96). -/
theorem test_decode_zero_field : decode (.bus24 0b1_001_000000000000_00000001)
    = .error (.zeroFieldNotZero 0x900001) := by decide
theorem test_decode_read_with_data : decode (.bus24 0b0_000_000000000001_00000001)
    = .error (.readWithData 0x000101) := by decide
theorem test_table_word : decodeTableWord 24 0x81006F = some (.wr 0x100 0x6F) ∧ decodeTableWord 8 0x15 = some .ck5 ∧
    decodeTableWord 8 0x100 = none ∧ decodeTableWord 16 0x0001 = none := by decide

/-! ## One step per instruction -/

/-- 95_test_vectors.md 2.9: NOP after a mismatch keeps everything but CMD. -/
theorem test_nop : after .nop { State.reset with block := (after .ck2 (withPay (chars "H000000000"))) }
    = { (after .ck2 (withPay (chars "H000000000"))) with cmd := 0 } := by decide
/-- 1.2: V3 after an empty V2 decode (90_conflicts.md C4). -/
theorem test_pre_both_paths : ends .pre (withMsg "omF5C399") = (0x2D, 0x00) ∧
    reads .pre (withMsg "omF5C399") 0x300 4 = [0x10, 0x3A, 0x9C, 0x00] ∧
    reads .pre (withMsg "omF5C399") 0x00C 6 = [0x10, 0x00, 0x00, 0x00, 0x04, 0x00] := by decide
/-- 2.5: framing is case-sensitive. -/
theorem test_pre_framing : ends .pre (withMsg "Om9955") = (0x02, 0x01) := by decide
/-- 2.2: an odd length pads the last BITBUF byte with 0. -/
theorem test_h2b_odd : ends .h2b (withMsg "aBC") = (0x01, 0x00) ∧ reads .h2b (withMsg "aBC") 0x006 2 = [0x0C, 0x00] ∧
    reads .h2b (withMsg "aBC") 0x200 3 = [0xAB, 0xC0, 0x00] := by decide
theorem test_h2b_invalid : ends .h2b (withMsg "9G") = (0x02, 0x02) ∧ reads .h2b (withMsg "9G") 0x006 2 = [0, 0] := by
  decide
/-- 2.3, `4CC AAAA`: the preamble at bit 1. -/
theorem test_v2d : ends .v2d (withBits (bin 28 0x4CCAAAA)) = (0x15, 0x00) ∧
    reads .v2d (withBits (bin 28 0x4CCAAAA)) 0x300 3 = [0x08, 0xEA, 0x00] ∧
    reads .v2d (withBits (bin 28 0x4CCAAAA)) 0x00C 1 = [0x01] := by decide
/-- 2.3, `4CC`: found, but no whole chunk. -/
theorem test_v2d_empty : ends .v2d (withBits (bin 12 0x4CC)) = (0x06, 0x04) := by decide
/-- 2.4, `5F5A`: the marker lies before the preamble. -/
theorem test_v3d : ends .v3d (withBits (bin 16 0x5F5A)) = (0x29, 0x00) ∧
    reads .v3d (withBits (bin 16 0x5F5A)) 0x300 4 = [0x10, 0xFA, 0x5A, 0x00] ∧
    reads .v3d (withBits (bin 16 0x5F5A)) 0x00E 3 = [0x04, 0x00, 0x00] := by decide
theorem test_v3d_absent : ends .v3d (withBits (bin 8 0)) = (0x02, 0x03) := by decide
/-- 2.6: lower case is accepted; the views read the loaded bytes. -/
theorem test_ldp : ends .ldp (withMsg "481a2d") = (0x01, 0x00) ∧
    reads .ldp (withMsg "481a2d") 0x320 4 = [0x48, 0x1A, 0x2D, 0x00] ∧
    reads .ldp (withMsg "481a2d") 0x012 3 = [0x1A, 0x2D, 0x48] := by decide
/-- 2.6: the odd length is found before the bad digit; either way no byte is loaded. -/
theorem test_ldp_odd : ends .ldp (withMsg "481A2DX") = (0x02, 0x02) ∧
    reads .ldp (withMsg "481A2DX") 0x009 1 = [0] := by decide
/-- 2.7: the decode flags stay beside OK. -/
theorem test_ldo : ends .ldo (withOut [0x10, 0x3A, 0x9C]) = (0x15, 0x00) ∧
    reads .ldo (withOut [0x10, 0x3A, 0x9C]) 0x320 3 = [0x10, 0x3A, 0x9C] := by decide
theorem test_ldo_short : ends .ldo (withOut [0x08, 0xFA]) = (0x16, 0x05) := by decide
/-- 2.8: the half byte, and the reference put together from two nibbles. -/
theorem test_ck1 : ends .ck1 (withPay [0x48, 0x0A, 0, 0, 0, 0, 0, 0x3F, 0]) = (0x41, 0x00) ∧
    reads .ck1 (withPay [0x48, 0x0A, 0, 0, 0, 0, 0, 0x3F, 0]) 0x00A 2 = [0x03, 0x03] := by decide
theorem test_ck1_mismatch : ends .ck1 (withPay [0x48, 0, 0, 0, 0, 0, 0, 0xA0, 0x0F]) = (0x02, 0x07) ∧
    reads .ck1 (withPay [0x48, 0, 0, 0, 0, 0, 0, 0xA0, 0x0F]) 0x00A 2 = [0x00, 0xFA] := by decide
theorem test_ck2 : ends .ck2 (withPay [0x48, 0x1A, 0x2D, 0x10, 0xF4, 0, 0x23, 0x30, 0x44, 0x34]) = (0x41, 0x00) := by
  decide
theorem test_ck2_short : ends .ck2 (withPay [0x48, 0x1A, 0x2D, 0x10, 0xF4, 0, 0x23, 0x30, 0x44]) = (0x02, 0x12) := by
  decide
/-- 2.8: 270 wraps. -/
theorem test_ck4 : ends .ck4 (withPay (0x50 :: List.replicate 9 0xFF ++ [0x04])) = (0x41, 0x00) := by decide
theorem test_ck4_mismatch : reads .ck4 (withPay [0x50, 1, 2, 3, 4, 5, 6, 7, 8, 9, 0x1B]) 0x00A 2 = [0x23, 0x1B] := by
  decide
/-- 2.8: 300 wraps. -/
theorem test_ck5 : ends .ck5 (withPay (0x58 :: List.replicate 10 0xFF ++ [0x22])) = (0x41, 0x00) := by decide
theorem test_ck5_short : ends .ck5 (withPay (0x58 :: List.replicate 10 0xFF)) = (0x02, 0x12) := by decide
/-- 2.1: the high byte of MSG_LEN alone. -/
theorem test_wr_msg_len : (after (.wr 0x005 0x01) (withMsgLen 0x0007)).msgLen = 263 := by decide
/-- 2.9: a reserved code written to CMD keeps the checksum verdict. -/
theorem test_wr_reserved_command :
    let s := { State.reset with block := after .ck2 (withPay [0x48, 0x1A, 0x2D, 0x10, 0xF4, 0, 0x23, 0x30, 0x44, 0x34]) }
    ends (.wr 0x000 0x13) s = (0x42, 0x13) ∧ reads (.wr 0x000 0x13) s 0x000 1 = [0x13] := by decide
/-- 20_memory.md R61: address 0x1105 is address 0x105. -/
theorem test_rd_wraps : nextOf (exec (.rd 0x1105) (withMsg "481a2d"))
    = some { withMsg "481a2d" with reads := [0x64] } := by decide

/-! ## The step and the notation -/

/-- A reserved code issued as CMD8 (R114), and a word that spells no transaction (R96). -/
theorem test_step_reserved : (nextOf (step (issuing (.cmd8 0xFF)))).map (fun t => (t.block.cmd, t.block.errCode))
    = some (0xFF, 0x13) := by decide
theorem test_step_refuses : nextOf (step (issuing (.bus24 0x100000))) = none := by decide
theorem test_step_idle : nextOf (step State.reset) = some State.reset := by decide
theorem test_step_reset : nextOf (step { withMsg "om" with pending := [.reset] }) = some State.reset := by
  decide
/-- Lines of 95_test_vectors.md 3.3 and 3.5. -/
theorem test_assemble_wr : assembleLine "WR MSG+5, 'A'".toList = some [.bus24 0x810541] := by decide
theorem test_assemble_rd : assembleLine "RD OUT+1   ; = 0xEA".toList = some [.bus24 0x030100] := by decide
theorem test_assemble_cmd : assembleLine "CMD CK2".toList = some [.bus24 0x800012] := by decide
theorem test_assemble_msgset : assembleLine "MSGSET \"om00\"".toList
    = some [.bus24 0x81006F, .bus24 0x81016D, .bus24 0x810230, .bus24 0x810330, .bus24 0x800404, .bus24 0x800500] := by
  decide
theorem test_assemble_rdw : assembleLine "RDW BIT_LEN_LO".toList = some [.bus24 0x000600, .bus24 0x000700] := by decide
/-- R98: the second byte is the high one; a choice of log entry 8: an offset may follow any name. -/
theorem test_rdw_value : rdwValue 0x07 0x01 = 263 ∧ { State.reset with reads := [9, 0x07, 0x01] }.rdwResult = some 263 ∧
    { State.reset with reads := [9] }.rdwResult = none := by decide
theorem test_parse_offset : parseAddr "OUT+3".toList = some 0x303 ∧ parseAddr "STATUS+5".toList = some 0x006 := by decide
/-- A choice of log entry 8: a count of 0 stands for no access; the address is held to R97's range all the same. -/
theorem test_assemble_rdn_count_zero : assembleLine "RDN 0xFFF, 0".toList = some [] ∧
    assembleLine "RDN 0x5000, 0".toList = none ∧ assembleLine "RDN 0xFFF, 2".toList = none := by decide
theorem test_assemble_refuses_lower_case : assembleLine "CMD pre".toList = none := by decide

/-! ## Witnesses: each statement's hypotheses can be met -/

theorem witness_ResetClearsTheBlock : { withMsg "om" with pending := [.reset] }.pending = .reset :: [] := rfl

/-- A block that holds a V2 result: `9955` decoded (95_test_vectors.md 2.3). -/
def decoded : Block :=
  { Block.reset with
    cmd := 0x03, bits := bin 16 0x9955, bitLen := 16, out := [(0, 0x08), (1, 0xFA)], outLen := 2
    status := { ok := true, err := false, v2pre := true, v3pre := false, path := 0b01, csok := false } }

/-- A block that holds a V3 result of three bytes, with its own hex text in MSG (2.7). -/
def rendered : Block :=
  { Block.reset with
    cmd := 0x04, bits := bin 24 0xF5C399, bitLen := 24, out := [(0, 0x10), (1, 0x3A), (2, 0x9C)], outLen := 3
    status := { ok := true, err := false, v2pre := false, v3pre := true, path := 0b10, csok := false }
    v3DatIdx := 4
    msg := Memory.writeAll [] 0 (chars "103A9C"), msgLen := 6 }

theorem decoded_inv : decoded.Inv :=
  ⟨by decide, by decide, by decide, fun _ h => Block.bit_of_length_le (b := decoded) h, by decide,
    fun _ h => Memory.read_of_within (m := decoded.out) (cap := 2) (by decide) h, by decide, by decide, by decide, by decide, fun _ _ => rfl,
    by decide, by decide, by decide, by decide, ⟨.none, by decide⟩, by decide, by decide, by decide, by decide,
    by decide, by decide⟩

theorem rendered_inv : rendered.Inv :=
  ⟨by decide, by decide, by decide, fun _ h => Block.bit_of_length_le (b := rendered) h, by decide,
    fun _ h => Memory.read_of_within (m := rendered.out) (cap := 3) (by decide) h, by decide, by decide, by decide, by decide, fun _ _ => rfl,
    by decide, by decide, by decide, by decide, ⟨.none, by decide⟩, by decide, by decide, by decide, by decide,
    by decide, by decide⟩

theorem witness_StepKeepsInvariants : ∃ s t : State, s.block.Inv ∧ step s = .next t ∧ t.block ≠ s.block :=
  ⟨{ block := decoded, pending := [.access (.cmd8 0x04)], reads := [] }, _, decoded_inv, rfl, by decide⟩

theorem witness_StepKeepsDecodedLowNibble : ∃ s t : State,
    (s.block.outLen ≠ 0 → (s.block.out.read 1).toNat % 16 = 0xA) ∧ step s = .next t ∧ t.block.outLen ≠ 0 :=
  ⟨{ block := decoded, pending := [.access (.cmd8 0x03)], reads := [] }, _, by decide, rfl, by decide⟩

theorem witness_DecodeOfEncode : Instr.WellFormed (.wr 0xFFF 0xFF) ∧ Instr.WellFormed (.rd 0x000) ∧
    Instr.WellFormed .ck5 := by decide

theorem witness_EncodeOfDecode : decode (.bus24 0x8FFFFF) = .ok (.wr 0xFFF 0xFF) := by decide

theorem witness_BusWordsSpellTransactions : NoTransaction 0x100000 ∧ NoTransaction 0x700000 ∧ NoTransaction 0x000001 ∧
    ¬ NoTransaction 0x800001 ∧ ¬ NoTransaction 0x0FFF00 := by
  unfold NoTransaction; decide

theorem witness_PlacedWordRunsItsInstruction : Instr.WellFormed (.rd 0xFFF) := by decide

theorem witness_StepExecutesDecodedWord :
    (issuing (.cmd8 0x12)).pending = .access (.cmd8 0x12) :: [] ∧ decode (.cmd8 0x12) = .ok .ck2 := by decide

theorem witness_StepExecutesDecodedWord_reserved :
    (issuing (.cmd8 0x05)).pending = .access (.cmd8 0x05) :: [] ∧ decodeCommand 0x05 = none := by decide

theorem witness_ReservedCommandIsIllegal : decodeCommand 0x05 = none ∧ decodeCommand 0x13 = none ∧
    decodeCommand 0xFF = none := by decide

theorem witness_StepStopsOnlyAtNoTransaction : step (issuing (.bus24 0x000001)) = .refused (.noTransaction 0x000001) ∧
    State.reset.pending = [] := ⟨rfl, rfl⟩

/-- One address under each clause, at both ends of its range, and a wider address that is one of them. -/
theorem witness_WriteFollowsTheMap : 0x000 % 4096 = 0x000 ∧ 0x1000 % 4096 = 0x000 ∧ (0x15 : Byte) = Command.op .ck5 ∧
    decodeCommand 0x16 = none ∧ 0x004 % 4096 = 0x004 ∧ 0x005 % 4096 = 0x005 ∧
    (0x100 ≤ 0x100 % 4096 ∧ 0x1FF % 4096 ≤ 0x1FF) ∧ ¬ (0x100 ≤ 0x0FF % 4096 ∧ 0x0FF % 4096 ≤ 0x1FF) ∧
    ¬ (0x100 ≤ 0x200 % 4096 ∧ 0x200 % 4096 ≤ 0x1FF) := by decide

theorem witness_WriteReadsBackAlone : 0x004 % 4096 = 0x004 ∧ 0x1005 % 4096 = 0x005 ∧
    (0x100 ≤ 0x1FF % 4096 ∧ 0x1FF % 4096 ≤ 0x1FF) ∧ 0x100 % 4096 ≠ 0x1FF % 4096 := by decide

theorem witness_ReadOnlyWritesAreIgnored : (0x001 ≤ 0x001 % 4096 ∧ 0x002 % 4096 ≤ 0x002) ∧
    (0x006 ≤ 0x006 % 4096 ∧ 0x015 % 4096 ≤ 0x015) ∧ (0x200 ≤ 0x200 % 4096 ∧ 0x27F % 4096 ≤ 0x27F) ∧
    (0x300 ≤ 0x300 % 4096 ∧ 0x37F % 4096 ≤ 0x37F) := by decide

theorem witness_ReservedAddressesAreInert : 0x003 % 4096 = 0x003 ∧ (0x016 ≤ 0x016 % 4096 ∧ 0x0FF % 4096 ≤ 0x0FF) ∧
    (0x280 ≤ 0x280 % 4096 ∧ 0x2FF % 4096 ≤ 0x2FF) ∧ 0x380 ≤ 0x380 % 4096 ∧ 0x380 ≤ 0xFFF % 4096 := by decide

/-- The last bit of the last byte; the last character of a full OUT. -/
theorem witness_BitbufPacksBits : (127 : Nat) < 128 ∧ (7 : Nat) < 8 := by decide
theorem witness_OuthexRendersOut : (63 : Nat) < 64 ∧ 63 < 2 * (32#8).toNat ∧ ¬ 4 < 2 * decoded.outLen.toNat := by decide

theorem witness_AddressMapHoldsTheRegisters : (255 : Nat) < 256 ∧ (31 : Nat) < 32 := by decide
theorem witness_ChunkBytesSelectBits : (7 : Nat) < 8 := by decide

theorem witness_HexDigitValues : (9 : Nat) < 10 ∧ (5 : Nat) < 6 ∧ (0x2F#8).toNat < 0x30 ∧
    (0x39 < (0x3A#8).toNat ∧ (0x40#8).toNat < 0x41) ∧ (0x46 < (0x47#8).toNat ∧ (0x60#8).toNat < 0x61) ∧
    0x66 < (0x67#8).toNat := by decide

theorem witness_H2bConvertsMsg : 256 < (withMsgLen 257).block.msgLen.toNat ∧
    ((withMsg "09AFaf").block.msgLen.toNat ≤ 256 ∧ AllHex (withMsg "09AFaf").block 0 6) ∧
    ((withMsgLen 256).block.msgLen.toNat ≤ 256 ∧ ¬ AllHex (withMsgLen 256).block 0 256) := by
  refine ⟨by decide, ⟨by decide, ?_⟩, by decide, fun h => ?_⟩
  · unfold AllHex; decide
  · exact absurd (h 0 (by decide)) (by decide)

theorem witness_ExpandRoundTrips :
    (∃ e, (withMsg "om9aF").block.expand 2 3 = (.none, e)) ∧ (∃ e, (withMsg "9A").block.expand 0 2 = (.none, e)) :=
  ⟨⟨_, rfl⟩, ⟨_, rfl⟩⟩

theorem witness_PreDecodesMsg : 256 < (withMsgLen 257).block.msgLen.toNat ∧
    ((withMsg "om9").block.msgLen.toNat < 4 ∧ (withMsg "OM99").block.msg.read 0 ≠ 0x6F ∧
      (withMsg "oM99").block.msg.read 1 ≠ 0x6D) ∧
    ((withMsg "om9G").block.msg.read 0 = 0x6F ∧ (withMsg "om9G").block.msg.read 1 = 0x6D ∧
      (withMsg "om9G").block.msgLen.toNat = 4 ∧ ¬ AllHex (withMsg "om9G").block 2 2) ∧
    ((withMsg "om99").block.msg.read 0 = 0x6F ∧ (withMsg "om99").block.msg.read 1 = 0x6D ∧
      (withMsg "om99").block.msgLen.toNat = 4 ∧ AllHex (withMsg "om99").block 2 2) := by
  unfold AllHex; decide

/-- 66 digits in MSG. -/
def sixtySix : Block :=
  { Block.reset with msg := Memory.writeAll [] 0 (List.replicate 66 0x30), msgLen := 66 }

theorem witness_LdpLoadsMsg : 256 < (257#16).toNat ∧ (255#16).toNat % 2 = 1 ∧
    ((withMsg "4G").block.msgLen.toNat % 2 = 0 ∧ ¬ AllHex (withMsg "4G").block 0 2) ∧
    (sixtySix.msgLen.toNat = 66 ∧ AllHex sixtySix 0 66) ∧
    ((withMsg "481A").block.msgLen.toNat = 4 ∧ AllHex (withMsg "481A").block 0 4) ∧
    ((withMsg "481A2D").block.msgLen.toNat = 6 ∧ AllHex (withMsg "481A2D").block 0 6) := by
  refine ⟨by decide, by decide, ?_, ⟨by decide, (allHex_iff_AllHex _ _ _).1 (by decide)⟩, ?_, ?_⟩
  · unfold AllHex; decide
  · unfold AllHex; decide
  · unfold AllHex; decide

theorem witness_LdoLoadsOut : (withOut [0x08, 0xFA]).block.outLen.toNat < 3 ∧
    3 ≤ (withOut [0x10, 0x3A, 0x9C]).block.outLen.toNat := by decide

/-- The longest payload that is too short, and the shortest that is long enough, of each variant. -/
def zeros (n : Nat) : Block := (withPay (List.replicate n 0)).block

theorem witness_Ck1ValidatesPayload : (zeros 8).payLen.toNat < 9 ∧ 9 ≤ (zeros 9).payLen.toNat := by decide
theorem witness_Ck2ValidatesPayload : (zeros 9).payLen.toNat < 10 ∧ 10 ≤ (zeros 10).payLen.toNat := by decide
theorem witness_Ck4ValidatesPayload : (zeros 10).payLen.toNat < 11 ∧ 11 ≤ (zeros 11).payLen.toNat := by decide
theorem witness_Ck5ValidatesPayload : (zeros 11).payLen.toNat < 12 ∧ 12 ≤ (zeros 12).payLen.toNat := by decide

theorem witness_CommandsLeaveOtherAddresses : writesAddr .nop (0x001 % 4096) = false ∧
    writesAddr .pre (0x320 % 4096) = false ∧ writesAddr .ldp (0x300 % 4096) = false ∧
    writesAddr .ck1 (0x1FFF % 4096) = false ∧ writesAddr .h2b (0x00A % 4096) = false := by decide

theorem witness_CommandsEndWithTheirCodes : Command.ck5 ≠ .nop ∧ Command.pre ≠ .nop := by decide

/-- Each kind of command can end with an error. -/
theorem witness_FailureLeavesNoPartialResult : (after .pre (withMsg "om9G")).status.err = true ∧
    (after .v2d State.reset).status.err = true ∧ (after .v3d State.reset).status.err = true ∧
    (after .ldp State.reset).status.err = true ∧ (after .ldo State.reset).status.err = true ∧
    (after .h2b (withMsg "om99")).status.err = true ∧ (after .pre (withMsg "om9G")).errCode = 0x02 := by decide

theorem witness_MarkerFoundInsidePreamble : OccursAt (bin 8 0xF5) 8 Config.v3Preamble 0 := by
  unfold OccursAt; decide

/-- `9955` and `99FF` differ in even-indexed bits only. -/
theorem witness_V2IgnoresEvenBits :
    let s := withBits (bin 16 0x9955)
    let s' := withBits (bin 16 0x99FF)
    s'.block.bitLen = s.block.bitLen ∧ FirstAt s.block.bits s.block.bitLen.toNat Config.v2Preamble 0 ∧
      FirstAt s'.block.bits s'.block.bitLen.toNat Config.v2Preamble 0 ∧
      (∀ j, j < 8 * v2Count s.block 0 → s'.block.bit (0 + 2 * j + 1) = s.block.bit (0 + 2 * j + 1)) ∧
      s'.block.bits ≠ s.block.bits := by
  refine ⟨by decide, (first_eq_some_iff _ _ _ _).1 (by decide), (first_eq_some_iff _ _ _ _).1 (by decide), ?_,
    by decide⟩
  decide

/-- `F5C3F5` and `05C3F5`: the preambles lie at 0 and at 16, the first marker at 4 in both. -/
theorem witness_V3PreambleIsExistenceCheckOnly :
    let s := withBits (bin 24 0xF5C3F5)
    let s' := withBits (bin 24 0x05C3F5)
    s'.block.bitLen = s.block.bitLen ∧ OccursAt s.block.bits s.block.bitLen.toNat Config.v3Preamble 0 ∧
      OccursAt s'.block.bits s'.block.bitLen.toNat Config.v3Preamble 16 ∧
      FirstAt s.block.bits s.block.bitLen.toNat Config.v3Marker 4 ∧
      FirstAt s'.block.bits s'.block.bitLen.toNat Config.v3Marker 4 ∧
      (∀ i, 4 ≤ i → s'.block.bit i = s.block.bit i) ∧ s'.block.bits ≠ s.block.bits := by
  refine ⟨by decide, ?_, ?_, (first_eq_some_iff _ _ _ _).1 (by decide), (first_eq_some_iff _ _ _ _).1 (by decide),
    fun i hi => ?_, by decide⟩
  · unfold OccursAt; decide
  · unfold OccursAt; decide
  · by_cases h : i < 24
    · have key : ∀ i, i < 24 → 4 ≤ i → (withBits (bin 24 0x05C3F5)).block.bit i =
        (withBits (bin 24 0xF5C3F5)).block.bit i := by decide
      exact key i h hi
    · have h : 24 ≤ i := by omega
      exact (Block.bit_of_length_le (b := (withBits (bin 24 0x05C3F5)).block) h).trans (Block.bit_of_length_le (b := (withBits (bin 24 0xF5C3F5)).block) h).symm

/-- `omF5C399`: the V3 preamble alone, then a V2 preamble with no whole chunk; `om9955`: one V2 chunk. -/
theorem witness_PrePathsAreExclusive :
    Absent (after .pre (withMsg "omF5C3")).bits (after .pre (withMsg "omF5C3")).bitLen.toNat Config.v2Preamble ∧
    Absent (after .pre (withMsg "om9955")).bits (after .pre (withMsg "om9955")).bitLen.toNat Config.v3Preamble ∧
    FirstAt (after .pre (withMsg "om9955")).bits (after .pre (withMsg "om9955")).bitLen.toNat Config.v2Preamble 0 ∧
    v2Count (after .pre (withMsg "om9955")) 0 = 1 ∧ (after .pre (withMsg "om9955")).status.path ≠ 0 :=
  ⟨(first_eq_none_iff _ _ _).1 (by decide), (first_eq_none_iff _ _ _).1 (by decide),
    (first_eq_some_iff _ _ _ _).1 (by decide), by decide, by decide⟩

theorem witness_PreIsTheThreeStages :
    let s := withMsg "omF5C399"
    let s' := withMsg "F5C399"
    4 ≤ s.block.msgLen.toNat ∧ s.block.msgLen.toNat ≤ 256 ∧ s.block.msg.read 0 = 0x6F ∧ s.block.msg.read 1 = 0x6D ∧
      s'.block.msgLen.toNat = s.block.msgLen.toNat - 2 ∧
      ∀ i, i < s'.block.msgLen.toNat → s'.block.msg.read i = s.block.msg.read (i + 2) := by decide

theorem witness_LdoIsLdpOfOuthex : ∃ s : State, s.block.Inv ∧ s.block.msgLen.toNat = 2 * s.block.outLen.toNat ∧
    s.block.outLen ≠ 0 ∧ ∀ k, k < 2 * s.block.outLen.toNat → s.block.msg.read k = s.block.busRead (0x340 + k) :=
  ⟨{ block := rendered, pending := [], reads := [] }, rendered_inv, by decide, by decide, by decide⟩

/-- Two payloads of CK1 that differ in the length byte. -/
theorem witness_ChecksumReadsItsBytesOnly :
    let s := withPay [0x48, 0x0A, 0, 0, 0, 0, 0, 0x30, 0x01]
    let s' := withPay [0x50, 0x0A, 0, 0, 0, 0, 0, 0x30, 0x01]
    s'.block.payLen = s.block.payLen ∧ (∀ i, 1 ≤ i → i ≤ 8 → s'.block.pay.read i = s.block.pay.read i) ∧
      s'.block.pay ≠ s.block.pay := by
  refine ⟨by decide, fun i h1 h2 => ?_, by decide⟩
  have key : ∀ i, i < 9 → 1 ≤ i → (withPay [0x50, 0x0A, 0, 0, 0, 0, 0, 0x30, 0x01]).block.pay.read i =
    (withPay [0x48, 0x0A, 0, 0, 0, 0, 0, 0x30, 0x01]).block.pay.read i := by decide
  exact key i (by omega) h1

/-- The flips of 95_test_vectors.md 2.8: bit 0 of `payload[0]` of CK2. -/
theorem witness_SingleBitFlipFailsChecksum : ∃ s s' t : State, exec Command.ck2.toInstr s = .next t ∧
    t.block.status.csok = true ∧ s'.block.payLen = s.block.payLen ∧
    s'.block.pay.read (0 + 1) = s.block.pay.read (0 + 1) ^^^ (1#8 <<< 0) ∧
    ∀ j, j ≠ 0 + 1 → s'.block.pay.read j = s.block.pay.read j := by
  refine ⟨withPay [0x48, 0x1A, 0x2D, 0x10, 0xF4, 0, 0x23, 0x30, 0x44, 0x34],
    withPay [0x48, 0x1B, 0x2D, 0x10, 0xF4, 0, 0x23, 0x30, 0x44, 0x34], _, rfl, by decide, by decide, by decide,
    fun j hj => ?_⟩
  by_cases h : j < 10
  · have key : ∀ j, j < 10 → j ≠ 0 + 1 →
      (withPay [0x48, 0x1B, 0x2D, 0x10, 0xF4, 0, 0x23, 0x30, 0x44, 0x34]).block.pay.read j =
      (withPay [0x48, 0x1A, 0x2D, 0x10, 0xF4, 0, 0x23, 0x30, 0x44, 0x34]).block.pay.read j := by decide
    exact key j h hj
  · rw [Memory.read_of_within (cap := 10) (by decide) (by omega), Memory.read_of_within (cap := 10) (by decide) (by omega)]

/-- The flips of 2.8 in `hi(payload[6])`, `lo(payload[6])` and `lo(payload[7])` of CK1. -/
theorem witness_Ck1NibbleFlips : ∀ c : Nat × Nat × List Byte,
    c ∈ [(7, 4, [0x48, 0x0A, 0, 0, 0, 0, 0, 0x20, 0]), (7, 3, [0x48, 0x0A, 0, 0, 0, 0, 0, 0x38, 0]),
      (8, 0, [0x48, 0x0A, 0, 0, 0, 0, 0, 0x30, 0x01])] →
    let s := withPay [0x48, 0x0A, 0, 0, 0, 0, 0, 0x30, 0]
    let s' := withPay c.2.2
    9 ≤ s.block.payLen.toNat ∧ s'.block.payLen = s.block.payLen ∧
      s'.block.pay.read c.1 = s.block.pay.read c.1 ^^^ (1#8 <<< c.2.1) ∧
      ∀ j, j ≠ c.1 → s'.block.pay.read j = s.block.pay.read j := by
  intro c hc
  have key : ∀ j, j < 9 → j ≠ c.1 → (withPay c.2.2).block.pay.read j =
      (withPay [0x48, 0x0A, 0, 0, 0, 0, 0, 0x30, 0]).block.pay.read j := by
    revert c; decide
  have caps : (withPay c.2.2).block.pay.within 9 = true := by revert c; decide
  refine ⟨by decide, by revert c; decide, by revert c; decide, fun j hj => ?_⟩
  by_cases h : j < 9
  · exact key j h hj
  · rw [Memory.read_of_within caps (by omega), Memory.read_of_within (cap := 9) (by decide) (by omega)]

theorem witness_MsgsetStoresText : (List.replicate 256 (0x41 : Byte)).length ≤ 256 := by
  rw [List.length_replicate]

theorem witness_RdwGivesTheRegister : 0xFFE + 1 < 4096 ∧ 0x004 + 1 < 4096 ∧ 0x010 + 1 < 4096 := by decide
theorem witness_RdnReadsInOrder : 0x000 + 4096 ≤ 4096 ∧ 0xFFF + 1 ≤ 4096 ∧ 0x340 + 20 ≤ 4096 := by decide

end Sys2Proof.Tests
end

section
/-! PROOFS. The read-only views BITBUF and OUTHEX (10_state.md R35, R36) and the reset values (R40). -/

namespace Sys2Proof.Machine

/-! ## Writes the map ignores (20_memory.md R65, R66) -/

/-- A write outside CMD, MSG_LEN and MSG leaves the block as it is. -/
theorem busWrite_ignored (b : Block) {a : Nat} (v : Byte) (hcmd : a % 4096 ≠ 0x000) (hlo : a % 4096 ≠ 0x004)
    (hhi : a % 4096 ≠ 0x005) (hmsg : a % 4096 < 0x100 ∨ 0x200 ≤ a % 4096) : b.busWrite a v = b := by
  unfold Block.busWrite Block.writeMap
  rw [addrSpace_val, if_neg hcmd, if_neg hlo, if_neg hhi, if_neg (by omega)]

theorem exec_wr (addr : Nat) (data : Byte) (s : State) :
    exec (.wr addr data) s = .next { s with block := s.block.busWrite addr data } := rfl

/-- WR to an address outside CMD, MSG_LEN and MSG changes nothing of the machine. -/
theorem exec_wr_ignored (s : State) {a : Nat} (v : Byte) (hcmd : a % 4096 ≠ 0x000) (hlo : a % 4096 ≠ 0x004)
    (hhi : a % 4096 ≠ 0x005) (hmsg : a % 4096 < 0x100 ∨ 0x200 ≤ a % 4096) : exec (.wr a v) s = .next s := by
  rw [exec_wr, busWrite_ignored s.block v hcmd hlo hhi hmsg]

/-! ## BITBUF (R35) -/

theorem num_append_singleton (s : List Bool) (x : Bool) : num (s ++ [x]) = 2 * num s + x.toNat := by
  simp [num]

/-- The number of a bit string fits in as many bits as the string has (00_scope.md R8). -/
theorem num_lt_two_pow_length (s : List Bool) : num s < 2 ^ s.length := by
  induction s using List.reverseRecOn with
  | nil => decide
  | append_singleton s x ih =>
    have hx : x.toNat ≤ 1 := Bool.toNat_le x
    rw [num_append_singleton, List.length_append, List.length_singleton, pow_succ]
    omega

/-- Eight bits number a byte without loss. -/
theorem bitbuf_toNat (b : Block) (k : Nat) :
    (b.bitbuf k).toNat = num ((List.range 8).map (fun j => b.bit (8 * k + j))) := by
  have hlt := num_lt_two_pow_length ((List.range 8).map (fun j => b.bit (8 * k + j)))
  rw [List.length_map, List.length_range] at hlt
  exact (BitVec.toNat_ofNat _ 8).trans (Nat.mod_eq_of_lt hlt)

/-- Settles O24: the byte read is the view, whose bits `bitbuf_getLsbD` gives, and no write reaches its address. -/
theorem bitbufPacksBits : Obligations.BitbufPacksBits := by
  intro s k hk
  rw [busRead_bitbuf s.block hk]
  refine ⟨fun j hj => bitbuf_getLsbD s.block k j hj, bitbuf_toNat s.block k, fun v => ?_⟩
  exact exec_wr_ignored s v (by omega) (by omega) (by omega) (by omega)

/-! ## OUTHEX (R36) -/

theorem hexDigit_toNat {v : Nat} (h : v < 16) :
    (hexDigit v).toNat = if v < 10 then 0x30 + v else 0x41 + (v - 10) := by
  unfold hexDigit
  split
  · exact (BitVec.toNat_ofNat _ 8).trans (Nat.mod_eq_of_lt (by omega))
  · exact (BitVec.toNat_ofNat _ 8).trans (Nat.mod_eq_of_lt (by omega))

/-- The nibble that place `k` of OUTHEX shows: the high one of its byte of OUT first. -/
def Block.outNibble (b : Block) (k : Nat) : Nat :=
  if k % 2 = 0 then hi (b.out.read (k / 2)) else lo (b.out.read (k / 2))

theorem outNibble_lt (b : Block) (k : Nat) : b.outNibble k < 16 := by
  unfold Block.outNibble
  split
  · exact hi_lt _
  · exact lo_lt _

theorem outhex_eq_hexDigit (b : Block) (k : Nat) :
    b.outhex k = if k < 2 * b.outLen.toNat then hexDigit (b.outNibble k) else 0 := by
  unfold Block.outhex Block.outNibble
  rw [apply_ite hexDigit]

theorem outhex_toNat (b : Block) (k : Nat) :
    (b.outhex k).toNat = if k < 2 * b.outLen.toNat then
      (if b.outNibble k < 10 then 0x30 + b.outNibble k else 0x41 + (b.outNibble k - 10)) else 0 := by
  rw [outhex_eq_hexDigit]
  split
  · exact hexDigit_toNat (outNibble_lt b k)
  · rfl

theorem busRead_outhexLen (b : Block) : b.busRead 0x015 = b.outhexLen := rfl

theorem outhexLen_toNat (b : Block) : b.outhexLen.toNat = 2 * b.outLen.toNat % 256 := BitVec.toNat_ofNat _ 8

/-- Settles O25: both addresses read the views of OUT, and no write reaches either. -/
theorem outhexRendersOut : Obligations.OuthexRendersOut := by
  intro s
  refine ⟨fun v => ?_, fun k v hk => ?_, ?_, fun k hk => ?_⟩
  · exact exec_wr_ignored s v (by decide) (by decide) (by decide) (by decide)
  · exact exec_wr_ignored s v (by omega) (by omega) (by omega) (by omega)
  · rw [busRead_outhexLen, outhexLen_toNat]
  · rw [busRead_outhex s.block hk]
    exact outhex_toNat s.block k

/-! ## Reset (R40) -/

theorem reset_bit (i : Nat) : Block.reset.bit i = false := Block.bit_of_length_le (Nat.zero_le i)

theorem reset_bitbuf (k : Nat) : Block.reset.bitbuf k = 0 := by
  simp only [Block.bitbuf, reset_bit]
  decide

theorem reset_outhex (k : Nat) : Block.reset.outhex k = 0 := by
  rw [outhex_eq_hexDigit]
  exact if_neg (Nat.not_lt_zero k)

/-- Settles O1: the registers and the views of PAY and OUT_LEN by evaluation, each buffer from its being empty. -/
theorem resetValues : Obligations.ResetValues :=
  ⟨rfl, rfl, rfl, Memory.read_nil, rfl, reset_bit, rfl, Memory.read_nil, rfl, Memory.read_nil, rfl, rfl, rfl, rfl, rfl,
    rfl, reset_bitbuf, reset_outhex, rfl, rfl, rfl⟩

end Sys2Proof.Machine
end

section
/-! PROOFS. What a bus write does, region by region of the map (20_memory.md R63, R65, R66), and the reserved addresses
(R65). -/

namespace Sys2Proof.Machine

/-! ## Where a write lands (R63) -/

theorem busWrite_cmd (b : Block) {a : Nat} (v : Byte) (h : a % 4096 = 0x000) : b.busWrite a v = b.issue v := by
  unfold Block.busWrite Block.writeMap
  rw [addrSpace_val, if_pos h]

theorem busWrite_msgLenLo (b : Block) {a : Nat} (v : Byte) (h : a % 4096 = 0x004) :
    b.busWrite a v = { b with msgLen := setLo b.msgLen v } := by
  unfold Block.busWrite Block.writeMap
  rw [addrSpace_val, if_neg (by omega), if_pos h]

theorem busWrite_msgLenHi (b : Block) {a : Nat} (v : Byte) (h : a % 4096 = 0x005) :
    b.busWrite a v = { b with msgLen := setHi b.msgLen v } := by
  unfold Block.busWrite Block.writeMap
  rw [addrSpace_val, if_neg (by omega), if_neg (by omega), if_pos h]

theorem busWrite_msg (b : Block) {a : Nat} (v : Byte) (hlo : 0x100 ≤ a % 4096) (hhi : a % 4096 ≤ 0x1FF) :
    b.busWrite a v = { b with msg := b.msg.write (a % 4096 - 0x100) v } := by
  unfold Block.busWrite Block.writeMap
  rw [addrSpace_val, if_neg (by omega), if_neg (by omega), if_neg (by omega), if_pos ⟨hlo, hhi⟩]

/-! ## What a write to CMD starts (R91, R114) -/

/-- Executing a command is issuing its code (30_encoding.md R91). -/
theorem exec_toInstr (c : Command) (s : State) :
    exec c.toInstr s = .next { s with block := s.block.issue c.op } := by
  cases c <;> rfl

theorem issue_reserved (b : Block) {v : Byte} (h : decodeCommand v = none) :
    b.issue v = (b.setCmd v).finish .illegalCommand := by
  unfold Block.issue performCommand
  rw [h, cmdIllegal]

/-! ## The byte of MSG_LEN a write replaces (R67) -/

theorem setLo_toNat (h : Half) (v : Byte) : (setLo h v).toNat = h.toNat / 256 * 256 + v.toNat := by
  obtain ⟨hlo, hhi⟩ := setLo_bytes h v
  rw [half_eq_bytes, hlo, hhi, hiByte_toNat]

theorem setHi_toNat (h : Half) (v : Byte) : (setHi h v).toNat = v.toNat * 256 + h.toNat % 256 := by
  obtain ⟨hlo, hhi⟩ := setHi_bytes h v
  rw [half_eq_bytes, hlo, hhi, loByte_toNat]

/-- Settles O17: one clause per region of the map, each the state its write rule leaves. -/
theorem writeFollowsTheMap : Obligations.WriteFollowsTheMap := by
  intro addr v s
  rw [exec_wr]
  refine ⟨?cmd, ?reserved, ?msgLenLo, ?msgLenHi, ?msg, ?other⟩
  case cmd =>
    rintro h c rfl
    rw [busWrite_cmd s.block _ h, exec_toInstr]
  case reserved =>
    intro h hv
    rw [busWrite_cmd s.block v h, issue_reserved s.block hv]
    refine ⟨_, rfl, ?_⟩
    simp [SameHost, EndedWith, SameInputs, SameHex, SameDec, SamePay, SameCs]
  case msgLenLo =>
    intro h
    rw [busWrite_msgLenLo s.block v h]
    exact ⟨_, rfl, setLo_toNat _ v⟩
  case msgLenHi =>
    intro h
    rw [busWrite_msgLenHi s.block v h]
    exact ⟨_, rfl, setHi_toNat _ v⟩
  case msg =>
    intro hlo hhi
    rw [busWrite_msg s.block v hlo hhi]
    exact ⟨_, rfl, Memory.read_write_same _ _ v, fun i hi => Memory.read_write_other _ v hi⟩
  case other =>
    intro hcmd hlo hhi hmsg
    rw [busWrite_ignored s.block v hcmd hlo hhi (by omega)]

/-! ## Read-only and view addresses (R66) -/

/-- Settles O19: every range of the map that is read-only or a view lies outside CMD, MSG_LEN and MSG. -/
theorem readOnlyWritesAreIgnored : Obligations.ReadOnlyWritesAreIgnored := by
  intro addr v s h
  exact exec_wr_ignored s v (by omega) (by omega) (by omega) (by omega)

/-! ## Reserved addresses (R65) -/

/-- The addresses below 4096 that the map reserves (R64, R65). -/
def Reserved (a : Nat) : Prop :=
  a = 0x003 ∨ (0x016 ≤ a ∧ a ≤ 0x0FF) ∨ (0x280 ≤ a ∧ a ≤ 0x2FF) ∨ 0x380 ≤ a

/-- No register lies at 0x003 or from 0x016 on. -/
theorem readReg_reserved (b : Block) {a : Nat} (h : a = 0x003 ∨ 0x016 ≤ a) : b.readReg a = 0 := by
  obtain rfl | h := h
  · rfl
  · unfold Block.readReg
    iterate 21 rw [if_neg (by omega)]

theorem busRead_reserved (b : Block) {a : Nat} (h : Reserved (a % 4096)) : b.busRead a = 0 := by
  unfold Block.busRead Block.readMap
  rw [addrSpace_val]
  obtain h | h | h | h := h
  · rw [if_pos (by omega), readReg_reserved b (.inl h)]
  · rw [if_pos (by omega), readReg_reserved b (.inr h.1)]
  · rw [if_neg (by omega), if_neg (by omega), if_neg (by omega), if_pos (by omega)]
  · iterate 7 rw [if_neg (by omega)]

/-- STATUS bit 7 has no storage and reads 0. -/
theorem toByte_getLsbD_seven (t : Status) : t.toByte.getLsbD 7 = false := by
  simp only [Status.toByte, BitVec.getLsbD_append]
  rfl

/-- Settles O20: the map reads 0x00 at a reserved address and no write rule reaches it. -/
theorem reservedAddressesAreInert : Obligations.ReservedAddressesAreInert := by
  intro addr s h
  refine ⟨busRead_reserved s.block h, fun v => ?_, toByte_getLsbD_seven s.block.status⟩
  exact exec_wr_ignored s v (by omega) (by omega) (by omega) (by omega)

end Sys2Proof.Machine
end

section
/-! PROOFS. The BUS24 words and the transactions they spell (30_encoding.md R96). -/

namespace Sys2Proof.Machine

theorem decode_bus24 (w : BusWord) : decode (.bus24 w) = decodeBus24 w := rfl

/-- Settles O11: the three answers of the BUS24 decoder, each on its side of R96's line between transactions and other
words. -/
theorem busWordsSpellTransactions : Obligations.BusWordsSpellTransactions := by
  intro w
  rw [decode_bus24]
  obtain ⟨hno, hdec⟩ | ⟨hyes, hw, hdec⟩ | ⟨hyes, hw, -, hdec⟩ := decodeBus24_cases w
  · refine ⟨fun _ i hi => ?_, fun hyes => absurd hno hyes⟩
    obtain h | h := hdec <;> cases h.symm.trans hi
  · exact ⟨fun hno => absurd hno hyes, fun _ => by rw [hdec, if_pos hw]⟩
  · exact ⟨fun hno => absurd hno hyes, fun _ => by rw [hdec, if_neg (by omega)]⟩

end Sys2Proof.Machine
end

section
/-! PROOFS. NOP and the reserved command codes (40_control.md R113, R114), and the STATUS byte after `finish` (R112). -/

namespace Sys2Proof.Machine

/-! ## NOP (R113) -/

/-- Issuing NOP is the CMD write alone: its rule is `skip`. -/
theorem exec_nop (s : State) : exec .nop s = .next { s with block := s.block.setCmd 0x00 } :=
  issueAs_next Command.nop.op cmdNop s

/-- Settles O30: the CMD write is the record update of the statement. -/
theorem nopWritesOnlyCmd : Obligations.NopWritesOnlyCmd := exec_nop

/-! ## The STATUS byte after `finish` (10_state.md R23, 40_control.md R112) -/

/-- The six high bits of STATUS stay under the mask 0xFC, and the two low ones become `01` for success, `10` for an
error. -/
theorem append_outcome_bits (x : BitVec 6) (err ok passed : Bool) :
    (((x ++ BitVec.ofBool (!passed)) ++ BitVec.ofBool passed : Byte)) =
      (((x ++ BitVec.ofBool err) ++ BitVec.ofBool ok : Byte) &&& 0xFC) ||| (if passed then 0x01 else 0x02) := by
  revert x err ok passed
  decide

/-- Ending with a code replaces OK and ERR, the two low bits of STATUS, and keeps the others. -/
theorem toByte_withOutcome (t : Status) (c : ErrCode) :
    (t.withOutcome c).toByte = (t.toByte &&& 0xFC) ||| (if c == .none then 0x01 else 0x02) :=
  append_outcome_bits (0#1 ++ BitVec.ofBool t.csok ++ t.path ++ BitVec.ofBool t.v3pre ++ BitVec.ofBool t.v2pre)
    t.err t.ok (c == .none)

/-- A command that ends with `e` and leaves the groups DEC and CS changes STATUS by `finish` alone. -/
theorem status_eq_withOutcome {b c : Block} {e : ErrCode} (hend : EndedWith c e) (hdec : SameDec b c)
    (hcs : SameCs b c) : c.status = b.status.withOutcome e := by
  obtain ⟨-, hok, herr⟩ := hend
  obtain ⟨-, -, hv2, hv3, hpath, -⟩ := hdec
  obtain ⟨hcsok, -⟩ := hcs
  have herr' : c.status.err = (e != .none) := herr.trans decide_not
  calc c.status
      = ⟨c.status.ok, c.status.err, c.status.v2pre, c.status.v3pre, c.status.path, c.status.csok⟩ := rfl
    _ = b.status.withOutcome e := by rw [hok, herr', hv2, hv3, hpath, hcsok]; rfl

/-! ## Reserved codes (R114) -/

/-- Settles O14: the outcome and the frame are those of a write at CMD (O17), and STATUS follows from them. -/
theorem reservedCommandIsIllegal : Obligations.ReservedCommandIsIllegal := by
  intro s op hop
  obtain ⟨-, hreserved, -⟩ := writeFollowsTheMap 0x000 op s
  obtain ⟨t, hexec, hhost, hcmd, hend, hin, hhex, hdec, hpay, hcs⟩ := hreserved rfl hop
  have hstatus : t.block.status.toByte = (s.block.status.toByte &&& 0xFC) ||| 0x02 := by
    rw [status_eq_withOutcome hend hdec hcs]
    exact toByte_withOutcome s.block.status .illegalCommand
  exact ⟨t, hexec, hhost, hcmd, hend, hend.1, hstatus, hin, hhex, hdec, hpay, hcs⟩

end Sys2Proof.Machine
end

section
/-! PROOFS. The Hex/Bit converter: hex digit values (41_hexbit.md R131), the round trip from characters to bits and back
(R134), and H2B in every case (R133). -/

namespace Sys2Proof.Machine

/-! ## Hex digit values (R131) -/

/-- A code outside the three ranges of digits is INVALID. -/
theorem hexval_eq_none {c : Byte} (hdec : ¬ (0x30 ≤ c.toNat ∧ c.toNat ≤ 0x39))
    (hupper : ¬ (0x41 ≤ c.toNat ∧ c.toNat ≤ 0x46)) (hlower : ¬ (0x61 ≤ c.toNat ∧ c.toNat ≤ 0x66)) :
    hexval c = none := by
  unfold hexval
  rw [if_neg hdec, if_neg hupper, if_neg hlower]

/-- Settles O26: the 22 digits by evaluation, every other code by its place between the ranges. -/
theorem hexDigitValues : Obligations.HexDigitValues := by
  refine ⟨by decide, by decide, by decide, fun c hc => ?_⟩
  exact hexval_eq_none (by omega) (by omega) (by omega)

/-! ## Bits as numbers (00_scope.md R8) -/

/-- The number of a concatenation: the left string is moved up by the width of the right one. -/
theorem num_append (s t : List Bool) : num (s ++ t) = 2 ^ t.length * num s + num t := by
  induction t using List.reverseRecOn with
  | nil => simp [num]
  | append_singleton t x ih =>
    rw [← List.append_assoc, num_append_singleton, num_append_singleton, ih, List.length_append,
      List.length_singleton, pow_succ]
    ring

/-- The last of the `w + 1` bits of a number is its lowest bit; the others are the bits of its half. -/
theorem bin_succ (w v : Nat) : bin (w + 1) v = bin w (v / 2) ++ [v.testBit 0] := by
  unfold bin
  rw [List.range_succ, List.map_append, List.map_singleton, Nat.add_sub_cancel, Nat.sub_self]
  congr 1
  refine List.map_congr_left fun j hj => ?_
  have hj : j < w := List.mem_range.1 hj
  rw [← Nat.testBit_succ, show (w - 1 - j).succ = w - j by omega]

/-- Writing a number in `w` bits and reading it back gives its `w` low bits. -/
theorem num_bin (w v : Nat) : num (bin w v) = v % 2 ^ w := by
  induction w generalizing v with
  | zero => exact (Nat.mod_one v).symm
  | succ w ih =>
    rw [bin_succ, num_append_singleton, ih, Nat.toNat_testBit, pow_zero, Nat.div_one, pow_succ', Nat.mod_mul,
      Nat.add_comm]

/-! ## The round trip (R134) -/

theorem some_hexvalOf {c : Byte} (h : (hexval c).isSome = true) : some (hexvalOf c) = hexval c := by
  obtain ⟨v, hv⟩ := Option.isSome_iff_exists.1 h
  rw [hexvalOf, hv, Option.getD_some]

section Groups

variable {b : Block} {start count : Nat}

/-- A group of four bits of BITS is the binary form of its character's value. -/
theorem HoldsHex.group4 (h : HoldsHex b start count) {i : Nat} (hi : i < count) :
    (List.range 4).map (fun j => b.bit (4 * i + j)) = bin 4 (hexvalOf (b.msg.read (start + i))) := by
  obtain ⟨-, hbits, -⟩ := h
  exact List.map_congr_left fun j hj => hbits i j hi (List.mem_range.1 hj)

theorem HoldsHex.num_group4 (h : HoldsHex b start count) {i : Nat} (hi : i < count) :
    num ((List.range 4).map (fun j => b.bit (4 * i + j))) = hexvalOf (b.msg.read (start + i)) := by
  rw [h.group4 hi, num_bin]
  exact Nat.mod_eq_of_lt (hexvalOf_lt _)

/-- Eight bits are two groups of four. -/
theorem group8_eq_group4_append (b : Block) (k : Nat) :
    (List.range 8).map (fun j => b.bit (8 * k + j)) =
      (List.range 4).map (fun j => b.bit (4 * (2 * k) + j)) ++
        (List.range 4).map (fun j => b.bit (4 * (2 * k + 1) + j)) := by
  rw [show List.range 8 = List.range 4 ++ (List.range 4).map (4 + ·) from rfl, List.map_append, List.map_map]
  congr 1
  · exact List.map_congr_left fun j _ => congrArg b.bit (by omega)
  · exact List.map_congr_left fun j _ => congrArg b.bit (show 8 * k + (4 + j) = 4 * (2 * k + 1) + j by omega)

theorem HoldsHex.num_group8 (h : HoldsHex b start count) {k : Nat} (hk : 2 * k + 1 < count) :
    num ((List.range 8).map (fun j => b.bit (8 * k + j))) =
      16 * hexvalOf (b.msg.read (start + 2 * k)) + hexvalOf (b.msg.read (start + 2 * k + 1)) := by
  rw [group8_eq_group4_append, num_append, h.num_group4 (by omega), h.num_group4 hk, List.length_map,
    List.length_range]
  rfl

end Groups

/-- What an expansion that returns `NONE` has checked and written (R132). -/
theorem expand_eq_none {b e : Block} {start count : Nat} (h : b.expand start count = (.none, e)) :
    AllHex b start count ∧ e = b.clearHex.setHex (expandBits b.msg start count) count := by
  cases hall : allHex b.msg start count with
  | false => rw [expand_bad hall] at h; cases h
  | true =>
    rw [expand_ok hall] at h
    exact ⟨(allHex_iff_AllHex b start count).1 hall, (Prod.mk.inj h).2.symm⟩

/-- Settles O32: BITS of the result holds the characters, so each group of bits is read off by `num_bin`. -/
theorem expandRoundTrips : Obligations.ExpandRoundTrips := by
  intro b e start count hcap hexp
  obtain ⟨hall, rfl⟩ := expand_eq_none hexp
  have hholds := expand_holdsHex b start count (by omega)
  refine ⟨hholds.1, fun i hi => ?_, fun k hk => ⟨hholds.num_group8 hk, ?_⟩⟩
  · rw [hholds.num_group4 hi]
    exact some_hexvalOf (hall i hi)
  · rw [busRead_bitbuf _ (by omega), bitbuf_toNat]

/-! ## H2B (R133) -/

theorem cmdH2b_tooLong {b : Block} (h : 256 < b.msgLen.toNat) : cmdH2b b = b.clearHex.finish .inputTooLong := by
  unfold cmdH2b
  rw [msgCap_val, if_pos h]

theorem cmdH2b_fits {b : Block} (h : b.msgLen.toNat ≤ 256) : cmdH2b b = finishWith (b.expand 0 b.msgLen.toNat) := by
  unfold cmdH2b
  rw [msgCap_val, if_neg (Nat.not_lt.2 h)]

theorem cmdH2b_digits {b : Block} (h : b.msgLen.toNat ≤ 256) (hall : AllHex b 0 b.msgLen.toNat) :
    cmdH2b b = (b.clearHex.setHex (expandBits b.msg 0 b.msgLen.toNat) b.msgLen.toNat).finish .none := by
  rw [cmdH2b_fits h, expand_ok ((allHex_iff_AllHex _ _ _).2 hall), finishWith_eq]

theorem cmdH2b_invalid {b : Block} (h : b.msgLen.toNat ≤ 256) (hbad : ¬ AllHex b 0 b.msgLen.toNat) :
    cmdH2b b = b.clearHex.finish .invalidHex := by
  rw [← allHex_iff_AllHex, Bool.not_eq_true] at hbad
  rw [cmdH2b_fits h, expand_bad hbad, finishWith_eq]

/-- H2B writes groups HEX and STAT only: a cleared HEX is the conversion of no character. -/
theorem cmdH2b_eq_finish_setHex (b : Block) :
    ∃ bits count code, cmdH2b b = (b.setHex bits count).finish code := by
  rcases Nat.lt_or_ge 256 b.msgLen.toNat with hlong | hfits
  · exact ⟨[], 0, _, cmdH2b_tooLong hlong⟩
  · by_cases hall : AllHex b 0 b.msgLen.toNat
    · exact ⟨_, _, _, cmdH2b_digits hfits hall⟩
    · exact ⟨[], 0, _, cmdH2b_invalid hfits hall⟩

theorem cmdH2b_frame (b : Block) :
    (cmdH2b b).cmd = b.cmd ∧ SameInputs b (cmdH2b b) ∧ SameDec b (cmdH2b b) ∧ SamePay b (cmdH2b b) ∧
      SameCs b (cmdH2b b) := by
  obtain ⟨bits, count, code, h⟩ := cmdH2b_eq_finish_setHex b
  rw [h]
  simp [SameInputs, SameDec, SamePay, SameCs]

theorem finish_endedWith (b : Block) (c : ErrCode) : EndedWith (b.finish c) c := ⟨rfl, rfl, decide_not.symm⟩

theorem clearHex_finish_hexCleared (b : Block) (c : ErrCode) : HexCleared (b.clearHex.finish c) :=
  ⟨Block.clearHex_bit b, rfl⟩

/-- What H2B leaves in groups HEX and STAT, in each of its three cases. -/
theorem cmdH2b_outcome (b : Block) :
    (256 < b.msgLen.toNat → HexCleared (cmdH2b b) ∧ EndedWith (cmdH2b b) .inputTooLong) ∧
    (b.msgLen.toNat ≤ 256 → AllHex b 0 b.msgLen.toNat →
      HoldsHex (cmdH2b b) 0 b.msgLen.toNat ∧ EndedWith (cmdH2b b) .none) ∧
    (b.msgLen.toNat ≤ 256 → ¬ AllHex b 0 b.msgLen.toNat →
      HexCleared (cmdH2b b) ∧ EndedWith (cmdH2b b) .invalidHex) := by
  refine ⟨fun hlong => ?_, fun hfits hall => ?_, fun hfits hbad => ?_⟩
  · rw [cmdH2b_tooLong hlong]
    exact ⟨clearHex_finish_hexCleared b _, finish_endedWith _ _⟩
  · rw [cmdH2b_digits hfits hall]
    exact ⟨expand_holdsHex b 0 b.msgLen.toNat (by omega), finish_endedWith _ _⟩
  · rw [cmdH2b_invalid hfits hbad]
    exact ⟨clearHex_finish_hexCleared b _, finish_endedWith _ _⟩

theorem exec_h2b (s : State) : exec .h2b s = .next { s with block := cmdH2b (s.block.setCmd 0x02) } :=
  issueAs_next Command.h2b.op cmdH2b s

/-- Settles O31: H2B is its rule on the block whose CMD took the code, so its frame and its three cases are the
rule's. -/
theorem h2bConvertsMsg : Obligations.H2bConvertsMsg := by
  intro s
  obtain ⟨hcmd, hin, hdec, hpay, hcs⟩ := cmdH2b_frame (s.block.setCmd 0x02)
  exact ⟨_, exec_h2b s, ⟨rfl, rfl⟩, hcmd, hin, hdec, hpay, hcs, cmdH2b_outcome (s.block.setCmd 0x02)⟩

end Sys2Proof.Machine
end

section
/-! PROOFS. The locator (42_v2_decoder.md R150), the bits a decoded byte holds (R151, 43_v3_decoder.md R171), and V2D in
every case (R153). -/

namespace Sys2Proof.Machine

/-! ## The locator (R150) -/

/-- A pattern that fits at an index and does not occur there differs from the bits at some place. -/
theorem exists_ne_of_not_occursAt {s : BitString} {n : Nat} {p : List Bool} {i : Nat} (hfit : i + p.length ≤ n)
    (h : ¬ OccursAt s n p i) : ∃ j, j < p.length ∧ s.getD (i + j) false ≠ p.getD j false := by
  by_contra hall
  push Not at hall
  exact h ⟨hfit, hall⟩

/-- More bits behind the first occurrence do not move it. -/
theorem FirstAt.mono {s : BitString} {n m : Nat} {p : List Bool} {i : Nat} (h : FirstAt s n p i) (hnm : n ≤ m) :
    FirstAt s m p i := by
  obtain ⟨⟨hfit, hbits⟩, hleast⟩ := h
  exact ⟨⟨hfit.trans hnm, hbits⟩, fun i' hi' hocc => hleast i' hi' ⟨by omega, hocc.2⟩⟩

/-- Settles O27: the two answers of the locator are the first occurrence and absence. -/
theorem locatorFindsLeastIndex : Obligations.LocatorFindsLeastIndex := by
  intro s n p
  cases hf : first s n p with
  | none =>
    have habsent : Absent s n p := (first_eq_none_iff s n p).1 hf
    exact .inr ⟨rfl, fun i hfit => exists_ne_of_not_occursAt hfit (habsent i)⟩
  | some i =>
    have hfirst : FirstAt s n p i := (first_eq_some_iff s n p i).1 hf
    have hlonger : ∀ m, n ≤ m → first s m p = some i := fun m hnm =>
      (first_eq_some_iff s m p i).2 (hfirst.mono hnm)
    obtain ⟨⟨hfit, hbits⟩, hleast⟩ := hfirst
    have hbefore : ∀ i', i' < i → ∃ j, j < p.length ∧ s.getD (i' + j) false ≠ p.getD j false := fun i' hi' =>
      exists_ne_of_not_occursAt (by omega) (hleast i' hi')
    exact .inl ⟨i, rfl, hfit, hbits, hbefore, hlonger⟩

/-! ## Decoded bytes (R151, R171) -/

/-- Reversal moves bit `7 - j` to bit `j`. -/
theorem rev8_getLsbD (x : Byte) {j : Nat} (h : j < 8) : (rev8 x).getLsbD j = x.getLsbD (7 - j) :=
  byteOfBits_getLsbD _ j h

/-- The chunk's number has chunk bit `j` at bit `7 - j`, so its reversal, like the V3 byte, has it at bit `j` (R171). -/
theorem v3Byte_eq_rev8_num (s : BitString) (c : Nat) :
    v3Byte s c = rev8 (BitVec.ofNat 8 (num ((List.range 8).map (fun j => s.getD (c + j) false)))) := by
  refine BitVec.eq_of_getLsbD_eq fun j hj => ?_
  rw [v3Byte_getLsbD s c j hj, rev8_getLsbD _ hj, num8_getLsbD _ j hj]

/-- Settles O28: each kind of byte is built bit by bit from the chunk bits it selects. -/
theorem chunkBytesSelectBits : Obligations.ChunkBytesSelectBits := by
  refine ⟨fun x j hj => ?_, fun s c => ⟨v2Byte_getLsbD s c, v3Byte_getLsbD s c, v3Byte_eq_rev8_num s c⟩⟩
  rw [rev8_getLsbD x (by omega), Nat.sub_sub_self (by omega)]

/-! ## V2D (R153) -/

theorem clearDec_outCleared (b : Block) : OutCleared b.clearDec := ⟨rfl, rfl, rfl⟩

theorem clearDec_noV2 (b : Block) : NoV2 b.clearDec := ⟨rfl, rfl⟩

theorem clearDec_noV3 (b : Block) : NoV3 b.clearDec := ⟨rfl, rfl, rfl⟩

/-- What a V2 attempt leaves unchanged, field by field. -/
theorem V2Frame.same {b e : Block} (h : V2Frame b e) :
    e.cmd = b.cmd ∧ SameInputs b e ∧ SameHex b e ∧ SamePay b e ∧ SameCs b e ∧ (NoV3 b → NoV3 e) := by
  rw [h]
  exact ⟨rfl, ⟨rfl, rfl⟩, ⟨rfl, rfl⟩, ⟨rfl, rfl⟩, ⟨rfl, rfl, rfl⟩, id⟩

/-- V2D is a V2 attempt on a cleared group DEC, ended with the code the attempt returns. -/
theorem cmdV2d_spec (b : Block) :
    ∃ c e, cmdV2d b = e.finish c ∧ V2Outcome e c ∧ (c ≠ .none → OutCleared e) ∧ V2Frame b.clearDec e := by
  obtain ⟨c, e, hrun, hspec⟩ := v2Run_spec b.clearDec (clearDec_outCleared b) (clearDec_noV2 b)
  exact ⟨c, e, congrArg finishWith hrun, hspec⟩

theorem exec_v2d (s : State) : exec .v2d s = .next { s with block := cmdV2d (s.block.setCmd 0x03) } :=
  issueAs_next Command.v2d.op cmdV2d s

/-- Settles O33: the outcome, the cleared output and the frame are those of the V2 attempt, and `finish` writes group
STAT alone. -/
theorem v2dDecodesBits : Obligations.V2dDecodesBits := by
  intro s
  obtain ⟨c, e, hcmd, hout, hclear, hframe⟩ := cmdV2d_spec (s.block.setCmd 0x03)
  obtain ⟨hop, hin, hhex, hpay, hcs, hv3⟩ := hframe.same
  refine ⟨_, c, exec_v2d s, ⟨rfl, rfl⟩, ?_⟩
  rw [hcmd]
  exact ⟨hop, hin, hhex, hpay, hcs, hout.finish, fun hc => (hclear hc).noOutput, hv3 (clearDec_noV3 _),
    finish_endedWith e c⟩

end Sys2Proof.Machine
end

section
/-! PROOFS. V3D in every case (43_v3_decoder.md R173), and the preamble's place taking no part in the output (R174). -/

namespace Sys2Proof.Machine

/-! ## V3D (R173) -/

/-- What a V3 attempt leaves unchanged, field by field. -/
theorem V3Frame.same {b e : Block} (h : V3Frame b e) :
    e.cmd = b.cmd ∧ SameInputs b e ∧ SameHex b e ∧ SamePay b e ∧ SameCs b e ∧ (NoV2 b → NoV2 e) := by
  rw [h]
  exact ⟨rfl, ⟨rfl, rfl⟩, ⟨rfl, rfl⟩, ⟨rfl, rfl⟩, ⟨rfl, rfl, rfl⟩, id⟩

/-- V3D is a V3 attempt on a cleared group DEC, ended with the code the attempt returns. -/
theorem cmdV3d_spec (b : Block) :
    ∃ c e, cmdV3d b = e.finish c ∧ V3Outcome e c ∧ (c ≠ .none → OutCleared e) ∧ V3Frame b.clearDec e := by
  obtain ⟨c, e, hrun, hspec⟩ := v3Run_spec b.clearDec (clearDec_outCleared b) (clearDec_noV3 b)
  exact ⟨c, e, congrArg finishWith hrun, hspec⟩

theorem exec_v3d (s : State) : exec .v3d s = .next { s with block := cmdV3d (s.block.setCmd 0x04) } :=
  issueAs_next Command.v3d.op cmdV3d s

/-- Settles O34: the outcome, the cleared output and the frame are those of the V3 attempt, and `finish` writes group
STAT alone. -/
theorem v3dDecodesBits : Obligations.V3dDecodesBits := by
  intro s
  obtain ⟨c, e, hcmd, hout, hclear, hframe⟩ := cmdV3d_spec (s.block.setCmd 0x04)
  obtain ⟨hop, hin, hhex, hpay, hcs, hv2⟩ := hframe.same
  refine ⟨_, c, exec_v3d s, ⟨rfl, rfl⟩, ?_⟩
  rw [hcmd]
  exact ⟨hop, hin, hhex, hpay, hcs, hout.finish, fun hc => (hclear hc).noOutput, hv2 (clearDec_noV2 _),
    finish_endedWith e c⟩

/-! ## What the output depends on (R152, R174) -/

/-- The code and the OUT that `emit` gives depend on the bytes, and of the block only on its OUT and OUT_LEN. -/
theorem emit_output_congr {b b' : Block} (hout : b'.out = b.out) (hlen : b'.outLen = b.outLen) (bytes : List Byte)
    (path : BitVec 2) :
    (b'.emit bytes path).1 = (b.emit bytes path).1 ∧ (b'.emit bytes path).2.out = (b.emit bytes path).2.out ∧
      (b'.emit bytes path).2.outLen = (b.emit bytes path).2.outLen := by
  rcases Nat.eq_zero_or_pos bytes.length with hempty | hpos
  · rw [emit_empty hempty, emit_empty hempty]
    exact ⟨rfl, hout, hlen⟩
  · rcases Nat.lt_or_ge 31 bytes.length with hlong | hfits
    · rw [emit_long hlong, emit_long hlong]
      exact ⟨rfl, hout, hlen⟩
    · rw [emit_fits hpos hfits, emit_fits hpos hfits, Block.setOut_out, Block.setOut_out, hout]
      exact ⟨rfl, rfl, rfl⟩

/-- The V3 bytes from `d` on are made of the bits from `d` on. -/
theorem v3Bytes_congr {s s' : BitString} {d : Nat} (h : ∀ i, d ≤ i → s'.getD i false = s.getD i false) (n : Nat) :
    v3Bytes s' n d = v3Bytes s n d := by
  refine List.map_congr_left fun k _ => BitVec.eq_of_getLsbD_eq fun j hj => ?_
  rw [v3Byte_getLsbD _ _ j hj, v3Byte_getLsbD _ _ j hj, h _ (by omega)]

/-- Where the preamble is found, the attempt puts out the bytes from the first marker on. -/
theorem v3Run_found {b : Block} {p d : Nat} (hp : FirstAt b.bits b.bitLen.toNat Config.v3Preamble p)
    (hd : FirstAt b.bits b.bitLen.toNat Config.v3Marker d) :
    b.v3Run = (b.setV3 p d).emit (v3Bytes b.bits b.bitLen.toNat d) 0b10 := by
  unfold Block.v3Run
  rw [(first_eq_some_iff _ _ _ _).2 hp, (first_eq_some_iff _ _ _ _).2 hd]

/-- V3D on bits that hold the preamble anywhere: its place reaches only the V3 fields. -/
theorem cmdV3d_of_occursAt {b : Block} {p d : Nat} (hp : OccursAt b.bits b.bitLen.toNat Config.v3Preamble p)
    (hd : FirstAt b.bits b.bitLen.toNat Config.v3Marker d) :
    ∃ q, cmdV3d b = finishWith ((b.clearDec.setV3 q d).emit (v3Bytes b.bits b.bitLen.toNat d) 0b10) := by
  obtain ⟨q, hq, -⟩ := first_of_occursAt hp
  exact ⟨q, congrArg finishWith (v3Run_found (b := b.clearDec) ((first_eq_some_iff _ _ _ _).1 hq) hd)⟩

/-- Settles O48: both runs put out the same bytes into a cleared OUT. -/
theorem v3PreambleIsExistenceCheckOnly : Obligations.V3PreambleIsExistenceCheckOnly := by
  intro s s' p p' d hn hp hp' hd hd' hbits
  obtain ⟨q, hcmd⟩ := cmdV3d_of_occursAt (b := s.block.setCmd 0x04) hp hd
  obtain ⟨q', hcmd'⟩ := cmdV3d_of_occursAt (b := s'.block.setCmd 0x04) hp' hd'
  have hbytes : v3Bytes s'.block.bits s'.block.bitLen.toNat d = v3Bytes s.block.bits s.block.bitLen.toNat d := by
    rw [hn]
    exact v3Bytes_congr hbits _
  rw [Block.setCmd_bits, Block.setCmd_bitLen] at hcmd hcmd'
  rw [hbytes] at hcmd'
  obtain ⟨hcode, hout, hlen⟩ := emit_output_congr (b := (s.block.setCmd 0x04).clearDec.setV3 q d)
    (b' := (s'.block.setCmd 0x04).clearDec.setV3 q' d) rfl rfl
    (v3Bytes s.block.bits s.block.bitLen.toNat d) 0b10
  refine ⟨_, _, exec_v3d s, exec_v3d s', ?_⟩
  rw [hcmd, hcmd']
  exact ⟨hlen, congrArg ErrCode.code hcode, fun k => congrArg (Memory.read · k) hout⟩

end Sys2Proof.Machine
end

section
/-! PROOFS. PRE in every case (44_preprocessor.md R191 to R195). -/

namespace Sys2Proof.Machine

/-! ## Framing (R195) -/

theorem framed_iff (b : Block) :
    b.framed = true ↔ 4 ≤ b.msgLen.toNat ∧ b.msg.read 0 = 0x6F ∧ b.msg.read 1 = 0x6D := by
  simp [Block.framed]

theorem framed_eq_false_iff (b : Block) :
    b.framed = false ↔ b.msgLen.toNat < 4 ∨ b.msg.read 0 ≠ 0x6F ∨ b.msg.read 1 ≠ 0x6D := by
  rw [← Bool.not_eq_true, framed_iff, not_and_or, not_and_or, Nat.not_le]

/-! ## PRE, an equation per case (R191) -/

theorem cmdPre_tooLong {b : Block} (h : 256 < b.msgLen.toNat) :
    cmdPre b = b.clearHex.clearDec.finish .inputTooLong := by
  unfold cmdPre
  rw [msgCap_val, if_pos h]

theorem cmdPre_unframed {b : Block} (h : b.msgLen.toNat ≤ 256) (hf : b.framed = false) :
    cmdPre b = b.clearHex.clearDec.finish .invalidFraming := by
  unfold cmdPre
  rw [msgCap_val, if_neg (Nat.not_lt.2 h), hf]
  rfl

theorem cmdPre_invalidHex {b : Block} (h : b.msgLen.toNat ≤ 256) (hf : b.framed = true)
    (hbad : ¬ AllHex b 2 (b.msgLen.toNat - 2)) : cmdPre b = b.clearHex.clearDec.finish .invalidHex := by
  rw [← allHex_iff_AllHex, Bool.not_eq_true] at hbad
  unfold cmdPre
  rw [msgCap_val, if_neg (Nat.not_lt.2 h), if_pos hf, expand_bad (b := b.clearHex.clearDec) hbad]
  rfl

theorem cmdPre_digits {b : Block} (h : b.msgLen.toNat ≤ 256) (hf : b.framed = true)
    (hall : AllHex b 2 (b.msgLen.toNat - 2)) :
    cmdPre b = (b.clearHex.clearDec.setHex (expandBits b.msg 2 (b.msgLen.toNat - 2))
      (b.msgLen.toNat - 2)).arbitrate := by
  unfold cmdPre
  rw [msgCap_val, if_neg (Nat.not_lt.2 h), if_pos hf,
    expand_ok (b := b.clearHex.clearDec) ((allHex_iff_AllHex _ _ _).2 hall)]
  rfl

/-! ## What PRE leaves unchanged (R111) -/

/-- What the arbitration leaves unchanged, field by field. -/
theorem DecFrame.same {b c : Block} (h : DecFrame b c) :
    c.cmd = b.cmd ∧ SameInputs b c ∧ SameHex b c ∧ SamePay b c ∧ SameCs b c := by
  rw [h]
  exact ⟨rfl, ⟨rfl, rfl⟩, ⟨rfl, rfl⟩, ⟨rfl, rfl⟩, ⟨rfl, rfl, rfl⟩⟩

/-- The arbitration of converted characters, from cleared groups HEX and DEC. -/
theorem arbitrate_setHex_spec (b : Block) (bits : BitString) (count : Nat) :
    PreOutcome (b.clearHex.clearDec.setHex bits count).arbitrate ∧
      DecFrame (b.setHex bits count) (b.clearHex.clearDec.setHex bits count).arbitrate :=
  arbitrate_spec (b.clearHex.clearDec.setHex bits count) (clearDec_outCleared b.clearHex) (clearDec_noV2 b.clearHex)
    (clearDec_noV3 b.clearHex)

/-- PRE writes groups HEX, DEC and STAT only: a cleared HEX is the conversion of no character. -/
theorem cmdPre_decFrame (b : Block) : ∃ bits count, DecFrame (b.setHex bits count) (cmdPre b) := by
  have early : ∀ {c}, cmdPre b = b.clearHex.clearDec.finish c → DecFrame (b.setHex [] 0) (cmdPre b) :=
    fun h => h ▸ rfl
  rcases Nat.lt_or_ge 256 b.msgLen.toNat with hlong | hfits
  · exact ⟨_, _, early (cmdPre_tooLong hlong)⟩
  cases hf : b.framed with
  | false => exact ⟨_, _, early (cmdPre_unframed hfits hf)⟩
  | true =>
    by_cases hall : AllHex b 2 (b.msgLen.toNat - 2)
    · rw [cmdPre_digits hfits hf hall]
      exact ⟨_, _, (arbitrate_setHex_spec b _ _).2⟩
    · exact ⟨_, _, early (cmdPre_invalidHex hfits hf hall)⟩

theorem cmdPre_frame (b : Block) :
    (cmdPre b).cmd = b.cmd ∧ SameInputs b (cmdPre b) ∧ SamePay b (cmdPre b) ∧ SameCs b (cmdPre b) := by
  obtain ⟨bits, count, hframe⟩ := cmdPre_decFrame b
  obtain ⟨hop, hin, -, hpay, hcs⟩ := hframe.same
  exact ⟨hop, hin, hpay, hcs⟩

/-! ## What PRE leaves in groups HEX, DEC and STAT -/

/-- Whether BITS holds characters of MSG is a matter of group HEX and MSG alone. -/
theorem HoldsHex.of_same {b c : Block} {start count : Nat} (h : HoldsHex b start count) (hin : SameInputs b c)
    (hhex : SameHex b c) : HoldsHex c start count := by
  obtain ⟨hmsg, -⟩ := hin
  obtain ⟨hbits, hlen⟩ := hhex
  unfold HoldsHex Block.bit
  rw [hmsg, hbits, hlen]
  exact h

/-- What a check that fails leaves: groups HEX and DEC cleared, and its code. -/
theorem clearHex_clearDec_finish_cleared (b : Block) (c : ErrCode) :
    let e := b.clearHex.clearDec.finish c
    HexCleared e ∧ NoOutput e ∧ NoV2 e ∧ NoV3 e ∧ EndedWith e c :=
  ⟨⟨Block.clearHex_bit b, rfl⟩, (clearDec_outCleared b.clearHex).noOutput, clearDec_noV2 b.clearHex,
    clearDec_noV3 b.clearHex, finish_endedWith _ c⟩

theorem cmdPre_digits_outcome {b : Block} (h : b.msgLen.toNat ≤ 256) (hf : b.framed = true)
    (hall : AllHex b 2 (b.msgLen.toNat - 2)) :
    HoldsHex (cmdPre b) 2 (b.msgLen.toNat - 2) ∧ PreOutcome (cmdPre b) := by
  rw [cmdPre_digits h hf hall]
  obtain ⟨hout, hframe⟩ := arbitrate_setHex_spec b (expandBits b.msg 2 (b.msgLen.toNat - 2)) (b.msgLen.toNat - 2)
  obtain ⟨-, hin, hhex, -, -⟩ := hframe.same
  exact ⟨(expand_holdsHex b 2 _ (by omega)).of_same hin hhex, hout⟩

theorem exec_pre (s : State) : exec .pre s = .next { s with block := cmdPre (s.block.setCmd 0x01) } :=
  issueAs_next Command.pre.op cmdPre s

/-- Settles O35: PRE is its rule on the block whose CMD took the code; each failed check ends on cleared groups HEX and
DEC, and the rest is the arbitration of the converted characters. -/
theorem preDecodesMsg : Obligations.PreDecodesMsg := by
  intro s
  obtain ⟨hop, hin, hpay, hcs⟩ := cmdPre_frame (s.block.setCmd 0x01)
  refine ⟨_, exec_pre s, ⟨rfl, rfl⟩, hop, hin, hpay, hcs, fun hlong => ?_, fun hfits hframing => ?_,
    fun hfits hlen h0 h1 hbad => ?_, fun hfits hlen h0 h1 hall => ?_⟩
  · rw [cmdPre_tooLong (b := s.block.setCmd 0x01) hlong]
    exact clearHex_clearDec_finish_cleared _ _
  · rw [cmdPre_unframed (b := s.block.setCmd 0x01) hfits ((framed_eq_false_iff _).2 hframing)]
    exact clearHex_clearDec_finish_cleared _ _
  · rw [cmdPre_invalidHex (b := s.block.setCmd 0x01) hfits ((framed_iff _).2 ⟨hlen, h0, h1⟩) hbad]
    exact clearHex_clearDec_finish_cleared _ _
  · exact cmdPre_digits_outcome (b := s.block.setCmd 0x01) hfits ((framed_iff _).2 ⟨hlen, h0, h1⟩) hall

end Sys2Proof.Machine
end

section
/-! PROOFS. The payload loads LDP and LDO in every case (45_checksum.md R212, R215, R216), and LDO as LDP of the
rendered output (R217). -/

namespace Sys2Proof.Machine

/-! ## What a load leaves, whichever way it ends (R212) -/

/-- Only groups PAYG, CS and STAT are written, and no verdict is left. -/
theorem load_frame {b e : Block} {bytes : List Byte} {c : ErrCode} (h : e = (b.loadStart.setPay bytes).finish c) :
    e.cmd = b.cmd ∧ SameInputs b e ∧ SameHex b e ∧ SameDec b e ∧ CsCleared e := by
  rw [h]
  exact ⟨rfl, ⟨rfl, rfl⟩, ⟨rfl, rfl⟩, ⟨rfl, rfl, rfl, rfl, rfl, rfl, rfl, rfl⟩, rfl, rfl, rfl⟩

/-- A load that fails has loaded no byte. -/
theorem loadStart_finish_eq (b : Block) (c : ErrCode) : b.loadStart.finish c = (b.loadStart.setPay []).finish c := rfl

theorem failedLoad_outcome {b e : Block} {c : ErrCode} (h : e = b.loadStart.finish c) :
    PayCleared e ∧ EndedWith e c := by
  rw [h]
  exact ⟨⟨fun _ => rfl, rfl⟩, finish_endedWith _ c⟩

theorem load_read {bytes : List Byte} {k : Nat} (h : k < bytes.length) (b : Block) (c : ErrCode) :
    ((b.loadStart.setPay bytes).finish c).pay.read k = bytes.getD k 0 :=
  (loaded_read bytes k).trans (if_pos h)

theorem load_read_tail {bytes : List Byte} {k : Nat} (h : bytes.length ≤ k) (b : Block) (c : ErrCode) :
    ((b.loadStart.setPay bytes).finish c).pay.read k = 0 :=
  (loaded_read bytes k).trans (if_neg (Nat.not_lt.2 h))

/-! ## LDP, an equation per case (R215) -/

section Ldp

variable {b : Block}

theorem cmdLdp_tooLong (h : 256 < b.msgLen.toNat) : cmdLdp b = b.loadStart.finish .inputTooLong := by
  unfold cmdLdp
  rw [msgCap_val, if_pos h]

theorem cmdLdp_odd (h : b.msgLen.toNat ≤ 256) (hodd : b.msgLen.toNat % 2 = 1) :
    cmdLdp b = b.loadStart.finish .invalidHex := by
  unfold cmdLdp
  rw [msgCap_val, if_neg (Nat.not_lt.2 h), if_pos hodd]

theorem cmdLdp_invalidHex (h : b.msgLen.toNat ≤ 256) (heven : b.msgLen.toNat % 2 = 0)
    (hbad : ¬ AllHex b 0 b.msgLen.toNat) : cmdLdp b = b.loadStart.finish .invalidHex := by
  rw [← allHex_iff_AllHex, Bool.not_eq_true] at hbad
  unfold cmdLdp
  rw [msgCap_val, if_neg (Nat.not_lt.2 h), if_neg (by omega), hbad]
  rfl

/-- Past the checks of the characters the number of bytes decides. -/
theorem cmdLdp_digits (h : b.msgLen.toNat ≤ 256) (heven : b.msgLen.toNat % 2 = 0) (hall : AllHex b 0 b.msgLen.toNat) :
    cmdLdp b =
      if 32 < b.msgLen.toNat / 2 then b.loadStart.finish .payloadTooLong
      else if b.msgLen.toNat / 2 < 3 then b.loadStart.finish .truncatedMessage
      else (b.loadStart.setPay (msgBytes b.msg b.msgLen.toNat)).finish .none := by
  unfold cmdLdp
  rw [msgCap_val, if_neg (Nat.not_lt.2 h), if_neg (by omega), (allHex_iff_AllHex _ _ _).2 hall]
  rfl

theorem cmdLdp_payloadTooLong (h : b.msgLen.toNat ≤ 256) (heven : b.msgLen.toNat % 2 = 0)
    (hall : AllHex b 0 b.msgLen.toNat) (hlong : 64 < b.msgLen.toNat) :
    cmdLdp b = b.loadStart.finish .payloadTooLong := by
  rw [cmdLdp_digits h heven hall, if_pos (by omega)]

theorem cmdLdp_truncated (heven : b.msgLen.toNat % 2 = 0) (hall : AllHex b 0 b.msgLen.toNat)
    (hshort : b.msgLen.toNat < 6) : cmdLdp b = b.loadStart.finish .truncatedMessage := by
  rw [cmdLdp_digits (by omega) heven hall, if_neg (by omega), if_pos (by omega)]

theorem cmdLdp_loads (hcap : b.msgLen.toNat ≤ 64) (hmin : 6 ≤ b.msgLen.toNat) (heven : b.msgLen.toNat % 2 = 0)
    (hall : AllHex b 0 b.msgLen.toNat) :
    cmdLdp b = (b.loadStart.setPay (msgBytes b.msg b.msgLen.toNat)).finish .none := by
  rw [cmdLdp_digits (by omega) heven hall, if_neg (by omega), if_neg (by omega)]

/-- Whichever check ends it, LDP loads some bytes into the cleared groups and ends with some code. -/
theorem cmdLdp_eq_load (b : Block) : ∃ bytes code, cmdLdp b = (b.loadStart.setPay bytes).finish code := by
  have failed : ∀ {code}, cmdLdp b = b.loadStart.finish code →
      ∃ bytes code, cmdLdp b = (b.loadStart.setPay bytes).finish code :=
    fun h => ⟨[], _, h.trans (loadStart_finish_eq b _)⟩
  rcases Nat.lt_or_ge 256 b.msgLen.toNat with hlong | hfits
  · exact failed (cmdLdp_tooLong hlong)
  rcases Nat.mod_two_eq_zero_or_one b.msgLen.toNat with heven | hodd
  · by_cases hall : AllHex b 0 b.msgLen.toNat
    · rcases Nat.lt_or_ge 64 b.msgLen.toNat with hlong | hcap
      · exact failed (cmdLdp_payloadTooLong hfits heven hall hlong)
      rcases Nat.lt_or_ge b.msgLen.toNat 6 with hshort | hmin
      · exact failed (cmdLdp_truncated heven hall hshort)
      · exact ⟨_, _, cmdLdp_loads hcap hmin heven hall⟩
    · exact failed (cmdLdp_invalidHex hfits heven hall)
  · exact failed (cmdLdp_odd hfits hodd)

/-- PAY after an LDP that succeeds: the byte of each pair of characters, and zeros after. -/
theorem cmdLdp_loads_outcome (hcap : b.msgLen.toNat ≤ 64) (hmin : 6 ≤ b.msgLen.toNat) (heven : b.msgLen.toNat % 2 = 0)
    (hall : AllHex b 0 b.msgLen.toNat) :
    (cmdLdp b).payLen.toNat = b.msgLen.toNat / 2 ∧ EndedWith (cmdLdp b) .none ∧
      (∀ k, k < b.msgLen.toNat / 2 → ((cmdLdp b).pay.read k).toNat =
        16 * hexvalOf (b.msg.read (2 * k)) + hexvalOf (b.msg.read (2 * k + 1))) ∧
      ∀ k, b.msgLen.toNat / 2 ≤ k → (cmdLdp b).pay.read k = 0 := by
  rw [cmdLdp_loads hcap hmin heven hall]
  refine ⟨?_, finish_endedWith _ _, fun k hk => ?_, fun k hk => load_read_tail (by rwa [msgBytes_length]) b _⟩
  · rw [Block.finish_payLen, Block.setPay_payLen, msgBytes_length, BitVec.toNat_ofNat]
    exact Nat.mod_eq_of_lt (by omega)
  · rw [load_read (by rwa [msgBytes_length]), msgBytes_getD _ _ _ hk, pair_toNat]

end Ldp

theorem exec_ldp (s : State) : exec .ldp s = .next { s with block := cmdLdp (s.block.setCmd 0x08) } :=
  issueAs_next Command.ldp.op cmdLdp s

/-- Settles O36: LDP is its rule on the block whose CMD took the code; each check that fails ends on the cleared groups,
and what is loaded is the list of the pairs' bytes. -/
theorem ldpLoadsMsg : Obligations.LdpLoadsMsg := by
  intro s
  obtain ⟨bytes, code, hload⟩ := cmdLdp_eq_load (s.block.setCmd 0x08)
  obtain ⟨hcmd, hin, hhex, hdec, hcs⟩ := load_frame hload
  refine ⟨_, exec_ldp s, ⟨rfl, rfl⟩, hcmd, hin, hhex, hdec, hcs, fun hlong => ?_, fun hfits hodd => ?_,
    fun hfits heven hbad => ?_, fun hfits heven hall hlong => ?_, fun _ heven hall hshort => ?_,
    cmdLdp_loads_outcome (b := s.block.setCmd 0x08)⟩
  · exact failedLoad_outcome (cmdLdp_tooLong hlong)
  · exact failedLoad_outcome (cmdLdp_odd hfits hodd)
  · exact failedLoad_outcome (cmdLdp_invalidHex hfits heven hbad)
  · exact failedLoad_outcome (cmdLdp_payloadTooLong hfits heven hall hlong)
  · exact failedLoad_outcome (cmdLdp_truncated heven hall hshort)

/-! ## LDO (R216) -/

theorem cmdLdo_truncated {b : Block} (h : b.outLen.toNat < 3) : cmdLdo b = b.loadStart.finish .truncatedMessage := by
  unfold cmdLdo
  rw [if_pos h]

theorem cmdLdo_loads {b : Block} (h : 3 ≤ b.outLen.toNat) :
    cmdLdo b = (b.loadStart.setPay (firstBytes b.out b.outLen.toNat)).finish .none := by
  unfold cmdLdo
  rw [if_neg (Nat.not_lt.2 h)]

theorem cmdLdo_eq_load (b : Block) : ∃ bytes code, cmdLdo b = (b.loadStart.setPay bytes).finish code := by
  rcases Nat.lt_or_ge b.outLen.toNat 3 with hshort | hmin
  · exact ⟨[], _, (cmdLdo_truncated hshort).trans (loadStart_finish_eq b _)⟩
  · exact ⟨_, _, cmdLdo_loads hmin⟩

/-- PAY after an LDO that succeeds: the first OUT_LEN bytes of OUT, and zeros after. -/
theorem cmdLdo_loads_outcome {b : Block} (h : 3 ≤ b.outLen.toNat) :
    (cmdLdo b).payLen = b.outLen ∧ EndedWith (cmdLdo b) .none ∧
      (∀ k, k < b.outLen.toNat → (cmdLdo b).pay.read k = b.out.read k) ∧
      ∀ k, b.outLen.toNat ≤ k → (cmdLdo b).pay.read k = 0 := by
  rw [cmdLdo_loads h]
  refine ⟨?_, finish_endedWith _ _, fun k hk => ?_, fun k hk => load_read_tail (by rwa [firstBytes_length]) b _⟩
  · rw [Block.finish_payLen, Block.setPay_payLen, firstBytes_length, BitVec.ofNat_toNat, BitVec.setWidth_eq]
  · rw [load_read (by rwa [firstBytes_length]), firstBytes_getD _ _ _ hk]

theorem exec_ldo (s : State) : exec .ldo s = .next { s with block := cmdLdo (s.block.setCmd 0x09) } :=
  issueAs_next Command.ldo.op cmdLdo s

/-- Settles O37: LDO is its rule on the block whose CMD took the code, and its one check decides what is loaded. -/
theorem ldoLoadsOut : Obligations.LdoLoadsOut := by
  intro s
  obtain ⟨bytes, code, hload⟩ := cmdLdo_eq_load (s.block.setCmd 0x09)
  obtain ⟨hcmd, hin, hhex, hdec, hcs⟩ := load_frame hload
  exact ⟨_, exec_ldo s, ⟨rfl, rfl⟩, hcmd, hin, hhex, hdec, hcs,
    fun hshort => failedLoad_outcome (cmdLdo_truncated hshort), cmdLdo_loads_outcome (b := s.block.setCmd 0x09)⟩

/-! ## LDO is LDP of OUTHEX (R217) -/

/-- Two neighbours in OUTHEX are the digits of one byte of OUT. -/
theorem pair_outhex {b : Block} {k : Nat} (h : k < b.outLen.toNat) :
    pair (b.outhex (2 * k)) (b.outhex (2 * k + 1)) = b.out.read k := by
  have heven : b.outNibble (2 * k) = hi (b.out.read k) := by
    unfold Block.outNibble
    rw [if_pos (by omega), show 2 * k / 2 = k by omega]
  have hodd : b.outNibble (2 * k + 1) = lo (b.out.read k) := by
    unfold Block.outNibble
    rw [if_neg (by omega), show (2 * k + 1) / 2 = k by omega]
  rw [outhex_eq_hexDigit, outhex_eq_hexDigit, if_pos (by omega), if_pos (by omega), heven, hodd, pair_hexDigits]

section Rendered

variable {b : Block} (htext : ∀ k, k < 2 * b.outLen.toNat → b.msg.read k = b.outhex k)
include htext

theorem allHex_of_outhex : AllHex b 0 (2 * b.outLen.toNat) := by
  intro k hk
  rw [Nat.zero_add, htext k hk, outhex_eq_hexDigit, if_pos hk]
  exact hexval_hexDigit_isSome _ (outNibble_lt b k)

theorem msgBytes_of_outhex : msgBytes b.msg (2 * b.outLen.toNat) = firstBytes b.out b.outLen.toNat := by
  unfold msgBytes firstBytes
  rw [Nat.mul_div_cancel_left _ Nat.two_pos]
  refine List.map_congr_left fun k hk => ?_
  have hk : k < b.outLen.toNat := List.mem_range.1 hk
  rw [htext (2 * k) (by omega), htext (2 * k + 1) (by omega), pair_outhex hk]

/-- The characters of OUTHEX are digits, and their pairs are the bytes of OUT, so both rules load the same list. -/
theorem cmdLdp_eq_cmdLdo (hcap : b.outLen.toNat ≤ 32) (hlen : b.msgLen.toNat = 2 * b.outLen.toNat) :
    cmdLdp b = cmdLdo b := by
  have hall : AllHex b 0 b.msgLen.toNat := hlen ▸ allHex_of_outhex htext
  rcases Nat.lt_or_ge b.outLen.toNat 3 with hshort | hmin
  · rw [cmdLdp_truncated (by omega) hall (by omega), cmdLdo_truncated hshort]
  · rw [cmdLdp_loads (by omega) (by omega) (by omega) hall, cmdLdo_loads hmin, hlen, msgBytes_of_outhex htext]

end Rendered

/-- LDO does not read CMD. -/
theorem cmdLdo_setCmd (b : Block) (v : Byte) : cmdLdo (b.setCmd v) = (cmdLdo b).setCmd v := by
  rcases Nat.lt_or_ge b.outLen.toNat 3 with hshort | hmin
  · rw [cmdLdo_truncated hshort, cmdLdo_truncated (b := b.setCmd v) hshort]
    rfl
  · rw [cmdLdo_loads hmin, cmdLdo_loads (b := b.setCmd v) hmin]
    rfl

/-- Settles O51: on the same block both rules leave the same block, and the two codes in CMD are the only difference. -/
theorem ldoIsLdpOfOuthex : Obligations.LdoIsLdpOfOuthex := by
  intro s hinv hlen htext
  have hcap : s.block.outLen.toNat ≤ 32 := by
    have := hinv.outLen_legal
    omega
  have htext' : ∀ k, k < 2 * s.block.outLen.toNat → s.block.msg.read k = s.block.outhex k :=
    fun k hk => (htext k hk).trans (busRead_outhex s.block (by omega))
  refine ⟨_, _, exec_ldp s, exec_ldo s, ?_⟩
  rw [cmdLdp_eq_cmdLdo (b := s.block.setCmd 0x08) htext' hcap hlen, cmdLdo_setCmd, cmdLdo_setCmd]
  exact ⟨⟨rfl, rfl⟩, ⟨rfl, rfl, rfl⟩, rfl, rfl, rfl⟩

end Sys2Proof.Machine
end

section
/-! PROOFS. The checksum commands CK1, CK2, CK4 and CK5 in every case (45_checksum.md R218 to R222). -/

namespace Sys2Proof.Machine

/-! ## The common procedure (R218) -/

/-- What a checksum command leaves unchanged, field by field. -/
theorem CsFrame.same {b c : Block} (h : CsFrame b c) :
    c.cmd = b.cmd ∧ SameInputs b c ∧ SameHex b c ∧ SameDec b c ∧ SamePay b c := by
  rw [h]
  exact ⟨rfl, ⟨rfl, rfl⟩, ⟨rfl, rfl⟩, ⟨rfl, rfl, rfl, rfl, rfl, rfl, rfl, rfl⟩, rfl, rfl⟩

theorem clearCs_finish_csCleared (b : Block) (c : ErrCode) : CsCleared (b.clearCs.finish c) := ⟨rfl, rfl, rfl⟩

/-- The procedure in both its cases, for a variant whose sum is `ns` and whose reference is `r`. -/
theorem csRun_validates {b : Block} {h need ns r : Nat} {ref : Memory → Byte} (hsum : nibbleSum b.pay h = ns)
    (href : (ref b.pay).toNat = r) :
    let c := b.csRun h need ref
    c.cmd = b.cmd ∧ SameInputs b c ∧ SameHex b c ∧ SameDec b c ∧ SamePay b c ∧
      (b.payLen.toNat < need + 1 → CsCleared c ∧ EndedWith c .checksumRange) ∧
      (need + 1 ≤ b.payLen.toNat → Compared c ns r) := by
  obtain ⟨hcmd, hin, hhex, hdec, hpay⟩ := (csRun_frame b h need ref).same
  refine ⟨hcmd, hin, hhex, hdec, hpay, fun hshort => ?_, fun hlong => ?_⟩
  · rw [csRun_short hshort]
    exact ⟨clearCs_finish_csCleared b _, finish_endedWith _ _⟩
  · rw [← hsum, ← href]
    exact (csRun_compares hlong).1

/-! ## The four variants (R219 to R222) -/

theorem exec_ck1 (s : State) : exec .ck1 s = .next { s with block := cmdCk1 (s.block.setCmd 0x11) } :=
  issueAs_next Command.ck1.op cmdCk1 s

theorem exec_ck2 (s : State) : exec .ck2 s = .next { s with block := cmdCk2 (s.block.setCmd 0x12) } :=
  issueAs_next Command.ck2.op cmdCk2 s

theorem exec_ck4 (s : State) : exec .ck4 s = .next { s with block := cmdCk4 (s.block.setCmd 0x14) } :=
  issueAs_next Command.ck4.op cmdCk4 s

theorem exec_ck5 (s : State) : exec .ck5 s = .next { s with block := cmdCk5 (s.block.setCmd 0x15) } :=
  issueAs_next Command.ck5.op cmdCk5 s

/-- Settles O38: the procedure over 13 nibbles, six bytes and a half, with the reference put together from two
nibbles. -/
theorem ck1ValidatesPayload : Obligations.Ck1ValidatesPayload := fun s =>
  ⟨_, exec_ck1 s, ⟨rfl, rfl⟩, csRun_validates (nibbleSum_odd (s.block.setCmd 0x11) 6) (ck1Ref_toNat s.block)⟩

/-- Settles O39: the procedure over 16 nibbles. -/
theorem ck2ValidatesPayload : Obligations.Ck2ValidatesPayload := fun s =>
  ⟨_, exec_ck2 s, ⟨rfl, rfl⟩, csRun_validates (nibbleSum_even (s.block.setCmd 0x12) 8) rfl⟩

/-- Settles O40: the procedure over 18 nibbles. -/
theorem ck4ValidatesPayload : Obligations.Ck4ValidatesPayload := fun s =>
  ⟨_, exec_ck4 s, ⟨rfl, rfl⟩, csRun_validates (nibbleSum_even (s.block.setCmd 0x14) 9) rfl⟩

/-- Settles O41: the procedure over 20 nibbles. -/
theorem ck5ValidatesPayload : Obligations.Ck5ValidatesPayload := fun s =>
  ⟨_, exec_ck5 s, ⟨rfl, rfl⟩, csRun_validates (nibbleSum_even (s.block.setCmd 0x15) 10) rfl⟩

end Sys2Proof.Machine
end

section
/-! PROOFS. The encoder and the decoder undo each other (30_encoding.md R92 to R97). -/

namespace Sys2Proof.Machine

/-! ## CMD8 (R92, R93) -/

theorem decodeCommand_op (c : Command) : decodeCommand c.op = some c := by
  cases c <;> rfl

/-- A code selects the command whose code it is, and no other (R95). -/
theorem decodeCommand_eq_some_iff (op : Byte) (c : Command) : decodeCommand op = some c ↔ op = c.op := by
  refine ⟨fun h => ?_, fun h => h ▸ decodeCommand_op c⟩
  obtain ⟨before, after, hrows, -⟩ := List.lookup_eq_some_iff.1 h
  have hrow : (op, c) ∈ opcodeMap := by rw [hrows]; simp
  have hcodes : ∀ row ∈ opcodeMap, row.1 = row.2.op := by decide
  exact hcodes _ hrow

theorem encode_toInstr (c : Command) : encode c.toInstr = .cmd8 c.op := by
  cases c <;> rfl

theorem wellFormed_toInstr (c : Command) : c.toInstr.WellFormed := by
  cases c <;> rfl

theorem decode_cmd8_op (c : Command) : decode (.cmd8 c.op) = .ok c.toInstr := by
  show decodeCmd8 c.op = _
  unfold decodeCmd8
  rw [decodeCommand_op]

/-- Everything the CMD8 decoder can answer. -/
theorem decode_cmd8_cases (op : Byte) :
    (∃ c : Command, op = c.op ∧ decode (.cmd8 op) = .ok c.toInstr) ∨
    (decodeCommand op = none ∧ decode (.cmd8 op) = .error (.reservedCommand op)) := by
  cases h : decodeCommand op with
  | some c =>
    have hop := (decodeCommand_eq_some_iff op c).1 h
    exact .inl ⟨c, hop, hop ▸ decode_cmd8_op c⟩
  | none =>
    refine .inr ⟨rfl, ?_⟩
    show decodeCmd8 op = _
    unfold decodeCmd8
    rw [h]

/-! ## BUS24 (R96, R97) -/

theorem decode_encodeWrite {addr : Nat} (data : Byte) (h : addr < 4096) :
    decode (.bus24 (encodeWrite addr data)) = .ok (.wr addr data) := by
  have hw := encodeWrite_toNat data h
  have hd := data.isLt
  rw [decode_bus24]
  obtain ⟨hno, -⟩ | ⟨-, -, hdec⟩ | ⟨-, hzero, -⟩ := decodeBus24_cases (encodeWrite addr data)
  · unfold NoTransaction at hno
    omega
  · have haddr : (encodeWrite addr data).toNat / 2 ^ 8 % 2 ^ 12 = addr := by omega
    have hdata : (encodeWrite addr data).toNat % 2 ^ 8 = data.toNat := by omega
    rw [hdec, haddr, hdata, BitVec.ofNat_toNat, BitVec.setWidth_eq]
  · omega

theorem decode_encodeRead {addr : Nat} (h : addr < 4096) :
    decode (.bus24 (encodeRead addr)) = .ok (.rd addr) := by
  have hw := encodeRead_toNat h
  rw [decode_bus24]
  obtain ⟨hno, -⟩ | ⟨-, hone, -⟩ | ⟨-, -, -, hdec⟩ := decodeBus24_cases (encodeRead addr)
  · unfold NoTransaction at hno
    omega
  · omega
  · rw [hdec, show (encodeRead addr).toNat / 2 ^ 8 % 2 ^ 12 = addr by omega]

/-- Settles O7: a command by its code, an access by the fields of the number its word is. -/
theorem decodeOfEncode : Obligations.DecodeOfEncode := by
  intro i hi
  cases i with
  | wr addr data => exact decode_encodeWrite data (of_decide_eq_true hi)
  | rd addr => exact decode_encodeRead (of_decide_eq_true hi)
  | _ => rfl

theorem encode_of_decode_cmd8 {op : Byte} {i : Instr} (h : decode (.cmd8 op) = .ok i) :
    encode i = .cmd8 op ∧ i.WellFormed := by
  obtain ⟨c, rfl, hdec⟩ | ⟨-, hdec⟩ := decode_cmd8_cases op
  · cases hdec.symm.trans h
    exact ⟨encode_toInstr c, wellFormed_toInstr c⟩
  · cases hdec.symm.trans h

theorem encode_of_decode_bus24 {w : BusWord} {i : Instr} (h : decode (.bus24 w) = .ok i) :
    encode i = .bus24 w ∧ i.WellFormed := by
  have hlt := w.isLt
  have haddr : w.toNat / 2 ^ 8 % 2 ^ 12 < 4096 := Nat.mod_lt _ (by decide)
  rw [decode_bus24] at h
  obtain ⟨-, hdec | hdec⟩ | ⟨hyes, hone, hdec⟩ | ⟨hyes, hzero, hdata, hdec⟩ := decodeBus24_cases w
  · cases hdec.symm.trans h
  · cases hdec.symm.trans h
  · cases hdec.symm.trans h
    refine ⟨congrArg Word.bus24 (BitVec.eq_of_toNat_eq ?_), decide_eq_true haddr⟩
    rw [encodeWrite_toNat _ haddr, BitVec.toNat_ofNat]
    unfold NoTransaction at hyes
    omega
  · cases hdec.symm.trans h
    refine ⟨congrArg Word.bus24 (BitVec.eq_of_toNat_eq ?_), decide_eq_true haddr⟩
    rw [encodeRead_toNat haddr]
    unfold NoTransaction at hyes
    omega

/-- Settles O8: the decoder's answers of each format, each spelled again. -/
theorem encodeOfDecode : Obligations.EncodeOfDecode := by
  intro w i h
  cases w with
  | cmd8 op => exact encode_of_decode_cmd8 h
  | bus24 w => exact encode_of_decode_bus24 h

/-- Settles O9: each word is what the encoder spells for its instruction. -/
theorem specWordsDecode : Obligations.SpecWordsDecode :=
  ⟨decode_cmd8_op .nop, decode_cmd8_op .pre, decode_cmd8_op .h2b, decode_cmd8_op .v2d, decode_cmd8_op .v3d,
    decode_cmd8_op .ldp, decode_cmd8_op .ck5, decode_encodeWrite (addr := 0x100) 0x6F (by decide),
    decode_encodeRead (addr := 0x309) (by decide)⟩

/-- A code selects no command exactly when it is the code of none. -/
theorem decodeCommand_eq_none_iff (op : Byte) : decodeCommand op = none ↔ ∀ c : Command, op ≠ c.op := by
  simp only [Option.eq_none_iff_forall_ne_some, ne_eq, decodeCommand_eq_some_iff]

/-- Settles O10: the reserved ranges are the gaps between the eleven codes. -/
theorem reservedCodesSelectNoCommand : Obligations.ReservedCodesSelectNoCommand := by
  refine ⟨fun op => ?_, decodeCommand_op .nop, decodeCommand_op .pre, decodeCommand_op .h2b, decodeCommand_op .v2d,
    decodeCommand_op .v3d, decodeCommand_op .ldp, decodeCommand_op .ldo, decodeCommand_op .ck1, decodeCommand_op .ck2,
    decodeCommand_op .ck4, decodeCommand_op .ck5⟩
  have hlt := op.isLt
  rw [decodeCommand_eq_none_iff]
  constructor
  · intro h
    have hcode : ∀ c : Command, op.toNat ≠ c.op.toNat := fun c hc => h c (BitVec.eq_of_toNat_eq hc)
    have hnop : op.toNat ≠ 0x00 := hcode .nop
    have hpre : op.toNat ≠ 0x01 := hcode .pre
    have hh2b : op.toNat ≠ 0x02 := hcode .h2b
    have hv2d : op.toNat ≠ 0x03 := hcode .v2d
    have hv3d : op.toNat ≠ 0x04 := hcode .v3d
    have hldp : op.toNat ≠ 0x08 := hcode .ldp
    have hldo : op.toNat ≠ 0x09 := hcode .ldo
    have hck1 : op.toNat ≠ 0x11 := hcode .ck1
    have hck2 : op.toNat ≠ 0x12 := hcode .ck2
    have hck4 : op.toNat ≠ 0x14 := hcode .ck4
    have hck5 : op.toNat ≠ 0x15 := hcode .ck5
    omega
  · rintro h c rfl
    revert h
    cases c <;> decide

end Sys2Proof.Machine
end

section
/-! PROOFS. One step of the machine (70_reset_and_hazards.md R277, R278): what it runs, where it stops, and what it can
do to the block. -/

namespace Sys2Proof.Machine

/-! ## Instructions and the reset input -/

theorem exec_rd (addr : Nat) (s : State) :
    exec (.rd addr) s = .next { s with reads := s.reads ++ [s.block.busRead addr] } := rfl

/-- An instruction is one of the eleven commands or one of the two accesses. -/
theorem instr_cases (i : Instr) :
    (∃ c : Command, i = c.toInstr) ∨ (∃ addr data, i = .wr addr data) ∨ ∃ addr, i = .rd addr := by
  cases i with
  | nop => exact .inl ⟨.nop, rfl⟩
  | pre => exact .inl ⟨.pre, rfl⟩
  | h2b => exact .inl ⟨.h2b, rfl⟩
  | v2d => exact .inl ⟨.v2d, rfl⟩
  | v3d => exact .inl ⟨.v3d, rfl⟩
  | ldp => exact .inl ⟨.ldp, rfl⟩
  | ldo => exact .inl ⟨.ldo, rfl⟩
  | ck1 => exact .inl ⟨.ck1, rfl⟩
  | ck2 => exact .inl ⟨.ck2, rfl⟩
  | ck4 => exact .inl ⟨.ck4, rfl⟩
  | ck5 => exact .inl ⟨.ck5, rfl⟩
  | wr addr data => exact .inr (.inl ⟨addr, data, rfl⟩)
  | rd addr => exact .inr (.inr ⟨addr, rfl⟩)

/-- Settles O16: a command and each of the accesses answers its next state. -/
theorem everyInstructionCompletes : Obligations.EveryInstructionCompletes := by
  intro i s
  obtain ⟨c, rfl⟩ | ⟨addr, data, rfl⟩ | ⟨addr, rfl⟩ := instr_cases i
  · exact ⟨_, exec_toInstr c s⟩
  · exact ⟨_, exec_wr addr data s⟩
  · exact ⟨_, exec_rd addr s⟩

theorem busRead_mod (b : Block) (a : Nat) : b.busRead (a % 4096) = b.busRead a := by
  unfold Block.busRead
  rw [addrSpace_val, Nat.mod_mod]

/-- Settles O21: RD adds the byte of the map to the observation and nothing else. -/
theorem readChangesNothing : Obligations.ReadChangesNothing := by
  intro addr s
  rw [busRead_mod]
  exact exec_rd addr s

theorem reset_readReg (a : Nat) : Block.reset.readReg a = 0 := by
  rcases Nat.lt_or_ge a 0x016 with hreg | hres
  · revert a
    decide
  · exact readReg_reserved _ (.inr hres)

/-- Settles O3: every region of the map reads 0x00 where the block is that of R40. -/
theorem resetReadsZeroEverywhere : Obligations.ResetReadsZeroEverywhere := by
  intro a
  show Block.reset.readMap (a % 4096) = 0
  unfold Block.readMap
  rw [reset_readReg, reset_bitbuf, reset_outhex]
  repeat' split
  all_goals rfl

/-! ## The step, an equation per event -/

section Events

variable {s : State} {rest : List HostEvent}

theorem step_idle (h : s.pending = []) : step s = .next s := by
  unfold step
  rw [h]

theorem step_reset (h : s.pending = .reset :: rest) : step s = .next (applyReset { s with pending := rest }) := by
  unfold step
  rw [h]

theorem step_instr {w : Word} {i : Instr} (h : s.pending = .access w :: rest) (hdec : decode w = .ok i) :
    step s = exec i { s with pending := rest } := by
  unfold step
  rw [h]
  dsimp only
  rw [hdec]

theorem step_reserved {op : Byte} (h : s.pending = .access (.cmd8 op) :: rest) (hop : decodeCommand op = none) :
    step s = execReserved op { s with pending := rest } := by
  obtain ⟨c, rfl, -⟩ | ⟨-, hdec⟩ := decode_cmd8_cases op
  · rw [decodeCommand_op] at hop
    cases hop
  · unfold step
    rw [h]
    dsimp only
    rw [hdec]

theorem step_noTransaction {w : BusWord} (h : s.pending = .access (.bus24 w) :: rest) (hno : NoTransaction w) :
    step s = .refused (.noTransaction w) := by
  have hdec : decode (.bus24 w) = .error (.zeroFieldNotZero w) ∨ decode (.bus24 w) = .error (.readWithData w) := by
    obtain ⟨-, hdec⟩ | ⟨hyes, -⟩ | ⟨hyes, -⟩ := decodeBus24_cases w
    · exact hdec
    · exact absurd hno hyes
    · exact absurd hno hyes
  unfold step
  rw [h]
  dsimp only
  obtain hdec | hdec := hdec <;> rw [hdec]

end Events

/-- Everything the next event of the host can be to a step. -/
theorem next_event_cases (s : State) :
    s.pending = [] ∨ (∃ rest, s.pending = .reset :: rest) ∨
    (∃ w rest i, s.pending = .access w :: rest ∧ decode w = .ok i) ∨
    (∃ op rest, s.pending = .access (.cmd8 op) :: rest ∧ decodeCommand op = none) ∨
    ∃ w rest, s.pending = .access (.bus24 w) :: rest ∧ NoTransaction w := by
  cases hp : s.pending with
  | nil => exact .inl rfl
  | cons e rest =>
    cases e with
    | reset => exact .inr (.inl ⟨rest, rfl⟩)
    | access w =>
      cases w with
      | cmd8 op =>
        obtain ⟨c, -, hdec⟩ | ⟨hop, -⟩ := decode_cmd8_cases op
        · exact .inr (.inr (.inl ⟨_, rest, _, rfl, hdec⟩))
        · exact .inr (.inr (.inr (.inl ⟨op, rest, rfl, hop⟩)))
      | bus24 w =>
        obtain ⟨hno, -⟩ | ⟨-, -, hdec⟩ | ⟨-, -, -, hdec⟩ := decodeBus24_cases w
        · exact .inr (.inr (.inr (.inr ⟨w, rest, rfl, hno⟩)))
        · exact .inr (.inr (.inl ⟨_, rest, _, rfl, hdec⟩))
        · exact .inr (.inr (.inl ⟨_, rest, _, rfl, hdec⟩))

/-- Settles O2: the reset input writes the block alone. -/
theorem resetClearsTheBlock : Obligations.ResetClearsTheBlock :=
  fun _ _ h => ⟨_, step_reset h, rfl, rfl, rfl⟩

/-- Settles O13: a reserved code issued as CMD8 has the effect of its write to CMD (R91). -/
theorem stepExecutesDecodedWord : Obligations.StepExecutesDecodedWord := by
  refine ⟨fun s w rest i h hdec => step_instr h hdec, fun s op rest h hop => ?_⟩
  rw [step_reserved h hop, exec_wr, busWrite_cmd _ op rfl, issue_reserved _ hop]
  rfl

/-- A step goes on, or is refused at a word that spells no transaction. -/
theorem step_next_or_refused (s : State) :
    (∃ t, step s = .next t) ∨
    ∃ w rest, s.pending = .access (.bus24 w) :: rest ∧ NoTransaction w ∧ step s = .refused (.noTransaction w) := by
  obtain h | ⟨rest, h⟩ | ⟨w, rest, i, h, hdec⟩ | ⟨op, rest, h, hop⟩ | ⟨w, rest, h, hno⟩ := next_event_cases s
  · exact .inl ⟨_, step_idle h⟩
  · exact .inl ⟨_, step_reset h⟩
  · rw [step_instr h hdec]
    exact .inl (everyInstructionCompletes i _)
  · rw [step_reserved h hop]
    exact .inl ⟨_, issueAs_next op cmdIllegal _⟩
  · exact .inr ⟨w, rest, h, hno, step_noTransaction h hno⟩

/-- Settles O15: where the step goes on the next event is no such word, since it would be refused there. -/
theorem stepStopsOnlyAtNoTransaction : Obligations.StepStopsOnlyAtNoTransaction := by
  intro s
  refine ⟨nofun, fun r => ⟨fun hr => ?_, ?_⟩, step_idle⟩
  · obtain ⟨t, ht⟩ | ⟨w, rest, h, hno, hstep⟩ := step_next_or_refused s
    · cases ht.symm.trans hr
    · cases hstep.symm.trans hr
      exact ⟨w, rest, h, hno, rfl⟩
  · rintro ⟨w, rest, h, hno, rfl⟩
    exact step_noTransaction h hno

/-! ## Placed words (R90, R96) -/

/-- A word is recovered from its width and number. -/
theorem tableWord_toTable (w : Word) : tableWord w.toTable.1 w.toTable.2 = some w := by
  cases w with
  | cmd8 op =>
    show tableWord 8 op.toNat = _
    unfold tableWord
    rw [if_pos ⟨rfl, op.isLt⟩, BitVec.ofNat_toNat, BitVec.setWidth_eq]
  | bus24 w =>
    have hw : w.toNat < 2 ^ 24 := w.isLt
    show tableWord 24 w.toNat = _
    unfold tableWord
    rw [if_neg (fun h => absurd h.1 (by decide)), if_pos (And.intro rfl hw), BitVec.ofNat_toNat, BitVec.setWidth_eq]

/-- Settles O12: the table word names the encoding, which decodes to the instruction. -/
theorem placedWordRunsItsInstruction : Obligations.PlacedWordRunsItsInstruction := by
  intro i s hi
  have hdec : decode (encode i) = .ok i := decodeOfEncode i hi
  have hword : tableWord (encodeTableWord i).1 (encodeTableWord i).2 = some (encode i) := tableWord_toTable (encode i)
  constructor
  · unfold decodeTableWord
    rw [hword]
    dsimp only
    rw [hdec]
    rfl
  · unfold State.withFetchWord
    rw [hword, State.issueNext_some]
    exact step_instr rfl hdec

/-! ## What a step does to the block -/

/-- Everything a step can do to the block (R277): nothing, a reset, a command, a reserved code, or a write to MSG_LEN or
MSG. -/
inductive StepEffect (b : Block) : Block → Prop where
  | same : StepEffect b b
  | reset : StepEffect b Block.reset
  | command (c : Command) : StepEffect b (b.issue c.op)
  | reserved (op : Byte) : StepEffect b ((b.setCmd op).finish .illegalCommand)
  | msgLen (n : Half) : StepEffect b { b with msgLen := n }
  | msg (i : Nat) (v : Byte) (h : i < 256) : StepEffect b { b with msg := b.msg.write i v }

theorem issue_effect (b : Block) (v : Byte) : StepEffect b (b.issue v) := by
  cases h : decodeCommand v with
  | some c =>
    rw [(decodeCommand_eq_some_iff v c).1 h]
    exact .command c
  | none =>
    rw [issue_reserved b h]
    exact .reserved v

theorem busWrite_effect (b : Block) (a : Nat) (v : Byte) : StepEffect b (b.busWrite a v) := by
  by_cases hcmd : a % 4096 = 0x000
  · rw [busWrite_cmd b v hcmd]
    exact issue_effect b v
  by_cases hlo : a % 4096 = 0x004
  · rw [busWrite_msgLenLo b v hlo]
    exact .msgLen _
  by_cases hhi : a % 4096 = 0x005
  · rw [busWrite_msgLenHi b v hhi]
    exact .msgLen _
  by_cases hmsg : 0x100 ≤ a % 4096 ∧ a % 4096 ≤ 0x1FF
  · rw [busWrite_msg b v hmsg.1 hmsg.2]
    exact .msg _ v (by omega)
  · rw [busWrite_ignored b v hcmd hlo hhi (by omega)]
    exact .same

theorem exec_effect {i : Instr} {s t : State} (h : exec i s = .next t) : StepEffect s.block t.block := by
  obtain ⟨c, rfl⟩ | ⟨addr, data, rfl⟩ | ⟨addr, rfl⟩ := instr_cases i
  · rw [exec_toInstr] at h
    cases h
    exact .command c
  · cases h
    exact busWrite_effect s.block addr data
  · cases h
    exact .same

theorem step_effect {s t : State} (h : step s = .next t) : StepEffect s.block t.block := by
  obtain hp | ⟨rest, hp⟩ | ⟨w, rest, i, hp, hdec⟩ | ⟨op, rest, hp, hop⟩ | ⟨w, rest, hp, hno⟩ := next_event_cases s
  · rw [step_idle hp] at h
    cases h
    exact .same
  · rw [step_reset hp] at h
    cases h
    exact .reset
  · rw [step_instr hp hdec] at h
    exact exec_effect (s := { s with pending := rest }) h
  · rw [step_reserved hp hop] at h
    cases h
    exact .reserved op
  · rw [step_noTransaction hp hno] at h
    cases h

end Sys2Proof.Machine
end

section
/-! PROOFS. What the addresses of the map hold (20_memory.md R64, R67; 10_state.md R23), and what a read sees of a write
to MSG_LEN or MSG (R63). -/

namespace Sys2Proof.Machine

/-! ## The map (R64, R67) -/

/-- Settles O22: the registers by evaluation of the map, those of 16 bits from their two bytes, the buffers region by
region. -/
theorem addressMapHoldsTheRegisters : Obligations.AddressMapHoldsTheRegisters := by
  intro b
  obtain ⟨htypeHi, htypeLo⟩ := typeId_bytes b
  exact ⟨rfl, rfl, rfl, half_eq_bytes b.msgLen, half_eq_bytes b.bitLen, rfl, rfl, rfl, rfl, half_eq_bytes b.v2Idx,
    half_eq_bytes b.v3PreIdx, half_eq_bytes b.v3DatIdx, htypeHi, htypeLo, rfl, outhexLen_toNat b,
    fun _ hi => busRead_msg b hi, fun _ hk => busRead_out b hk, fun _ hk => busRead_pay b hk⟩

/-- The fields of a STATUS byte, each at its place (R23). -/
theorem status_fields (csok v3pre v2pre err ok : Bool) (path : BitVec 2) :
    let v := (⟨ok, err, v2pre, v3pre, path, csok⟩ : Status).toByte
    v.getLsbD 0 = ok ∧ v.getLsbD 1 = err ∧ v.getLsbD 2 = v2pre ∧ v.getLsbD 3 = v3pre ∧ v.extractLsb' 4 2 = path ∧
      v.getLsbD 6 = csok ∧ v.getLsbD 7 = false := by
  revert csok v3pre v2pre err ok path
  decide

/-- Settles O23: the byte at 0x001 is STATUS. -/
theorem statusByteLayout : Obligations.StatusByteLayout := fun b =>
  status_fields b.status.csok b.status.v3pre b.status.v2pre b.status.err b.status.ok b.status.path

/-! ## Reads after a write (R63) -/

theorem busRead_msgLenLo (b : Block) {a : Nat} (h : a % 4096 = 0x004) : b.busRead a = loByte b.msgLen := by
  rw [← busRead_mod, h]
  rfl

theorem busRead_msgLenHi (b : Block) {a : Nat} (h : a % 4096 = 0x005) : b.busRead a = hiByte b.msgLen := by
  rw [← busRead_mod, h]
  rfl

/-- MSG_LEN shows at its two addresses only. -/
theorem busRead_withMsgLen_other (b : Block) (n : Half) {a : Nat} (hlo : a % 4096 ≠ 0x004) (hhi : a % 4096 ≠ 0x005) :
    { b with msgLen := n }.busRead a = b.busRead a := by
  apply readMap_congr
  case hmlen => exact fun h => absurd h (by rw [addrSpace_val]; omega)
  case hhex => exact fun _ _ => ⟨rfl, rfl⟩
  all_goals intros; rfl

/-- A character of MSG shows at its address only. -/
theorem busRead_writeMsg_other (b : Block) {i : Nat} (v : Byte) {a : Nat} (h : a % 4096 ≠ 0x100 + i) :
    { b with msg := b.msg.write i v }.busRead a = b.busRead a := by
  apply readMap_congr
  case hmsg =>
    intro hlo _
    rw [addrSpace_val] at hlo ⊢
    exact Memory.read_write_other _ v (by omega)
  case hhex => exact fun _ _ => ⟨rfl, rfl⟩
  all_goals intros; rfl

/-- Settles O18: each of the three writes is read back, and its neighbour in MSG_LEN keeps its byte. -/
theorem writeReadsBackAlone : Obligations.WriteReadsBackAlone := by
  intro addr v s h
  refine ⟨_, exec_wr addr v s, ?_⟩
  dsimp only
  obtain h | h | ⟨hlo, hhi⟩ := h
  · obtain ⟨hsame, hother⟩ := setLo_bytes s.block.msgLen v
    rw [busWrite_msgLenLo s.block v h]
    refine ⟨(busRead_msgLenLo _ h).trans hsame, fun a ha => ?_⟩
    by_cases h5 : a % 4096 = 0x005
    · rw [busRead_msgLenHi _ h5, busRead_msgLenHi _ h5]
      exact hother
    · exact busRead_withMsgLen_other _ _ (by omega) h5
  · obtain ⟨hother, hsame⟩ := setHi_bytes s.block.msgLen v
    rw [busWrite_msgLenHi s.block v h]
    refine ⟨(busRead_msgLenHi _ h).trans hsame, fun a ha => ?_⟩
    by_cases h4 : a % 4096 = 0x004
    · rw [busRead_msgLenLo _ h4, busRead_msgLenLo _ h4]
      exact hother
    · exact busRead_withMsgLen_other _ _ h4 (by omega)
  · obtain ⟨i, hi⟩ : ∃ i, addr % 4096 = 0x100 + i := ⟨addr % 4096 - 0x100, by omega⟩
    rw [busWrite_msg s.block v hlo hhi, hi, Nat.add_sub_cancel_left]
    refine ⟨?_, fun a ha => busRead_writeMsg_other _ v ha⟩
    rw [← busRead_mod, hi, busRead_msg _ (by omega)]
    exact Memory.read_write_same _ _ v

end Sys2Proof.Machine
end

section
/-! PROOFS. Running the accesses that the lines of a host program expand to (30_encoding.md R97, R98). -/

namespace Sys2Proof.Machine

/-! ## One access of a run -/

/-- A run whose next word is the encoding of an instruction executes it. -/
theorem run_encoded (k : Nat) {s t : State} {i : Instr} {rest : List HostEvent} (hi : i.WellFormed)
    (hp : s.pending = .access (encode i) :: rest) (h : exec i { s with pending := rest } = .next t) :
    Sys2Proof.core.run (k + 1) s = Sys2Proof.core.run k t :=
  run_next k ((step_instr hp (decodeOfEncode i hi)).trans h)

theorem run_wr (k : Nat) {addr : Nat} (v : Byte) (b : Block) (rest : List HostEvent) (r : List Byte)
    (h : addr < 4096) :
    Sys2Proof.core.run (k + 1) ⟨b, .access (encode (.wr addr v)) :: rest, r⟩ =
      Sys2Proof.core.run k ⟨b.busWrite addr v, rest, r⟩ :=
  run_encoded k (i := .wr addr v) (decide_eq_true h) rfl rfl

theorem run_rd (k : Nat) {addr : Nat} (b : Block) (rest : List HostEvent) (r : List Byte) (h : addr < 4096) :
    Sys2Proof.core.run (k + 1) ⟨b, .access (encode (.rd addr)) :: rest, r⟩ =
      Sys2Proof.core.run k ⟨b, rest, r ++ [b.busRead addr]⟩ :=
  run_encoded k (i := .rd addr) (decide_eq_true h) rfl rfl

/-! ## CMD -/

/-- Settles O58: the line is the write of the command's code to CMD, which is the command (O17). -/
theorem cmdLineIssuesTheCommand : Obligations.CmdLineIssuesTheCommand := by
  intro s c
  obtain ⟨hcmd, -⟩ := writeFollowsTheMap 0x000 c.op { s with pending := [] }
  exact (step_instr rfl (decode_encodeWrite c.op (by decide))).trans (hcmd rfl c rfl)

/-! ## RDN and RDW -/

/-- Reads leave the block and append their bytes in order. -/
theorem run_reads (b : Block) (addrs : List Nat) (r : List Byte) (h : ∀ a ∈ addrs, a < 4096) :
    Sys2Proof.core.run addrs.length ⟨b, ((addrs.map .rd).map encode).map .access, r⟩ =
      .next ⟨b, [], r ++ addrs.map b.busRead⟩ := by
  induction addrs generalizing r with
  | nil => exact (run_zero _).trans (by rw [List.map_nil (f := b.busRead), List.append_nil]; rfl)
  | cons a addrs ih =>
    have hrest : ∀ a ∈ addrs, a < 4096 := fun x hx => h x (List.mem_cons_of_mem a hx)
    calc Sys2Proof.core.run (addrs.length + 1) ⟨b, (((a :: addrs).map .rd).map encode).map .access, r⟩
        = Sys2Proof.core.run addrs.length ⟨b, ((addrs.map .rd).map encode).map .access, r ++ [b.busRead a]⟩ :=
          run_rd addrs.length b _ r (h a List.mem_cons_self)
      _ = .next ⟨b, [], (r ++ [b.busRead a]) ++ addrs.map b.busRead⟩ := ih _ hrest
      _ = .next ⟨b, [], r ++ (a :: addrs).map b.busRead⟩ := by rw [List.append_assoc, List.map_cons]; rfl

/-- Settles O57: the line is a run of reads at its addresses. -/
theorem rdnReadsInOrder : Obligations.RdnReadsInOrder := by
  intro s addr n h
  have haddrs : (AsmLine.rdn addr n).expand = ((List.range n).map (addr + ·)).map .rd := List.map_map.symm
  have hrun := run_reads s.block ((List.range n).map (addr + ·)) s.reads (by simp; omega)
  rw [List.length_map, List.length_range, ← haddrs] at hrun
  exact ⟨_, hrun, rfl, rfl, by rw [List.map_map]; rfl⟩

/-- Settles O56: the line is a run of two reads, and a 16-bit register read low byte first is put together again. -/
theorem rdwGivesTheRegister : Obligations.RdwGivesTheRegister := by
  intro s addr h
  have hrun := run_reads s.block [addr, addr + 1] s.reads (by simp; omega)
  refine ⟨_, rdwValue (s.block.busRead addr) (s.block.busRead (addr + 1)), hrun, rfl, rfl, rfl,
    State.rdwResult_append _ s.reads _ _ rfl, rdwValue_toNat _ _, ?_, ?_, ?_, ?_, ?_⟩
  all_goals
    rintro rfl
    exact rdwValue_bytes _

/-! ## MSGSET -/

/-- The writes of `MSGSET`'s characters from index `i` on put them into MSG. -/
theorem run_msgWrites (text : List Byte) (i k : Nat) (b : Block) (rest : List HostEvent) (r : List Byte)
    (h : i + text.length ≤ 256) :
    Sys2Proof.core.run (text.length + k) ⟨b, ((msgWrites i text).map encode).map .access ++ rest, r⟩ =
      Sys2Proof.core.run k ⟨{ b with msg := b.msg.writeAll i text }, rest, r⟩ := by
  induction text generalizing i b with
  | nil => rw [List.length_nil, Nat.zero_add]; rfl
  | cons c text ih =>
    rw [List.length_cons] at h ⊢
    have hwrite : b.busWrite (0x100 + i) c = { b with msg := b.msg.write i c } := by
      rw [busWrite_msg b c (by omega) (by omega), show (0x100 + i) % 4096 - 0x100 = i by omega]
    rw [Nat.succ_add_eq_add_succ text.length k, Nat.add_succ]
    calc Sys2Proof.core.run (text.length + k + 1)
          ⟨b, ((msgWrites i (c :: text)).map encode).map .access ++ rest, r⟩
        = Sys2Proof.core.run (text.length + k)
            ⟨b.busWrite (0x100 + i) c, ((msgWrites (i + 1) text).map encode).map .access ++ rest, r⟩ :=
          run_wr (text.length + k) c b _ r (by omega)
      _ = Sys2Proof.core.run k ⟨{ b with msg := b.msg.writeAll i (c :: text) }, rest, r⟩ := by
          rw [hwrite, ih (i + 1) _ (by omega)]
          rfl

/-- The two bytes of a length that fits 16 bits, written to MSG_LEN, are that length. -/
theorem setHi_setLo_toNat (h : Half) {n : Nat} (hn : n < 65536) :
    (setHi (setLo h (BitVec.ofNat 8 (n &&& 0xFF))) (BitVec.ofNat 8 (n >>> 8))).toNat = n := by
  have hlow : n &&& 0xFF = n % 256 := Nat.and_two_pow_sub_one_eq_mod n 8
  have hhigh : n >>> 8 = n / 256 := Nat.shiftRight_eq_div_pow n 8
  rw [setHi_toNat, setLo_toNat, BitVec.toNat_ofNat, BitVec.toNat_ofNat, hlow, hhigh]
  omega

/-- The accesses `MSGSET` expands to are its characters' writes and then the two writes of MSG_LEN. -/
theorem run_msgset (s : State) {text : List Byte} (h : text.length ≤ 256) :
    Sys2Proof.core.run (text.length + 2) (s.load ((AsmLine.msgset text).expand.map encode)) =
      .next ⟨{ s.block with
        msg := s.block.msg.writeAll 0 text
        msgLen := setHi (setLo s.block.msgLen (BitVec.ofNat 8 (text.length &&& 0xFF)))
          (BitVec.ofNat 8 (text.length >>> 8)) }, [], s.reads⟩ := by
  have hload : s.load ((AsmLine.msgset text).expand.map encode) =
      ⟨s.block, ((msgWrites 0 text).map encode).map .access ++
        [.access (encode (.wr 0x004 (BitVec.ofNat 8 (text.length &&& 0xFF)))),
          .access (encode (.wr 0x005 (BitVec.ofNat 8 (text.length >>> 8))))], s.reads⟩ := by
    unfold State.load AsmLine.expand
    rw [List.map_append, List.map_append]
    rfl
  rw [hload, run_msgWrites text 0 2 s.block _ s.reads (by omega), run_wr 1 _ _ _ _ (by decide),
    run_wr 0 _ _ _ _ (by decide), busWrite_msgLenLo (a := 0x004) _ _ rfl,
    busWrite_msgLenHi (a := 0x005) _ _ rfl, run_zero]

/-- Settles O55: what the characters' writes and the length's writes leave, read back. -/
theorem msgsetStoresText : Obligations.MsgsetStoresText := by
  intro s text h
  refine ⟨_, run_msgset s h, rfl, rfl, rfl, setHi_setLo_toNat _ (by omega), fun i hi => ?_, fun i hi => ?_⟩
  · exact (Memory.read_writeAll _ 0 text i).trans (if_pos ⟨Nat.zero_le i, by omega⟩)
  · exact (Memory.read_writeAll _ 0 text i).trans (if_neg (by omega))

end Sys2Proof.Machine
end

section
/-! PROOFS. What each command can do, said once, and how it ends (40_control.md R112, R115; 60_exceptions.md R241). -/

namespace Sys2Proof.Machine

/-! ## The rule of a command (R91) -/

/-- The rule a command's code selects, as a function of the command (R92). -/
def ruleOf : Command → Block → Block
  | .nop => cmdNop
  | .pre => cmdPre
  | .h2b => cmdH2b
  | .v2d => cmdV2d
  | .v3d => cmdV3d
  | .ldp => cmdLdp
  | .ldo => cmdLdo
  | .ck1 => cmdCk1
  | .ck2 => cmdCk2
  | .ck4 => cmdCk4
  | .ck5 => cmdCk5

theorem issue_op (b : Block) (c : Command) : b.issue c.op = ruleOf c (b.setCmd c.op) := by
  cases c <;> rfl

theorem exec_command (c : Command) (s : State) :
    exec c.toInstr s = .next { s with block := ruleOf c (s.block.setCmd c.op) } := by
  rw [exec_toInstr, issue_op]

/-! ## Everything each rule can do -/

section Cases

variable (b : Block)

/-- A failed check of H2B leaves group HEX cleared; otherwise it holds the characters (R133). -/
theorem cmdH2b_cases :
    (∃ e ∈ [ErrCode.inputTooLong, .invalidHex], cmdH2b b = b.clearHex.finish e) ∨
    (b.msgLen.toNat ≤ 256 ∧
      cmdH2b b = (b.clearHex.setHex (expandBits b.msg 0 b.msgLen.toNat) b.msgLen.toNat).finish .none) := by
  rcases Nat.lt_or_ge 256 b.msgLen.toNat with hlong | hfits
  · exact .inl ⟨_, by decide, cmdH2b_tooLong hlong⟩
  · by_cases hall : AllHex b 0 b.msgLen.toNat
    · exact .inr ⟨hfits, cmdH2b_digits hfits hall⟩
    · exact .inl ⟨_, by decide, cmdH2b_invalid hfits hall⟩

/-- A failed check of PRE leaves groups HEX and DEC cleared; otherwise the characters after the marker are converted and
the arbitration decides (R191). -/
theorem cmdPre_cases :
    (∃ e ∈ [ErrCode.inputTooLong, .invalidFraming, .invalidHex], cmdPre b = b.clearHex.clearDec.finish e) ∨
    (b.msgLen.toNat ≤ 256 ∧
      cmdPre b = (b.clearHex.clearDec.setHex (expandBits b.msg 2 (b.msgLen.toNat - 2))
        (b.msgLen.toNat - 2)).arbitrate) := by
  rcases Nat.lt_or_ge 256 b.msgLen.toNat with hlong | hfits
  · exact .inl ⟨_, by decide, cmdPre_tooLong hlong⟩
  cases hf : b.framed with
  | false => exact .inl ⟨_, by decide, cmdPre_unframed hfits hf⟩
  | true =>
    by_cases hall : AllHex b 2 (b.msgLen.toNat - 2)
    · exact .inr ⟨hfits, cmdPre_digits hfits hf hall⟩
    · exact .inl ⟨_, by decide, cmdPre_invalidHex hfits hf hall⟩

/-- The same of PRE, by what its groups show. -/
theorem cmdPre_outcome :
    (∃ e ∈ [ErrCode.inputTooLong, .invalidFraming, .invalidHex],
      HexCleared (cmdPre b) ∧ NoOutput (cmdPre b) ∧ EndedWith (cmdPre b) e) ∨ PreOutcome (cmdPre b) := by
  obtain ⟨e, he, h⟩ | ⟨-, h⟩ := cmdPre_cases b
  · obtain ⟨hhex, hout, -, -, hend⟩ := clearHex_clearDec_finish_cleared b e
    rw [h]
    exact .inl ⟨e, he, hhex, hout, hend⟩
  · rw [h]
    exact .inr (arbitrate_setHex_spec b _ _).1

/-- A failed check of LDP loads nothing; otherwise PAY takes the bytes of MSG (R215). -/
theorem cmdLdp_cases :
    (∃ e ∈ [ErrCode.inputTooLong, .invalidHex, .payloadTooLong, .truncatedMessage],
      cmdLdp b = b.loadStart.finish e) ∨
    ∃ bytes, 3 ≤ bytes.length ∧ bytes.length ≤ 32 ∧ cmdLdp b = (b.loadStart.setPay bytes).finish .none := by
  rcases Nat.lt_or_ge 256 b.msgLen.toNat with hlong | hfits
  · exact .inl ⟨_, by decide, cmdLdp_tooLong hlong⟩
  rcases Nat.mod_two_eq_zero_or_one b.msgLen.toNat with heven | hodd
  · by_cases hall : AllHex b 0 b.msgLen.toNat
    · rcases Nat.lt_or_ge 64 b.msgLen.toNat with hlong | hcap
      · exact .inl ⟨_, by decide, cmdLdp_payloadTooLong hfits heven hall hlong⟩
      rcases Nat.lt_or_ge b.msgLen.toNat 6 with hshort | hmin
      · exact .inl ⟨_, by decide, cmdLdp_truncated heven hall hshort⟩
      · have hlen := msgBytes_length b.msg b.msgLen.toNat
        exact .inr ⟨_, by omega, by omega, cmdLdp_loads hcap hmin heven hall⟩
    · exact .inl ⟨_, by decide, cmdLdp_invalidHex hfits heven hall⟩
  · exact .inl ⟨_, by decide, cmdLdp_odd hfits hodd⟩

/-- LDO loads nothing, or the OUT_LEN bytes of OUT (R216). -/
theorem cmdLdo_cases :
    cmdLdo b = b.loadStart.finish .truncatedMessage ∨
    ∃ bytes, 3 ≤ bytes.length ∧ bytes.length = b.outLen.toNat ∧
      cmdLdo b = (b.loadStart.setPay bytes).finish .none := by
  rcases Nat.lt_or_ge b.outLen.toNat 3 with hshort | hmin
  · exact .inl (cmdLdo_truncated hshort)
  · have hlen := firstBytes_length b.out b.outLen.toNat
    exact .inr ⟨_, by omega, hlen, cmdLdo_loads hmin⟩

/-- A checksum command writes a computed and a reference value, equal where it passes (R218). -/
theorem csRun_cases (h need : Nat) (ref : Memory → Byte) :
    ∃ x r passed, ∃ e ∈ [ErrCode.none, .checksumRange, .checksumMismatch],
      b.csRun h need ref = (b.setCs x r passed).finish e ∧ (passed = true → x = r) := by
  rcases Nat.lt_or_ge b.payLen.toNat (need + 1) with hshort | hlong
  · exact ⟨0, 0, false, _, by decide, csRun_short hshort, nofun⟩
  · unfold Block.csRun Block.csCompare
    rw [if_neg (Nat.not_lt.2 hlong)]
    by_cases heq : csValue b.pay h = ref b.pay
    · exact ⟨_, _, true, _, by decide, if_pos heq, fun _ => heq⟩
    · exact ⟨_, _, false, _, by decide, if_neg heq, nofun⟩

end Cases

/-! ## How a command ends (R112, R241) -/

/-- The arbitration ends with a code PRE may raise. -/
theorem PreOutcome.endedWith {b : Block} (h : PreOutcome b) : ∃ e ∈ mayEndWith .pre, EndedWith b e := by
  cases h with
  | v2 _ _ hend => exact ⟨_, by decide, hend⟩
  | v2TooLong _ _ _ hend => exact ⟨_, by decide, hend⟩
  | v3 _ _ _ _ hend => exact ⟨_, by decide, hend⟩
  | v3TooLong _ _ _ _ _ hend => exact ⟨_, by decide, hend⟩
  | bothEmpty _ _ _ _ _ _ _ _ hend => exact ⟨_, by decide, hend⟩
  | neither _ _ _ hend => exact ⟨_, by decide, hend⟩

theorem endedWith_of_eq_finish {b c : Block} {e : ErrCode} (h : c = b.finish e) : EndedWith c e :=
  h ▸ finish_endedWith b e

theorem csRun_endedWith (b : Block) (h need : Nat) (ref : Memory → Byte) :
    ∃ e ∈ [ErrCode.none, .checksumRange, .checksumMismatch], EndedWith (b.csRun h need ref) e := by
  obtain ⟨x, r, passed, e, he, heq, -⟩ := csRun_cases b h need ref
  exact ⟨e, he, endedWith_of_eq_finish heq⟩

/-- Every command other than NOP ends with a code it may raise. -/
theorem rule_endedWith (b : Block) {c : Command} (hc : c ≠ .nop) :
    ∃ e ∈ mayEndWith c, EndedWith (ruleOf c b) e := by
  cases c with
  | nop => exact absurd rfl hc
  | pre =>
    obtain ⟨e, he, -, -, hend⟩ | hout := cmdPre_outcome b
    · have hsub : ∀ e ∈ [ErrCode.inputTooLong, .invalidFraming, .invalidHex], e ∈ mayEndWith .pre := by decide
      exact ⟨e, hsub e he, hend⟩
    · exact hout.endedWith
  | h2b =>
    obtain ⟨e, he, h⟩ | ⟨-, h⟩ := cmdH2b_cases b
    · exact ⟨e, List.mem_cons_of_mem _ he, endedWith_of_eq_finish h⟩
    · exact ⟨.none, by decide, endedWith_of_eq_finish h⟩
  | v2d =>
    obtain ⟨c, e, h, hout, -⟩ := cmdV2d_spec b
    have hmem : c ∈ mayEndWith .v2d := by obtain rfl | rfl | rfl | rfl := hout.code_cases <;> decide
    exact ⟨c, hmem, endedWith_of_eq_finish h⟩
  | v3d =>
    obtain ⟨c, e, h, hout, -⟩ := cmdV3d_spec b
    have hmem : c ∈ mayEndWith .v3d := by obtain rfl | rfl | rfl | rfl := hout.code_cases <;> decide
    exact ⟨c, hmem, endedWith_of_eq_finish h⟩
  | ldp =>
    obtain ⟨e, he, h⟩ | ⟨bytes, -, -, h⟩ := cmdLdp_cases b
    · exact ⟨e, List.mem_cons_of_mem _ he, endedWith_of_eq_finish h⟩
    · exact ⟨.none, by decide, endedWith_of_eq_finish h⟩
  | ldo =>
    obtain h | ⟨bytes, -, -, h⟩ := cmdLdo_cases b
    · exact ⟨.truncatedMessage, by decide, endedWith_of_eq_finish h⟩
    · exact ⟨.none, by decide, endedWith_of_eq_finish h⟩
  | ck1 => exact csRun_endedWith b 13 8 ck1Ref
  | ck2 => exact csRun_endedWith b 16 9 (payload · 8)
  | ck4 => exact csRun_endedWith b 18 10 (payload · 9)
  | ck5 => exact csRun_endedWith b 20 11 (payload · 10)

theorem errCode_eq_zero_iff (e : ErrCode) : e.code = 0 ↔ e = .none := by
  cases e <;> decide

/-- OK and ERR after `finish` are opposite, and OK is `NONE`. -/
theorem EndedWith.flags {b : Block} {e : ErrCode} (h : EndedWith b e) :
    b.status.err = !b.status.ok ∧ (b.status.ok = true ↔ b.errCode = 0) := by
  obtain ⟨hcode, hok, herr⟩ := h
  rw [hcode, hok, herr, errCode_eq_zero_iff, decide_eq_true_iff]
  exact ⟨decide_not, Iff.rfl⟩

/-- Settles O43: the code is the rule's, and the flags follow from it. -/
theorem commandsEndWithTheirCodes : Obligations.CommandsEndWithTheirCodes := by
  intro c s hc
  obtain ⟨e, he, hend⟩ := rule_endedWith (s.block.setCmd c.op) hc
  exact ⟨_, e, exec_command c s, he, hend, hend.flags⟩

/-! ## A failure leaves the buffer cleared (R115) -/

theorem EndedWith.err_iff {b : Block} {e : ErrCode} (h : EndedWith b e) : b.status.err = true ↔ e ≠ .none := by
  obtain ⟨-, -, herr⟩ := h
  rw [herr, decide_eq_true_iff]

theorem PreOutcome.noOutput_of_err {b : Block} (h : PreOutcome b) (herr : b.status.err = true) : NoOutput b := by
  cases h with
  | v2 _ _ hend => exact absurd rfl (hend.err_iff.1 herr)
  | v2TooLong _ _ hout _ => exact hout
  | v3 _ _ _ _ hend => exact absurd rfl (hend.err_iff.1 herr)
  | v3TooLong _ _ _ _ hout _ => exact hout
  | bothEmpty _ _ _ _ _ _ _ hout _ => exact hout
  | neither _ _ hout _ => exact hout

theorem cmdPre_noOutput_of_err {b : Block} (herr : (cmdPre b).status.err = true) : NoOutput (cmdPre b) := by
  obtain ⟨e, -, -, hout, -⟩ | hout := cmdPre_outcome b
  · exact hout
  · exact hout.noOutput_of_err herr

/-- Once the characters are converted, PRE ends with another code than `INVALID_HEX`. -/
theorem PreOutcome.errCode_ne_invalidHex {b : Block} (h : PreOutcome b) : b.errCode ≠ 0x02 := by
  have hcode : ∀ {e : ErrCode}, EndedWith b e → e.code ≠ 0x02 → b.errCode ≠ 0x02 := fun hend hne => hend.1 ▸ hne
  cases h with
  | v2 _ _ hend => exact hcode hend (by decide)
  | v2TooLong _ _ _ hend => exact hcode hend (by decide)
  | v3 _ _ _ _ hend => exact hcode hend (by decide)
  | v3TooLong _ _ _ _ _ hend => exact hcode hend (by decide)
  | bothEmpty _ _ _ _ _ _ _ _ hend => exact hcode hend (by decide)
  | neither _ _ _ hend => exact hcode hend (by decide)

theorem cmdPre_hexCleared_of_invalidHex {b : Block} (h : (cmdPre b).errCode = 0x02) : HexCleared (cmdPre b) := by
  obtain ⟨e, -, hhex, -⟩ | hout := cmdPre_outcome b
  · exact hhex
  · exact absurd h hout.errCode_ne_invalidHex

theorem cmdV2d_noOutput_of_err {b : Block} (herr : (cmdV2d b).status.err = true) : NoOutput (cmdV2d b) := by
  obtain ⟨c, e, h, -, hclear, -⟩ := cmdV2d_spec b
  rw [h] at herr ⊢
  exact (hclear ((finish_endedWith e c).err_iff.1 herr)).noOutput

theorem cmdV3d_noOutput_of_err {b : Block} (herr : (cmdV3d b).status.err = true) : NoOutput (cmdV3d b) := by
  obtain ⟨c, e, h, -, hclear, -⟩ := cmdV3d_spec b
  rw [h] at herr ⊢
  exact (hclear ((finish_endedWith e c).err_iff.1 herr)).noOutput

theorem cmdLdp_payCleared_of_err {b : Block} (herr : (cmdLdp b).status.err = true) : PayCleared (cmdLdp b) := by
  obtain ⟨e, -, h⟩ | ⟨bytes, -, -, h⟩ := cmdLdp_cases b
  · exact (failedLoad_outcome h).1
  · rw [h] at herr
    cases herr

theorem cmdLdo_payCleared_of_err {b : Block} (herr : (cmdLdo b).status.err = true) : PayCleared (cmdLdo b) := by
  obtain h | ⟨bytes, -, -, h⟩ := cmdLdo_cases b
  · exact (failedLoad_outcome h).1
  · rw [h] at herr
    cases herr

theorem cmdH2b_hexCleared_of_err {b : Block} (herr : (cmdH2b b).status.err = true) : HexCleared (cmdH2b b) := by
  obtain ⟨e, -, h⟩ | ⟨-, h⟩ := cmdH2b_cases b
  · rw [h]
    exact clearHex_finish_hexCleared b e
  · rw [h] at herr
    cases herr

/-- Settles O44: each rule starts by clearing its buffer, which a failure leaves so. -/
theorem failureLeavesNoPartialResult : Obligations.FailureLeavesNoPartialResult := by
  intro s
  refine ⟨?_, ?_, ⟨_, exec_h2b s, cmdH2b_hexCleared_of_err⟩, ⟨_, exec_pre s, cmdPre_hexCleared_of_invalidHex⟩⟩
  · rintro i (rfl | rfl | rfl)
    · exact ⟨_, exec_pre s, cmdPre_noOutput_of_err⟩
    · exact ⟨_, exec_v2d s, cmdV2d_noOutput_of_err⟩
    · exact ⟨_, exec_v3d s, cmdV3d_noOutput_of_err⟩
  · rintro i (rfl | rfl)
    · exact ⟨_, exec_ldp s, cmdLdp_payCleared_of_err⟩
    · exact ⟨_, exec_ldo s, cmdLdo_payCleared_of_err⟩

end Sys2Proof.Machine
end

section
/-! PROOFS. The groups of state a command writes (40_control.md R111): every other address of the map reads as
before. -/

namespace Sys2Proof.Machine

/-! ## Groups (R111) -/

/-- The groups of R111. -/
inductive StateGroup where
  | stat | hex | dec | payg | cs
  deriving DecidableEq

/-- The groups R111 lists for a command. -/
def writtenGroups : Command → List StateGroup
  | .nop => []
  | .pre => [.stat, .hex, .dec]
  | .h2b => [.stat, .hex]
  | .v2d => [.stat, .dec]
  | .v3d => [.stat, .dec]
  | .ldp => [.stat, .payg, .cs]
  | .ldo => [.stat, .payg, .cs]
  | .ck1 => [.stat, .cs]
  | .ck2 => [.stat, .cs]
  | .ck4 => [.stat, .cs]
  | .ck5 => [.stat, .cs]

/-- Does the content of address `a`, a view's included, lie in the group (20_memory.md R64)? -/
def StateGroup.holds : StateGroup → Nat → Bool
  | .stat, a => a == 0x001 || a == 0x002
  | .hex, a => a == 0x006 || a == 0x007 || (decide (0x200 ≤ a) && decide (a ≤ 0x27F))
  | .dec, a => a == 0x001 || a == 0x008 || (decide (0x00C ≤ a) && decide (a ≤ 0x011)) || a == 0x015 ||
      (decide (0x300 ≤ a) && decide (a ≤ 0x31F)) || (decide (0x340 ≤ a) && decide (a ≤ 0x37F))
  | .payg, a =>
      a == 0x009 || (decide (0x012 ≤ a) && decide (a ≤ 0x014)) || (decide (0x320 ≤ a) && decide (a ≤ 0x33F))
  | .cs, a => a == 0x001 || a == 0x00A || a == 0x00B

/-- The group is unchanged. -/
def StateGroup.Same : StateGroup → Block → Block → Prop
  | .stat => SameStat
  | .hex => SameHex
  | .dec => SameDec
  | .payg => SamePay
  | .cs => SameCs

/-- The addresses a command may change are CMD and those of its groups. -/
theorem writesAddr_eq (c : Command) (a : Nat) :
    writesAddr c a = (a == 0x000 || (writtenGroups c).any (·.holds a)) := by
  cases c <;> simp [writesAddr, writtenGroups, StateGroup.holds, Bool.or_assoc]

theorem writesAddr_eq_false_iff (c : Command) (a : Nat) :
    writesAddr c a = false ↔ a ≠ 0x000 ∧ ∀ g ∈ writtenGroups c, g.holds a = false := by
  simp [writesAddr_eq]

/-! ## What a rule keeps -/

theorem same_of_not_mem {b c : Block} {gs : List StateGroup} (hstat : .stat ∈ gs ∨ SameStat b c)
    (hhex : .hex ∈ gs ∨ SameHex b c) (hdec : .dec ∈ gs ∨ SameDec b c) (hpay : .payg ∈ gs ∨ SamePay b c)
    (hcs : .cs ∈ gs ∨ SameCs b c) : ∀ g ∉ gs, g.Same b c := by
  intro g hg
  cases g with
  | stat => exact hstat.resolve_left hg
  | hex => exact hhex.resolve_left hg
  | dec => exact hdec.resolve_left hg
  | payg => exact hpay.resolve_left hg
  | cs => exact hcs.resolve_left hg

/-- CMD is in no group. -/
theorem StateGroup.same_setCmd (g : StateGroup) (b : Block) (v : Byte) : g.Same b (b.setCmd v) := by
  cases g with
  | stat => exact ⟨rfl, rfl, rfl⟩
  | hex => exact ⟨rfl, rfl⟩
  | dec => exact ⟨rfl, rfl, rfl, rfl, rfl, rfl, rfl, rfl⟩
  | payg => exact ⟨rfl, rfl⟩
  | cs => exact ⟨rfl, rfl, rfl⟩

theorem cmdV2d_frame (b : Block) :
    (cmdV2d b).cmd = b.cmd ∧ SameInputs b (cmdV2d b) ∧ SameHex b (cmdV2d b) ∧ SamePay b (cmdV2d b) ∧
      SameCs b (cmdV2d b) := by
  obtain ⟨c, e, h, -, -, hframe⟩ := cmdV2d_spec b
  obtain ⟨hcmd, hin, hhex, hpay, hcs, -⟩ := hframe.same
  rw [h]
  exact ⟨hcmd, hin, hhex, hpay, hcs⟩

theorem cmdV3d_frame (b : Block) :
    (cmdV3d b).cmd = b.cmd ∧ SameInputs b (cmdV3d b) ∧ SameHex b (cmdV3d b) ∧ SamePay b (cmdV3d b) ∧
      SameCs b (cmdV3d b) := by
  obtain ⟨c, e, h, -, -, hframe⟩ := cmdV3d_spec b
  obtain ⟨hcmd, hin, hhex, hpay, hcs, -⟩ := hframe.same
  rw [h]
  exact ⟨hcmd, hin, hhex, hpay, hcs⟩

theorem csRun_keeps (b : Block) (h need : Nat) (ref : Memory → Byte) :
    let c := b.csRun h need ref
    c.cmd = b.cmd ∧ SameInputs b c ∧ ∀ g ∉ [StateGroup.stat, .cs], g.Same b c := by
  obtain ⟨hcmd, hin, hhex, hdec, hpay⟩ := (csRun_frame b h need ref).same
  exact ⟨hcmd, hin, same_of_not_mem (.inl (by decide)) (.inr hhex) (.inr hdec) (.inr hpay) (.inl (by decide))⟩

theorem load_keeps {b c : Block} {bytes : List Byte} {e : ErrCode} (h : c = (b.loadStart.setPay bytes).finish e) :
    c.cmd = b.cmd ∧ SameInputs b c ∧ ∀ g ∉ [StateGroup.stat, .payg, .cs], g.Same b c := by
  obtain ⟨hcmd, hin, hhex, hdec, -⟩ := load_frame h
  exact ⟨hcmd, hin, same_of_not_mem (.inl (by decide)) (.inr hhex) (.inr hdec) (.inl (by decide)) (.inl (by decide))⟩

/-- A rule keeps CMD, the inputs, and every group R111 does not list for it. -/
theorem rule_keeps (c : Command) (b : Block) :
    (ruleOf c b).cmd = b.cmd ∧ SameInputs b (ruleOf c b) ∧ ∀ g ∉ writtenGroups c, g.Same b (ruleOf c b) := by
  cases c with
  | nop => exact ⟨rfl, ⟨rfl, rfl⟩, fun g _ => g.same_setCmd b b.cmd⟩
  | pre =>
    obtain ⟨hcmd, hin, hpay, hcs⟩ := cmdPre_frame b
    exact ⟨hcmd, hin, same_of_not_mem (.inl (by decide)) (.inl (by decide)) (.inl (by decide)) (.inr hpay) (.inr hcs)⟩
  | h2b =>
    obtain ⟨hcmd, hin, hdec, hpay, hcs⟩ := cmdH2b_frame b
    exact ⟨hcmd, hin, same_of_not_mem (.inl (by decide)) (.inl (by decide)) (.inr hdec) (.inr hpay) (.inr hcs)⟩
  | v2d =>
    obtain ⟨hcmd, hin, hhex, hpay, hcs⟩ := cmdV2d_frame b
    exact ⟨hcmd, hin, same_of_not_mem (.inl (by decide)) (.inr hhex) (.inl (by decide)) (.inr hpay) (.inr hcs)⟩
  | v3d =>
    obtain ⟨hcmd, hin, hhex, hpay, hcs⟩ := cmdV3d_frame b
    exact ⟨hcmd, hin, same_of_not_mem (.inl (by decide)) (.inr hhex) (.inl (by decide)) (.inr hpay) (.inr hcs)⟩
  | ldp =>
    obtain ⟨bytes, e, h⟩ := cmdLdp_eq_load b
    exact load_keeps h
  | ldo =>
    obtain ⟨bytes, e, h⟩ := cmdLdo_eq_load b
    exact load_keeps h
  | ck1 => exact csRun_keeps b 13 8 ck1Ref
  | ck2 => exact csRun_keeps b 16 9 (payload · 8)
  | ck4 => exact csRun_keeps b 18 10 (payload · 9)
  | ck5 => exact csRun_keeps b 20 11 (payload · 10)

/-! ## The addresses of the groups (20_memory.md R64) -/

/-- STATUS is what it holds of the groups DEC, CS and STAT. -/
theorem status_eq_of_same {b c : Block} (hdec : SameDec b c) (hcs : SameCs b c) (hstat : SameStat b c) :
    c.status = b.status := by
  obtain ⟨-, -, hv2, hv3, hpath, -⟩ := hdec
  obtain ⟨hcsok, -⟩ := hcs
  obtain ⟨hok, herr, -⟩ := hstat
  calc c.status
      = ⟨c.status.ok, c.status.err, c.status.v2pre, c.status.v3pre, c.status.path, c.status.csok⟩ := rfl
    _ = b.status := by rw [hok, herr, hv2, hv3, hpath, hcsok]

/-- Two blocks read alike at an address where they agree on the inputs, on CMD, and on the groups that hold it. -/
theorem readMap_of_groups {b c : Block} {a : Nat} (hcmd : a = 0x000 → c.cmd = b.cmd) (hin : SameInputs b c)
    (h : ∀ g : StateGroup, g.holds a = true → g.Same b c) : c.readMap a = b.readMap a := by
  obtain ⟨hmsg, hlen⟩ := hin
  have hstat : a = 0x001 ∨ a = 0x002 → SameStat b c := fun ha => h .stat (by simp [StateGroup.holds]; omega)
  have hhex : a = 0x006 ∨ a = 0x007 ∨ (0x200 ≤ a ∧ a < 0x280) → SameHex b c :=
    fun ha => h .hex (by simp [StateGroup.holds]; omega)
  have hdec : a = 0x001 ∨ a = 0x008 ∨ (0x00C ≤ a ∧ a < 0x012) ∨ a = 0x015 ∨ (0x300 ≤ a ∧ a < 0x320) ∨
      (0x340 ≤ a ∧ a < 0x380) → SameDec b c := fun ha => h .dec (by simp [StateGroup.holds]; omega)
  have hpay : a = 0x009 ∨ (0x012 ≤ a ∧ a < 0x015) ∨ (0x320 ≤ a ∧ a < 0x340) → SamePay b c :=
    fun ha => h .payg (by simp [StateGroup.holds]; omega)
  have hcs : a = 0x001 ∨ a = 0x00A ∨ a = 0x00B → SameCs b c := fun ha => h .cs (by simp [StateGroup.holds]; omega)
  apply readMap_congr
  case hcmd => exact hcmd
  case hst =>
    exact fun ha => status_eq_of_same (hdec (by omega)) (hcs (by omega)) (hstat (by omega))
  case herr =>
    intro ha
    obtain ⟨-, -, herr⟩ := hstat (by omega)
    exact herr
  case hmlen => exact fun _ => hlen
  case hblen =>
    intro ha
    obtain ⟨-, hblen⟩ := hhex (by omega)
    exact hblen
  case holen =>
    intro ha
    obtain ⟨-, holen, -⟩ := hdec (by omega)
    exact holen
  case hplen =>
    intro ha
    obtain ⟨-, hplen⟩ := hpay (by omega)
    exact hplen
  case hcalc =>
    intro ha
    obtain ⟨-, hcalc, -⟩ := hcs (by omega)
    exact hcalc
  case href =>
    intro ha
    obtain ⟨-, -, href⟩ := hcs (by omega)
    exact href
  case hv2 =>
    intro ha
    obtain ⟨-, -, -, -, -, hv2, -, -⟩ := hdec (by omega)
    exact hv2
  case hv3p =>
    intro ha
    obtain ⟨-, -, -, -, -, -, hv3p, -⟩ := hdec (by omega)
    exact hv3p
  case hv3d =>
    intro ha
    obtain ⟨-, -, -, -, -, -, -, hv3d⟩ := hdec (by omega)
    exact hv3d
  case hview =>
    intro ha
    obtain ⟨hview, -⟩ := hpay (by omega)
    exact hview
  case hmsg => exact fun _ _ => by rw [hmsg]
  case hbits =>
    intro _ _
    obtain ⟨hbits, -⟩ := hhex (by omega)
    exact hbits
  case hout =>
    intro _ _
    obtain ⟨hout, -⟩ := hdec (by omega)
    exact hout
  case hpay =>
    intro _ _
    obtain ⟨hpay, -⟩ := hpay (by omega)
    exact hpay
  case hhex =>
    intro _ _
    obtain ⟨hout, holen, -⟩ := hdec (by omega)
    exact ⟨hout, holen⟩

/-- Settles O42: outside CMD and its groups' addresses, what an address shows lies in a group the rule keeps. -/
theorem commandsLeaveOtherAddresses : Obligations.CommandsLeaveOtherAddresses := by
  intro c s
  refine ⟨_, exec_command c s, ⟨rfl, rfl⟩, fun a ha => ?_⟩
  obtain ⟨hne, hgroups⟩ := (writesAddr_eq_false_iff c _).1 ha
  obtain ⟨-, hin, hkeep⟩ := rule_keeps c (s.block.setCmd c.op)
  have hread := readMap_of_groups (b := s.block.setCmd c.op) (a := a % 4096) (fun h => absurd h hne) hin
    fun g hg => hkeep g fun hmem => by rw [hgroups g hmem] at hg; cases hg
  exact hread.trans
    (readMap_of_groups (b := s.block) (fun h => absurd h hne) ⟨rfl, rfl⟩
      fun g _ => g.same_setCmd s.block c.op)

end Sys2Proof.Machine
end

section
/-! PROOFS. A command issued again changes nothing (40_control.md R116). -/

namespace Sys2Proof.Machine

/-! ## Rules that start by clearing what they write -/

/-- What a command finds of a block once its groups are cleared, group STAT at a fixed value: the part it reads. -/
def clearedFor : Command → Block → Block
  | .nop => id
  | .pre => fun b => b.clearHex.clearDec.finish .none
  | .h2b => fun b => b.clearHex.finish .none
  | .v2d => fun b => b.clearDec.finish .none
  | .v3d => fun b => b.clearDec.finish .none
  | .ldp => fun b => b.loadStart.finish .none
  | .ldo => fun b => b.loadStart.finish .none
  | .ck1 => fun b => b.clearCs.finish .none
  | .ck2 => fun b => b.clearCs.finish .none
  | .ck4 => fun b => b.clearCs.finish .none
  | .ck5 => fun b => b.clearCs.finish .none

/-! ## StateGroup STAT is not read -/

theorem emit_finish (b : Block) (e : ErrCode) (bytes : List Byte) (path : BitVec 2) :
    (b.finish e).emit bytes path = ((b.emit bytes path).1, (b.emit bytes path).2.finish e) := by
  rcases Nat.eq_zero_or_pos bytes.length with hempty | hpos
  · rw [emit_empty hempty, emit_empty hempty]
  · rcases Nat.lt_or_ge 31 bytes.length with hlong | hfits
    · rw [emit_long hlong, emit_long hlong]
    · rw [emit_fits hpos hfits, emit_fits hpos hfits]
      rfl

theorem v2Run_finish (b : Block) (e : ErrCode) : (b.finish e).v2Run = (b.v2Run.1, b.v2Run.2.finish e) := by
  unfold Block.v2Run
  rw [Block.finish_bits, Block.finish_bitLen]
  cases first b.bits b.bitLen.toNat Config.v2Preamble with
  | none => rfl
  | some i => exact emit_finish (b.setV2 i) e _ _

theorem v3Run_finish (b : Block) (e : ErrCode) : (b.finish e).v3Run = (b.v3Run.1, b.v3Run.2.finish e) := by
  unfold Block.v3Run
  rw [Block.finish_bits, Block.finish_bitLen]
  cases first b.bits b.bitLen.toNat Config.v3Preamble with
  | none => rfl
  | some p =>
    cases first b.bits b.bitLen.toNat Config.v3Marker with
    | none => rfl
    | some d => exact emit_finish (b.setV3 p d) e _ _

theorem fallback_finish (b : Block) (e : ErrCode) : (b.finish e).fallback = b.fallback := by
  unfold Block.fallback
  rw [v3Run_finish]
  obtain ⟨c, f⟩ := b.v3Run
  cases c <;> rfl

theorem arbitrate_finish (b : Block) (e : ErrCode) : (b.finish e).arbitrate = b.arbitrate := by
  unfold Block.arbitrate
  rw [v2Run_finish]
  obtain ⟨c, f⟩ := b.v2Run
  cases c with
  | none => rfl
  | payloadTooLong => rfl
  | _ => exact fallback_finish f e

/-! ## A rule reads the cleared block, and leaves it as it was -/

theorem cmdH2b_clearedFor (b : Block) : cmdH2b (clearedFor .h2b b) = cmdH2b b := by
  rcases Nat.lt_or_ge 256 b.msgLen.toNat with hlong | hfits
  · rw [cmdH2b_tooLong hlong, cmdH2b_tooLong (b := clearedFor .h2b b) hlong]
    rfl
  · by_cases hall : AllHex b 0 b.msgLen.toNat
    · rw [cmdH2b_digits hfits hall, cmdH2b_digits (b := clearedFor .h2b b) hfits hall]
      rfl
    · rw [cmdH2b_invalid hfits hall, cmdH2b_invalid (b := clearedFor .h2b b) hfits hall]
      rfl

theorem cmdPre_clearedFor (b : Block) : cmdPre (clearedFor .pre b) = cmdPre b := by
  rcases Nat.lt_or_ge 256 b.msgLen.toNat with hlong | hfits
  · rw [cmdPre_tooLong hlong, cmdPre_tooLong (b := clearedFor .pre b) hlong]
    rfl
  cases hf : b.framed with
  | false =>
    rw [cmdPre_unframed hfits hf, cmdPre_unframed (b := clearedFor .pre b) hfits hf]
    rfl
  | true =>
    by_cases hall : AllHex b 2 (b.msgLen.toNat - 2)
    · rw [cmdPre_digits hfits hf hall, cmdPre_digits (b := clearedFor .pre b) hfits hf hall]
      exact arbitrate_finish (b.clearHex.clearDec.setHex _ _) .none
    · rw [cmdPre_invalidHex hfits hf hall, cmdPre_invalidHex (b := clearedFor .pre b) hfits hf hall]
      rfl

theorem rule_clearedFor (c : Command) (b : Block) : ruleOf c (clearedFor c b) = ruleOf c b := by
  cases c with
  | pre => exact cmdPre_clearedFor b
  | h2b => exact cmdH2b_clearedFor b
  | v2d => exact (congrArg finishWith (v2Run_finish b.clearDec .none)).trans rfl
  | v3d => exact (congrArg finishWith (v3Run_finish b.clearDec .none)).trans rfl
  | _ => rfl

theorem csRun_clearCs (b : Block) (h need : Nat) (ref : Memory → Byte) :
    (b.csRun h need ref).clearCs.finish .none = b.clearCs.finish .none := by
  obtain ⟨x, r, passed, e, -, heq, -⟩ := csRun_cases b h need ref
  rw [heq]
  rfl

theorem clearedFor_rule (c : Command) (b : Block) : clearedFor c (ruleOf c b) = clearedFor c b := by
  cases c with
  | nop => rfl
  | pre =>
    obtain ⟨bits, count, h⟩ := cmdPre_decFrame b
    show (cmdPre b).clearHex.clearDec.finish .none = _
    rw [h]
    rfl
  | h2b =>
    obtain ⟨bits, count, e, h⟩ := cmdH2b_eq_finish_setHex b
    show (cmdH2b b).clearHex.finish .none = _
    rw [h]
    rfl
  | v2d =>
    obtain ⟨c, e, h, -, -, hframe⟩ := cmdV2d_spec b
    show (cmdV2d b).clearDec.finish .none = _
    rw [h, hframe]
    rfl
  | v3d =>
    obtain ⟨c, e, h, -, -, hframe⟩ := cmdV3d_spec b
    show (cmdV3d b).clearDec.finish .none = _
    rw [h, hframe]
    rfl
  | ldp =>
    obtain ⟨bytes, e, h⟩ := cmdLdp_eq_load b
    show (cmdLdp b).loadStart.finish .none = _
    rw [h]
    rfl
  | ldo =>
    obtain ⟨bytes, e, h⟩ := cmdLdo_eq_load b
    show (cmdLdo b).loadStart.finish .none = _
    rw [h]
    rfl
  | ck1 => exact csRun_clearCs b 13 8 ck1Ref
  | ck2 => exact csRun_clearCs b 16 9 (payload · 8)
  | ck4 => exact csRun_clearCs b 18 10 (payload · 9)
  | ck5 => exact csRun_clearCs b 20 11 (payload · 10)

theorem rule_idempotent (c : Command) (b : Block) : ruleOf c (ruleOf c b) = ruleOf c b :=
  calc ruleOf c (ruleOf c b)
      = ruleOf c (clearedFor c (ruleOf c b)) := (rule_clearedFor c _).symm
    _ = ruleOf c (clearedFor c b) := by rw [clearedFor_rule]
    _ = ruleOf c b := rule_clearedFor c b

theorem setCmd_of_cmd_eq {b : Block} {v : Byte} (h : b.cmd = v) : b.setCmd v = b := by
  rw [← h]
  rfl

/-- Settles O45: the rule finds in the second issue what it found in the first. -/
theorem commandsAreIdempotent : Obligations.CommandsAreIdempotent := by
  intro c s
  have hcmd : (ruleOf c (s.block.setCmd c.op)).cmd = c.op := (rule_keeps c (s.block.setCmd c.op)).1
  refine ⟨_, exec_command c s, ?_⟩
  rw [exec_command, setCmd_of_cmd_eq hcmd, rule_idempotent]

end Sys2Proof.Machine
end

section
/-! PROOFS. The invariants of 10_state.md R41, group by group, and the low nibble of OUT[1] (42_v2_decoder.md R155,
43_v3_decoder.md R175): reset meets them and every step keeps them. -/

namespace Sys2Proof.Machine

/-! ## The invariants of a group -/

/-- R41 for group HEX. -/
def HexInv (b : Block) : Prop :=
  b.bitLen.toNat ≤ 1024 ∧ b.bitLen.toNat % 4 = 0 ∧ b.bits.length = b.bitLen.toNat

/-- R41 for OUT, OUT_LEN and PATH. -/
structure OutInv (b : Block) : Prop where
  len_legal : b.outLen.toNat = 0 ∨ (2 ≤ b.outLen.toNat ∧ b.outLen.toNat ≤ 32)
  tail : ∀ k, b.outLen.toNat ≤ k → b.out.read k = 0
  path : b.outLen = 0 ↔ b.status.path = 0b00
  head : b.outLen ≠ 0 → (b.out.read 0).toNat = 8 * (b.outLen.toNat - 1)
  path_legal : b.status.path ≠ 0b11
  form : b.out.wf = true ∧ b.out.within 32 = true

/-- R41 for the preamble flags and indices. -/
def IdxInv (b : Block) : Prop :=
  (b.status.v3pre = false → b.v3PreIdx = 0 ∧ b.v3DatIdx = 0) ∧ (b.status.v2pre = false → b.v2Idx = 0)

/-- R41 for group DEC. -/
def DecInv (b : Block) : Prop := OutInv b ∧ IdxInv b

/-- R41 for group PAYG. -/
structure PayInv (b : Block) : Prop where
  len_legal : b.payLen.toNat = 0 ∨ (3 ≤ b.payLen.toNat ∧ b.payLen.toNat ≤ 32)
  tail : ∀ k, b.payLen.toNat ≤ k → b.pay.read k = 0
  form : b.pay.wf = true ∧ b.pay.within 32 = true

/-- R41 for group CS. -/
def CsInv (b : Block) : Prop := b.status.csok = true → b.csCalc = b.csRef

/-- R41 for group STAT once a command other than NOP has run. -/
def StatInv (b : Block) : Prop := ∃ e, writableCode e = true ∧ EndedWith b e

/-- R41 for a group. -/
def StateGroup.Inv : StateGroup → Block → Prop
  | .stat => StatInv
  | .hex => HexInv
  | .dec => DecInv
  | .payg => PayInv
  | .cs => CsInv

/-- A group's invariant is about the group. -/
theorem StateGroup.Inv.of_same {g : StateGroup} {b c : Block} (h : g.Inv b) (hsame : g.Same b c) : g.Inv c := by
  cases g with
  | stat =>
    obtain ⟨hok, herr, hcode⟩ := hsame
    obtain ⟨e, he, hend⟩ := h
    refine ⟨e, he, ?_⟩
    unfold EndedWith
    rwa [hok, herr, hcode]
  | hex =>
    obtain ⟨hbits, hlen⟩ := hsame
    show HexInv c
    unfold HexInv
    rwa [hbits, hlen]
  | dec =>
    obtain ⟨hout, hlen, hv2, hv3, hpath, hv2i, hv3p, hv3d⟩ := hsame
    obtain ⟨⟨hlegal, htail, hpath0, hhead, hpath3, hform⟩, hidx⟩ := h
    refine ⟨⟨by rwa [hlen], by rwa [hout, hlen], by rwa [hlen, hpath], by rwa [hout, hlen], by rwa [hpath],
      by rwa [hout]⟩, ?_⟩
    unfold IdxInv
    rwa [hv2, hv3, hv2i, hv3p, hv3d]
  | payg =>
    obtain ⟨hpay, hlen⟩ := hsame
    obtain ⟨hlegal, htail, hform⟩ := h
    exact ⟨by rwa [hlen], by rwa [hpay, hlen], by rwa [hpay]⟩
  | cs =>
    obtain ⟨hcsok, hcalc, href⟩ := hsame
    show CsInv c
    unfold CsInv
    rwa [hcsok, hcalc, href]

/-- Ending with a code writes group STAT alone. -/
theorem StateGroup.Inv.finish {g : StateGroup} {b : Block} (h : g.Inv b) (hg : g ≠ .stat) (e : ErrCode) :
    g.Inv (b.finish e) := by
  refine h.of_same ?_
  cases g with
  | stat => exact absurd rfl hg
  | hex => exact ⟨rfl, rfl⟩
  | dec => exact ⟨rfl, rfl, rfl, rfl, rfl, rfl, rfl, rfl⟩
  | payg => exact ⟨rfl, rfl⟩
  | cs => exact ⟨rfl, rfl, rfl⟩

theorem DecInv.finish {b : Block} (h : DecInv b) (e : ErrCode) : DecInv (b.finish e) :=
  StateGroup.Inv.finish (g := .dec) h nofun e

theorem PayInv.finish {b : Block} (h : PayInv b) (e : ErrCode) : PayInv (b.finish e) :=
  StateGroup.Inv.finish (g := .payg) h nofun e

section Block

variable {b : Block}

/-- The invariants of the block are those of its groups and of MSG, once a command other than NOP has run. -/
theorem Block.Inv.of_groups (hmsg : b.msg.wf = true ∧ b.msg.within Config.msgCap = true)
    (h : ∀ g : StateGroup, g.Inv b) :
    b.Inv := by
  obtain ⟨hcap, hmod, hbits⟩ : HexInv b := h .hex
  obtain ⟨hout, hv3, hv2⟩ : DecInv b := h .dec
  have hpay : PayInv b := h .payg
  obtain ⟨e, he, hcode, hok, herr⟩ : StatInv b := h .stat
  have hflags : b.status.err = !b.status.ok ∧ (b.status.ok = true ↔ b.errCode = 0) :=
    EndedWith.flags ⟨hcode, hok, herr⟩
  obtain ⟨hopp, hzero⟩ := hflags
  exact {
    bitLen_cap := hcap
    bitLen_mod := hmod
    bits_len := hbits
    bits_tail := fun i hi => Block.bit_of_length_le (hbits.trans_le hi)
    outLen_legal := hout.len_legal
    out_tail := hout.tail
    out_path := hout.path
    out_head := hout.head
    path_legal := hout.path_legal
    payLen_legal := hpay.len_legal
    pay_tail := hpay.tail
    not_both := by rw [hopp]; simp
    ok_code := hzero.1
    err_code := by rw [hopp, ne_eq, ← hzero]; simp
    fresh := fun hok herr => by rw [hopp, hok] at herr; cases herr
    code_legal := ⟨e, he, hcode⟩
    csok_equal := h .cs
    v3_fields := hv3
    v2_fields := hv2
    msg_form := hmsg
    out_form := hout.form
    pay_form := hpay.form }

theorem Block.Inv.group (h : b.Inv) {g : StateGroup} (hg : g ≠ .stat) : g.Inv b := by
  cases g with
  | stat => exact absurd rfl hg
  | hex => exact ⟨h.bitLen_cap, h.bitLen_mod, h.bits_len⟩
  | dec =>
    exact ⟨⟨h.outLen_legal, h.out_tail, h.out_path, h.out_head, h.path_legal, h.out_form⟩, h.v3_fields, h.v2_fields⟩
  | payg => exact ⟨h.payLen_legal, h.pay_tail, h.pay_form⟩
  | cs => exact h.csok_equal

/-- CMD and the inputs are not in the invariants, but for the form of MSG. -/
theorem Block.Inv.withInputs (h : b.Inv) (v : Byte) {m : Memory} (n : Half)
    (hm : m.wf = true ∧ m.within Config.msgCap = true) : { b with cmd := v, msg := m, msgLen := n }.Inv :=
  { h with
    bits_tail := h.bits_tail
    fresh := fun hok herr => by rw [h.fresh hok herr]
    msg_form := hm }

end Block

/-! ## What each rule leaves in the groups it writes -/

theorem hexInv_cleared {b : Block} (hbits : b.bits = []) (hlen : b.bitLen = 0) : HexInv b := by
  unfold HexInv
  rw [hbits, hlen]
  decide

theorem hexInv_setHex (b : Block) (m : Memory) (start : Nat) {count : Nat} (h : count ≤ 256) :
    HexInv (b.setHex (expandBits m start count) count) := by
  have hlen : (b.setHex (expandBits m start count) count).bitLen.toNat = 4 * count := by
    rw [Block.setHex_bitLen, BitVec.toNat_ofNat]
    omega
  unfold HexInv
  rw [hlen, Block.setHex_bits, expandBits_length]
  omega

theorem cmdH2b_hexInv (b : Block) : HexInv (cmdH2b b) := by
  obtain ⟨e, -, h⟩ | ⟨hfits, h⟩ := cmdH2b_cases b
  · rw [h]
    exact hexInv_cleared rfl rfl
  · rw [h]
    exact hexInv_setHex b.clearHex b.msg 0 hfits

theorem cmdPre_hexInv (b : Block) : HexInv (cmdPre b) := by
  obtain ⟨e, -, h⟩ | ⟨hfits, h⟩ := cmdPre_cases b
  · rw [h]
    exact hexInv_cleared rfl rfl
  · rw [h]
    obtain ⟨-, -, hhex, -⟩ := (arbitrate_setHex_spec b (expandBits b.msg 2 (b.msgLen.toNat - 2))
      (b.msgLen.toNat - 2)).2.same
    exact StateGroup.Inv.of_same (g := .hex) (hexInv_setHex b b.msg 2 (by omega)) hhex

theorem OutCleared.outInv {b : Block} (h : OutCleared b) : OutInv b := by
  obtain ⟨hout, hlen, hpath⟩ := h
  constructor <;> simp [hout, hlen, hpath, Memory.within, Memory.nil_wf]

theorem outInv_setOut {b : Block} (h : b.out = []) {bytes : List Byte} {path : BitVec 2} (h1 : 1 ≤ bytes.length)
    (h31 : bytes.length ≤ 31) (hpath : path = 0b01 ∨ path = 0b10) : OutInv (b.setOut bytes path) := by
  have hlen : (b.setOut bytes path).outLen.toNat = bytes.length + 1 := by
    rw [Block.setOut_outLen, BitVec.toNat_ofNat]
    omega
  have hne : (b.setOut bytes path).outLen ≠ 0 := fun h0 => by rw [h0] at hlen; cases hlen
  exact {
    len_legal := by omega
    tail := fun k hk => by rw [setOut_read h, if_neg (by omega), if_neg (by omega)]
    path := by
      refine ⟨fun h0 => absurd h0 hne, fun h0 => ?_⟩
      rw [Block.setOut_path] at h0
      obtain rfl | rfl := hpath <;> cases h0
    head := fun _ => by
      rw [setOut_read h, if_pos rfl, hlen, BitVec.toNat_ofNat]
      omega
    path_legal := by
      rw [Block.setOut_path]
      obtain rfl | rfl := hpath <;> decide
    form := by
      rw [Block.setOut_out, h]
      exact ⟨Memory.writeAll_wf 1 _ (Memory.write_wf 0 _ Memory.nil_wf),
        Memory.writeAll_within _ (by omega) (Memory.write_within _ (by decide) rfl)⟩ }

theorem emit_decInv {b : Block} (ho : OutCleared b) (hidx : IdxInv b) (bytes : List Byte) {path : BitVec 2}
    (hpath : path = 0b01 ∨ path = 0b10) : DecInv (b.emit bytes path).2 := by
  rcases Nat.eq_zero_or_pos bytes.length with hempty | hpos
  · rw [emit_empty hempty]
    exact ⟨ho.outInv, hidx⟩
  · rcases Nat.lt_or_ge 31 bytes.length with hlong | hfits
    · rw [emit_long hlong]
      exact ⟨ho.outInv, hidx⟩
    · rw [emit_fits hpos hfits]
      exact ⟨outInv_setOut ho.1 hpos hfits hpath, hidx⟩

theorem v2Run_decInv {b : Block} (ho : OutCleared b) (hidx : IdxInv b) : DecInv b.v2Run.2 := by
  unfold Block.v2Run
  cases first b.bits b.bitLen.toNat Config.v2Preamble with
  | none => exact ⟨ho.outInv, hidx⟩
  | some i => exact emit_decInv (b := b.setV2 i) ho ⟨hidx.1, nofun⟩ _ (.inl rfl)

theorem v3Run_decInv {b : Block} (ho : OutCleared b) (hidx : IdxInv b) : DecInv b.v3Run.2 := by
  unfold Block.v3Run
  cases first b.bits b.bitLen.toNat Config.v3Preamble with
  | none => exact ⟨ho.outInv, hidx⟩
  | some p =>
    cases first b.bits b.bitLen.toNat Config.v3Marker with
    | none => exact ⟨ho.outInv, hidx⟩
    | some d => exact emit_decInv (b := b.setV3 p d) ho ⟨nofun, hidx.2⟩ _ (.inr rfl)

/-- Whatever ends it, the V3 attempt of PRE is a V3 attempt and `finish`. -/
theorem fallback_eq_finish (b : Block) : ∃ e, b.fallback = b.v3Run.2.finish e := by
  unfold Block.fallback
  generalize b.v3Run = r
  obtain ⟨c, f⟩ := r
  cases c <;> exact ⟨_, rfl⟩

/-- The arbitration ends on the V2 attempt, or on the V3 attempt after a V2 attempt that gave no output (R191, R192). -/
theorem arbitrate_cases (b : Block) :
    ((b.v2Run.1 = .none ∨ b.v2Run.1 = .payloadTooLong) ∧ b.arbitrate = b.v2Run.2.finish b.v2Run.1) ∨
    (b.v2Run.1 ≠ .none ∧ b.v2Run.1 ≠ .payloadTooLong ∧ ∃ e, b.arbitrate = b.v2Run.2.v3Run.2.finish e) := by
  unfold Block.arbitrate
  generalize b.v2Run = r
  obtain ⟨c, f⟩ := r
  cases c with
  | none => exact .inl ⟨.inl rfl, rfl⟩
  | payloadTooLong => exact .inl ⟨.inr rfl, rfl⟩
  | _ => exact .inr ⟨nofun, nofun, fallback_eq_finish f⟩

theorem clearDec_idxInv (b : Block) : IdxInv b.clearDec := ⟨fun _ => ⟨rfl, rfl⟩, fun _ => rfl⟩

theorem arbitrate_decInv {b : Block} (ho : OutCleared b) (h2 : NoV2 b) (hidx : IdxInv b) : DecInv b.arbitrate := by
  have hv2 := v2Run_decInv ho hidx
  obtain ⟨-, h⟩ | ⟨hne, -, e, h⟩ := arbitrate_cases b
  · rw [h]
    exact hv2.finish _
  · obtain ⟨c, f, hrun, -, hclear, -⟩ := v2Run_spec b ho h2
    rw [hrun] at h hne hv2
    rw [h]
    exact (v3Run_decInv (hclear hne) hv2.2).finish e

theorem cmdPre_decInv (b : Block) : DecInv (cmdPre b) := by
  obtain ⟨e, -, h⟩ | ⟨-, h⟩ := cmdPre_cases b
  · rw [h]
    exact DecInv.finish ⟨(clearDec_outCleared b.clearHex).outInv, clearDec_idxInv b.clearHex⟩ e
  · rw [h]
    exact arbitrate_decInv (clearDec_outCleared b.clearHex) (clearDec_noV2 b.clearHex) (clearDec_idxInv b.clearHex)

theorem payInv_setPay (b : Block) {bytes : List Byte} (h3 : 3 ≤ bytes.length) (h32 : bytes.length ≤ 32) :
    PayInv (b.loadStart.setPay bytes) := by
  have hlen : (b.loadStart.setPay bytes).payLen.toNat = bytes.length := by
    rw [Block.setPay_payLen, BitVec.toNat_ofNat]
    omega
  exact {
    len_legal := by omega
    tail := fun k hk => load_read_tail (hlen ▸ hk) b .none
    form := ⟨Memory.writeAll_wf 0 _ Memory.nil_wf, Memory.writeAll_within _ (by omega) rfl⟩ }

theorem payInv_loadStart (b : Block) : PayInv b.loadStart := ⟨.inl rfl, fun _ _ => rfl, rfl, rfl⟩

theorem cmdLdp_payInv (b : Block) : PayInv (cmdLdp b) := by
  obtain ⟨e, -, h⟩ | ⟨bytes, h3, h32, h⟩ := cmdLdp_cases b
  · rw [h]
    exact (payInv_loadStart b).finish _
  · rw [h]
    exact (payInv_setPay b h3 h32).finish _

/-- A load of OUT fits PAY because OUT_LEN is at most 32. -/
theorem cmdLdo_payInv {b : Block} (hb : b.Inv) : PayInv (cmdLdo b) := by
  have hcap := hb.outLen_legal
  obtain h | ⟨bytes, h3, hlen, h⟩ := cmdLdo_cases b
  · rw [h]
    exact (payInv_loadStart b).finish _
  · rw [h]
    exact (payInv_setPay b h3 (by omega)).finish _

theorem csInv_load {b c : Block} {bytes : List Byte} {e : ErrCode} (h : c = (b.loadStart.setPay bytes).finish e) :
    CsInv c := by
  rw [h]
  exact nofun

theorem csRun_csInv (b : Block) (h need : Nat) (ref : Memory → Byte) : CsInv (b.csRun h need ref) := by
  obtain ⟨x, r, passed, e, -, heq, hpass⟩ := csRun_cases b h need ref
  rw [heq]
  exact hpass

theorem inv_of_mem {c : Block} {gs : List StateGroup} (hhex : .hex ∈ gs → HexInv c) (hdec : .dec ∈ gs → DecInv c)
    (hpay : .payg ∈ gs → PayInv c) (hcs : .cs ∈ gs → CsInv c) : ∀ g ∈ gs, g ≠ .stat → g.Inv c := by
  intro g hg hne
  cases g with
  | stat => exact absurd rfl hne
  | hex => exact hhex hg
  | dec => exact hdec hg
  | payg => exact hpay hg
  | cs => exact hcs hg

theorem csRun_groupInv (b : Block) (h need : Nat) (ref : Memory → Byte) :
    ∀ g ∈ [StateGroup.stat, .cs], g ≠ .stat → g.Inv (b.csRun h need ref) :=
  inv_of_mem (fun hmem => absurd hmem (by decide)) (fun hmem => absurd hmem (by decide))
    (fun hmem => absurd hmem (by decide)) fun _ => csRun_csInv b h need ref

theorem rule_groupInv {b : Block} (hb : b.Inv) (c : Command) :
    ∀ g ∈ writtenGroups c, g ≠ .stat → g.Inv (ruleOf c b) := by
  cases c with
  | nop => exact inv_of_mem nofun nofun nofun nofun
  | pre =>
    exact inv_of_mem (fun _ => cmdPre_hexInv b) (fun _ => cmdPre_decInv b) (fun h => absurd h (by decide))
      fun h => absurd h (by decide)
  | h2b =>
    exact inv_of_mem (fun _ => cmdH2b_hexInv b) (fun h => absurd h (by decide)) (fun h => absurd h (by decide))
      fun h => absurd h (by decide)
  | v2d =>
    exact inv_of_mem (fun h => absurd h (by decide))
      (fun _ => (v2Run_decInv (clearDec_outCleared b) (clearDec_idxInv b)).finish _) (fun h => absurd h (by decide))
      fun h => absurd h (by decide)
  | v3d =>
    exact inv_of_mem (fun h => absurd h (by decide))
      (fun _ => (v3Run_decInv (clearDec_outCleared b) (clearDec_idxInv b)).finish _) (fun h => absurd h (by decide))
      fun h => absurd h (by decide)
  | ldp =>
    obtain ⟨bytes, e, h⟩ := cmdLdp_eq_load b
    exact inv_of_mem (fun h => absurd h (by decide)) (fun h => absurd h (by decide)) (fun _ => cmdLdp_payInv b)
      fun _ => csInv_load h
  | ldo =>
    obtain ⟨bytes, e, h⟩ := cmdLdo_eq_load b
    exact inv_of_mem (fun h => absurd h (by decide)) (fun h => absurd h (by decide)) (fun _ => cmdLdo_payInv hb)
      fun _ => csInv_load h
  | ck1 => exact csRun_groupInv b 13 8 ck1Ref
  | ck2 => exact csRun_groupInv b 16 9 (payload · 8)
  | ck4 => exact csRun_groupInv b 18 10 (payload · 9)
  | ck5 => exact csRun_groupInv b 20 11 (payload · 10)

/-! ## Every step keeps the invariants -/

theorem writableCode_of_mem (c : Command) : ∀ e ∈ mayEndWith c, writableCode e = true := by
  cases c <;> decide

/-- A group is written by the rule, which leaves it legal, or kept. -/
theorem rule_inv {b : Block} (hb : b.Inv) (c : Command) : (ruleOf c b).Inv := by
  by_cases hc : c = .nop
  · subst hc
    exact hb
  obtain ⟨-, ⟨hmsg, -⟩, hkeep⟩ := rule_keeps c b
  refine .of_groups (hmsg ▸ hb.msg_form) fun g => ?_
  by_cases hstat : g = .stat
  · obtain ⟨e, he, hend⟩ := rule_endedWith b hc
    subst hstat
    exact ⟨e, writableCode_of_mem c e he, hend⟩
  by_cases hg : g ∈ writtenGroups c
  · exact rule_groupInv hb c g hg hstat
  · exact (hb.group hstat).of_same (hkeep g hg)

theorem reserved_inv {b : Block} (hb : b.Inv) : (b.finish .illegalCommand).Inv := by
  refine .of_groups hb.msg_form fun g => ?_
  by_cases hstat : g = .stat
  · subst hstat
    exact ⟨.illegalCommand, rfl, finish_endedWith b _⟩
  · exact (hb.group hstat).finish hstat _

theorem Block.Inv.setCmd {b : Block} (hb : b.Inv) (v : Byte) : (b.setCmd v).Inv := hb.withInputs v b.msgLen hb.msg_form

/-- Settles O4: the empty buffers and zero registers of R40 meet each bound. -/
theorem resetMeetsInvariants : Obligations.ResetMeetsInvariants := by
  show Block.reset.Inv
  constructor
  case bits_tail => exact fun i _ => reset_bit i
  case fresh => exact fun _ _ => rfl
  case code_legal => exact ⟨.none, rfl, rfl⟩
  all_goals simp [Block.reset, Status.reset, Memory.nil_wf, Memory.within]

/-- Settles O5: what a step can do to the block, each part keeping the invariants. -/
theorem stepKeepsInvariants : Obligations.StepKeepsInvariants := by
  intro s t hinv hstep
  have heffect := step_effect hstep
  generalize s.block = b at hinv heffect
  generalize t.block = b' at heffect
  cases heffect with
  | same => exact hinv
  | reset => exact resetMeetsInvariants
  | command c =>
    rw [issue_op]
    exact rule_inv (hinv.setCmd c.op) c
  | reserved op => exact reserved_inv (hinv.setCmd op)
  | msgLen n => exact hinv.withInputs b.cmd n hinv.msg_form
  | msg i v hi =>
    obtain ⟨hwf, hcap⟩ := hinv.msg_form
    exact hinv.withInputs b.cmd b.msgLen ⟨Memory.write_wf i v hwf, Memory.write_within v hi hcap⟩

/-! ## The low nibble of OUT[1] (R155, R175) -/

/-- `lo(OUT[1]) = 0xA` where OUT holds a result. -/
def DecodedLowNibble (b : Block) : Prop := b.outLen ≠ 0 → (b.out.read 1).toNat % 16 = 0xA

theorem NoOutput.decodedLowNibble {b : Block} (h : NoOutput b) : DecodedLowNibble b := fun hne => absurd h.2.1 hne

theorem DecodedLowNibble.of_sameDec {b c : Block} (h : DecodedLowNibble b) (hdec : SameDec b c) :
    DecodedLowNibble c := by
  obtain ⟨hout, hlen, -⟩ := hdec
  unfold DecodedLowNibble
  rwa [hout, hlen]

/-- The bits 0101, lowest first, are the nibble 0xA. -/
theorem lowNibble_of_bits : ∀ x : Byte, x.getLsbD 0 = false → x.getLsbD 1 = true → x.getLsbD 2 = false →
    x.getLsbD 3 = true → x.toNat % 16 = 0xA := by
  decide

/-- The odd bits of the V2 preamble's first half are 0101. -/
theorem V2Outcome.decodedLowNibble {b : Block} (h : V2Outcome b .none) : DecodedLowNibble b := by
  cases h with
  | decoded i hfirst h16 _ _ hout =>
    obtain ⟨-, -, -, hbits, -⟩ := hout
    obtain ⟨⟨-, hpre⟩, -⟩ := hfirst
    have hbit : ∀ j, j < 4 → (b.out.read 1).getLsbD j = Config.v2Preamble.getD (2 * j + 1) false := fun j hj =>
      (hbits 0 j (Nat.div_pos h16 (by decide)) (by omega)).trans (hpre (2 * j + 1) (by simp; omega))
    exact fun _ => lowNibble_of_bits _ (hbit 0 (by decide)) (hbit 1 (by decide)) (hbit 2 (by decide))
      (hbit 3 (by decide))

/-- The V3 marker is 0101. -/
theorem V3Outcome.decodedLowNibble {b : Block} (h : V3Outcome b .none) : DecodedLowNibble b := by
  cases h with
  | decoded p d _ hfirst h8 _ _ hout =>
    obtain ⟨-, -, -, hbits, -⟩ := hout
    obtain ⟨⟨-, hmark⟩, -⟩ := hfirst
    have hbit : ∀ j, j < 4 → (b.out.read 1).getLsbD j = Config.v3Marker.getD j false := fun j hj =>
      (hbits 0 j (Nat.div_pos h8 (by decide)) (by omega)).trans (hmark j (by simp; omega))
    exact fun _ => lowNibble_of_bits _ (hbit 0 (by decide)) (hbit 1 (by decide)) (hbit 2 (by decide))
      (hbit 3 (by decide))

theorem PreOutcome.decodedLowNibble {b : Block} (h : PreOutcome b) : DecodedLowNibble b := by
  cases h with
  | v2 hv2 _ _ => exact hv2.decodedLowNibble
  | v2TooLong _ _ hout _ => exact hout.decodedLowNibble
  | v3 _ _ _ hv3 _ => exact hv3.decodedLowNibble
  | v3TooLong _ _ _ _ hout _ => exact hout.decodedLowNibble
  | bothEmpty _ _ _ _ _ _ _ hout _ => exact hout.decodedLowNibble
  | neither _ _ hout _ => exact hout.decodedLowNibble

theorem rule_decodedLowNibble {b : Block} (hb : DecodedLowNibble b) (c : Command) :
    DecodedLowNibble (ruleOf c b) := by
  obtain ⟨-, -, hsame⟩ := rule_keeps c b
  have hkeep : .dec ∉ writtenGroups c → DecodedLowNibble (ruleOf c b) := fun hdec => hb.of_sameDec (hsame .dec hdec)
  cases c with
  | pre =>
    obtain ⟨e, -, -, hout, -⟩ | hout := cmdPre_outcome b
    · exact hout.decodedLowNibble
    · exact hout.decodedLowNibble
  | v2d =>
    obtain ⟨c, e, h, hout, hclear, -⟩ := cmdV2d_spec b
    show DecodedLowNibble (cmdV2d b)
    rw [h]
    by_cases hc : c = .none
    · subst hc
      exact hout.finish.decodedLowNibble
    · exact (hclear hc).noOutput.decodedLowNibble
  | v3d =>
    obtain ⟨c, e, h, hout, hclear, -⟩ := cmdV3d_spec b
    show DecodedLowNibble (cmdV3d b)
    rw [h]
    by_cases hc : c = .none
    · subst hc
      exact hout.finish.decodedLowNibble
    · exact (hclear hc).noOutput.decodedLowNibble
  | _ => exact hkeep (by decide)

/-- Settles O6: only a reset and the decodes write OUT. -/
theorem stepKeepsDecodedLowNibble : Obligations.StepKeepsDecodedLowNibble := by
  intro s t hlow hstep
  have hb : DecodedLowNibble s.block := hlow
  show DecodedLowNibble t.block
  have heffect := step_effect hstep
  generalize s.block = b at hb heffect
  generalize t.block = b' at heffect
  cases heffect with
  | same => exact hb
  | reset => exact fun hne => absurd rfl hne
  | command c =>
    rw [issue_op]
    exact rule_decodedLowNibble (b := b.setCmd c.op) hb c
  | reserved op => exact hb
  | msgLen n => exact hb
  | msg i v hi => exact hb

end Sys2Proof.Machine
end

section
/-! PROOFS. Laws of the decoders: the marker inside the preamble (43_v3_decoder.md R172), the bits V2 ignores
(42_v2_decoder.md R155), reversal (R175), and PRE as its stages (44_preprocessor.md R192, R196). -/

namespace Sys2Proof.Machine

/-- Settles O46: the marker occurs at `p + 4`, so its first occurrence is no later. -/
theorem markerFoundInsidePreamble : Obligations.MarkerFoundInsidePreamble := fun _ _ _ h =>
  first_of_occursAt (marker_inside_preamble h)

/-- Settles O29: bit `j` goes to `7 - j` and back. -/
theorem reversalIsAnInvolution : Obligations.ReversalIsAnInvolution := by
  intro x
  refine BitVec.eq_of_getLsbD_eq fun j hj => ?_
  rw [rev8_getLsbD _ hj, rev8_getLsbD _ (by omega), Nat.sub_sub_self (by omega)]

/-! ## V2 reads odd-indexed bits only (R155) -/

/-- The V2 bytes from `i` on are made of the odd-indexed bits of the whole chunks. -/
theorem v2Bytes_congr {s s' : BitString} {n i : Nat}
    (h : ∀ j, j < 8 * ((n - i) / 16) → s'.getD (i + 2 * j + 1) false = s.getD (i + 2 * j + 1) false) :
    v2Bytes s' n i = v2Bytes s n i := by
  refine List.map_congr_left fun k hk => BitVec.eq_of_getLsbD_eq fun j hj => ?_
  have hk : k < (n - i) / 16 := List.mem_range.1 hk
  rw [v2Byte_getLsbD _ _ j hj, v2Byte_getLsbD _ _ j hj, show i + 16 * k + 2 * j + 1 = i + 2 * (8 * k + j) + 1 by omega]
  exact h _ (by omega)

theorem v2Run_found {b : Block} {i : Nat} (h : FirstAt b.bits b.bitLen.toNat Config.v2Preamble i) :
    b.v2Run = (b.setV2 i).emit (v2Bytes b.bits b.bitLen.toNat i) 0b01 := by
  unfold Block.v2Run
  rw [(first_eq_some_iff _ _ _ _).2 h]

theorem cmdV2d_found {b : Block} {i : Nat} (h : FirstAt b.bits b.bitLen.toNat Config.v2Preamble i) :
    cmdV2d b = finishWith ((b.clearDec.setV2 i).emit (v2Bytes b.bits b.bitLen.toNat i) 0b01) :=
  congrArg finishWith (v2Run_found (b := b.clearDec) h)

/-- Settles O47: both runs put out the same bytes into a cleared OUT. -/
theorem v2IgnoresEvenBits : Obligations.V2IgnoresEvenBits := by
  intro s s' i hn hi hi' hbits
  have hbytes : v2Bytes s'.block.bits s'.block.bitLen.toNat i = v2Bytes s.block.bits s.block.bitLen.toNat i := by
    rw [hn]
    exact v2Bytes_congr hbits
  have hcmd := cmdV2d_found (b := s.block.setCmd 0x03) hi
  have hcmd' := cmdV2d_found (b := s'.block.setCmd 0x03) hi'
  rw [Block.setCmd_bits, Block.setCmd_bitLen] at hcmd hcmd'
  rw [hbytes] at hcmd'
  obtain ⟨hcode, hout, hlen⟩ := emit_output_congr (b := (s.block.setCmd 0x03).clearDec.setV2 i)
    (b' := (s'.block.setCmd 0x03).clearDec.setV2 i) rfl rfl (v2Bytes s.block.bits s.block.bitLen.toNat i) 0b01
  refine ⟨_, _, exec_v2d s, exec_v2d s', ?_⟩
  rw [hcmd, hcmd']
  exact ⟨hlen, congrArg ErrCode.code hcode, fun k => congrArg (Memory.read · k) hout⟩

/-! ## The paths of PRE (R192, R196) -/

section Paths

variable {b : Block}

theorem V2Outcome.path_of_decoded (h : V2Outcome b .none) :
    b.status.path = 0b01 ∧ ¬ Absent b.bits b.bitLen.toNat Config.v2Preamble := by
  cases h with
  | decoded i hfirst _ _ _ hout => exact ⟨hout.1, fun habsent => absent_not_firstAt habsent hfirst⟩

theorem V3Outcome.path_of_decoded (h : V3Outcome b .none) :
    b.status.path = 0b10 ∧ ¬ Absent b.bits b.bitLen.toNat Config.v3Preamble := by
  cases h with
  | decoded p d hfirst _ _ _ _ hout => exact ⟨hout.1, fun habsent => absent_not_firstAt habsent hfirst⟩

/-- Where the first V2 preamble starts 1 to 31 whole chunks, the V2 attempt succeeds. -/
theorem V2Outcome.code_of_chunks {c : ErrCode} (h : V2Outcome b c) {i : Nat}
    (hi : FirstAt b.bits b.bitLen.toNat Config.v2Preamble i) (h1 : 1 ≤ v2Count b i) (h31 : v2Count b i ≤ 31) :
    c = .none := by
  unfold v2Count at h1 h31
  cases h with
  | absent habsent _ => exact absurd hi (absent_not_firstAt habsent)
  | empty i' hi' _ _ =>
    cases firstAt_unique hi hi'
    omega
  | tooLong i' hi' _ _ =>
    cases firstAt_unique hi hi'
    omega
  | decoded _ _ _ _ _ _ => rfl

/-- The laws of R196 about the path, as a state after PRE shows them. -/
def PathLaws (b : Block) : Prop :=
  (b.status.path ≠ 0 → b.errCode = 0) ∧
  (Absent b.bits b.bitLen.toNat Config.v3Preamble → b.status.path ≠ 0b10) ∧
  (Absent b.bits b.bitLen.toNat Config.v2Preamble → b.status.path ≠ 0b01) ∧
  ∀ i, FirstAt b.bits b.bitLen.toNat Config.v2Preamble i → 1 ≤ v2Count b i → v2Count b i ≤ 31 → b.status.path = 0b01

theorem pathLaws_of_v2 (h : V2Outcome b .none) (hend : EndedWith b .none) : PathLaws b := by
  obtain ⟨hpath, hfound⟩ := h.path_of_decoded
  refine ⟨fun _ => hend.1, fun _ => ?_, fun habsent => absurd habsent hfound, fun _ _ _ _ => hpath⟩
  rw [hpath]
  decide

theorem pathLaws_of_v3 {c : ErrCode} (h2 : V2Outcome b c) (hc : c ≠ .none) (h : V3Outcome b .none)
    (hend : EndedWith b .none) : PathLaws b := by
  obtain ⟨hpath, hfound⟩ := h.path_of_decoded
  refine ⟨fun _ => hend.1, fun habsent => absurd habsent hfound, fun _ => ?_,
    fun i hi h1 h31 => absurd (h2.code_of_chunks hi h1 h31) hc⟩
  rw [hpath]
  decide

theorem pathLaws_of_noOutput (hout : NoOutput b)
    (h : ∀ i, FirstAt b.bits b.bitLen.toNat Config.v2Preamble i → ¬ (1 ≤ v2Count b i ∧ v2Count b i ≤ 31)) :
    PathLaws b := by
  obtain ⟨-, -, hpath⟩ := hout
  refine ⟨fun hne => absurd hpath hne, fun _ => ?_, fun _ => ?_, fun i hi h1 h31 => absurd ⟨h1, h31⟩ (h i hi)⟩
  · rw [hpath]
    decide
  · rw [hpath]
    decide

theorem pathLaws_of_failed {c : ErrCode} (h2 : V2Outcome b c) (hc : c ≠ .none) (hout : NoOutput b) : PathLaws b :=
  pathLaws_of_noOutput hout fun _ hi ⟨h1, h31⟩ => hc (h2.code_of_chunks hi h1 h31)

/-- A code of a V2 attempt without a result is not `NONE`. -/
theorem ne_none_of_no_result {c : ErrCode} (h : c = .unrecognizedProtocol ∨ c = .emptyDecode) : c ≠ .none := by
  obtain rfl | rfl := h <;> nofun

theorem PreOutcome.pathLaws (h : PreOutcome b) : PathLaws b := by
  cases h with
  | v2 h2 _ hend => exact pathLaws_of_v2 h2 hend
  | v2TooLong h2 _ hout _ => exact pathLaws_of_failed h2 nofun hout
  | v3 c2 h2 hc2 h3 hend => exact pathLaws_of_v3 h2 (ne_none_of_no_result hc2) h3 hend
  | v3TooLong c2 h2 hc2 _ hout _ => exact pathLaws_of_failed h2 (ne_none_of_no_result hc2) hout
  | bothEmpty c2 _ h2 _ hc2 _ _ hout _ => exact pathLaws_of_failed h2 (ne_none_of_no_result hc2) hout
  | neither h2 _ hout _ => exact pathLaws_of_failed h2 nofun hout

theorem cmdPre_pathLaws (b : Block) : PathLaws (cmdPre b) := by
  obtain ⟨e, -, ⟨-, hlen⟩, hout, -⟩ | hout := cmdPre_outcome b
  · refine pathLaws_of_noOutput hout fun i hi ⟨h1, _⟩ => ?_
    unfold v2Count at h1
    rw [hlen] at h1
    exact absurd h1 (by simp)
  · exact hout.pathLaws

end Paths

/-- Settles O49: PRE ends on a V2 result, on a V3 result after a V2 attempt without one, or with no output. -/
theorem prePathsAreExclusive : Obligations.PrePathsAreExclusive := fun s =>
  ⟨_, exec_pre s, cmdPre_pathLaws (s.block.setCmd 0x01)⟩

/-! ## What a decode attempt depends on -/

/-- OUT, OUT_LEN and PATH are unchanged. -/
def SameOut (b c : Block) : Prop := c.out = b.out ∧ c.outLen = b.outLen ∧ c.status.path = b.status.path

/-- The V2 fields of group DEC are unchanged. -/
def SameV2 (b c : Block) : Prop := c.status.v2pre = b.status.v2pre ∧ c.v2Idx = b.v2Idx

/-- The V3 fields of group DEC are unchanged. -/
def SameV3 (b c : Block) : Prop :=
  c.status.v3pre = b.status.v3pre ∧ c.v3PreIdx = b.v3PreIdx ∧ c.v3DatIdx = b.v3DatIdx

theorem OutCleared.sameOut {b c : Block} (hb : OutCleared b) (hc : OutCleared c) : SameOut b c := by
  obtain ⟨hout, hlen, hpath⟩ := hb
  obtain ⟨hout', hlen', hpath'⟩ := hc
  exact ⟨hout'.trans hout.symm, hlen'.trans hlen.symm, hpath'.trans hpath.symm⟩

theorem NoV2.sameV2 {b c : Block} (hb : NoV2 b) (hc : NoV2 c) : SameV2 b c :=
  ⟨hc.1.trans hb.1.symm, hc.2.trans hb.2.symm⟩

theorem NoV3.sameV3 {b c : Block} (hb : NoV3 b) (hc : NoV3 c) : SameV3 b c := by
  obtain ⟨hpre, hp, hd⟩ := hb
  obtain ⟨hpre', hp', hd'⟩ := hc
  exact ⟨hpre'.trans hpre.symm, hp'.trans hp.symm, hd'.trans hd.symm⟩

theorem SameOut.sameDec {b c : Block} (hout : SameOut b c) (h2 : SameV2 b c) (h3 : SameV3 b c) : SameDec b c := by
  obtain ⟨hout, hlen, hpath⟩ := hout
  obtain ⟨hv2, hv2i⟩ := h2
  obtain ⟨hv3, hv3p, hv3d⟩ := h3
  exact ⟨hout, hlen, hv2, hv3, hpath, hv2i, hv3p, hv3d⟩

/-- What two blocks with one output put out is one output, and their preamble fields are not touched. -/
theorem emit_congr {b c : Block} (h : SameOut b c) (bytes : List Byte) (path : BitVec 2) :
    (c.emit bytes path).1 = (b.emit bytes path).1 ∧ SameOut (b.emit bytes path).2 (c.emit bytes path).2 ∧
      (SameV2 b c → SameV2 (b.emit bytes path).2 (c.emit bytes path).2) ∧
      (SameV3 b c → SameV3 (b.emit bytes path).2 (c.emit bytes path).2) := by
  rcases Nat.eq_zero_or_pos bytes.length with hempty | hpos
  · rw [emit_empty hempty, emit_empty hempty]
    exact ⟨rfl, h, id, id⟩
  · rcases Nat.lt_or_ge 31 bytes.length with hlong | hfits
    · rw [emit_long hlong, emit_long hlong]
      exact ⟨rfl, h, id, id⟩
    · rw [emit_fits hpos hfits, emit_fits hpos hfits]
      refine ⟨rfl, ⟨?_, rfl, rfl⟩, id, id⟩
      rw [Block.setOut_out, Block.setOut_out, h.1]

theorem v2Run_congr {b c : Block} (hhex : SameHex b c) (hout : SameOut b c) (h2 : SameV2 b c) :
    c.v2Run.1 = b.v2Run.1 ∧ SameOut b.v2Run.2 c.v2Run.2 ∧ SameV2 b.v2Run.2 c.v2Run.2 := by
  obtain ⟨hbits, hlen⟩ := hhex
  unfold Block.v2Run
  rw [hbits, hlen]
  cases first b.bits b.bitLen.toNat Config.v2Preamble with
  | none => exact ⟨rfl, hout, h2⟩
  | some i =>
    obtain ⟨hcode, hout', hv2, -⟩ := emit_congr (b := b.setV2 i) (c := c.setV2 i) hout
      (v2Bytes b.bits b.bitLen.toNat i) 0b01
    exact ⟨hcode, hout', hv2 ⟨rfl, rfl⟩⟩

theorem v3Run_congr {b c : Block} (hhex : SameHex b c) (hout : SameOut b c) (h3 : SameV3 b c) :
    SameOut b.v3Run.2 c.v3Run.2 ∧ SameV3 b.v3Run.2 c.v3Run.2 := by
  obtain ⟨hbits, hlen⟩ := hhex
  unfold Block.v3Run
  rw [hbits, hlen]
  cases first b.bits b.bitLen.toNat Config.v3Preamble with
  | none => exact ⟨hout, h3⟩
  | some p =>
    cases first b.bits b.bitLen.toNat Config.v3Marker with
    | none => exact ⟨hout, h3⟩
    | some d =>
      obtain ⟨-, hout', -, hv3⟩ := emit_congr (b := b.setV3 p d) (c := c.setV3 p d) hout
        (v3Bytes b.bits b.bitLen.toNat d) 0b10
      exact ⟨hout', hv3 ⟨rfl, rfl, rfl⟩⟩

theorem V3Frame.sameV2 {b e : Block} (h : V3Frame b e) : SameV2 b e := by
  rw [h]
  exact ⟨rfl, rfl⟩

/-! ## PRE is H2B, V2D and V3D (R196) -/

/-- What PRE leaves of group DEC, beside the states V2D and V3D leave, with V2D's code deciding which counts. -/
def StagesAgree (t v w : Block) : Prop :=
  (v.errCode = 0x00 ∨ v.errCode = 0x10 → SameDec v t) ∧
  (v.errCode = 0x03 ∨ v.errCode = 0x04 → SameOut w t ∧ SameV3 w t ∧ SameV2 v t)

theorem v2Run_frame {b : Block} (ho : OutCleared b) (h2 : NoV2 b) :
    V2Frame b b.v2Run.2 ∧ (b.v2Run.1 ≠ .none → OutCleared b.v2Run.2) := by
  obtain ⟨c, e, hrun, -, hclear, hframe⟩ := v2Run_spec b ho h2
  rw [hrun]
  exact ⟨hframe, hclear⟩

theorem v3Run_frame {b : Block} (ho : OutCleared b) (h3 : NoV3 b) : V3Frame b b.v3Run.2 := by
  obtain ⟨c, e, hrun, -, -, hframe⟩ := v3Run_spec b ho h3
  rw [hrun]
  exact hframe

section Stages

variable {x y2 y3 : Block} (ho : OutCleared x) (h2 : NoV2 x) (h3 : NoV3 x)
include ho h2 h3

/-- Two V2 attempts on the same bits, from cleared groups DEC, leave the same group DEC. -/
theorem v2Run_sameDec (hhex : SameHex y2 x) (ho2 : OutCleared y2) (h22 : NoV2 y2) (h32 : NoV3 y2) :
    SameDec y2.v2Run.2 x.v2Run.2 := by
  obtain ⟨-, hout, hv2⟩ := v2Run_congr hhex (ho2.sameOut ho) (h22.sameV2 h2)
  obtain ⟨-, -, -, -, -, hkeep⟩ := (v2Run_frame ho h2).1.same
  obtain ⟨-, -, -, -, -, hkeep2⟩ := (v2Run_frame ho2 h22).1.same
  exact hout.sameDec hv2 ((hkeep2 h32).sameV3 (hkeep h3))

/-- The V3 attempt after a V2 attempt without output leaves the output and V3 fields of one from a cleared group DEC,
and the V2 fields as the V2 attempt left them. -/
theorem v3Run_after_v2Run (hhex : SameHex y3 x) (ho3 : OutCleared y3) (h33 : NoV3 y3) (hc : x.v2Run.1 ≠ .none) :
    SameOut y3.v3Run.2 x.v2Run.2.v3Run.2 ∧ SameV3 y3.v3Run.2 x.v2Run.2.v3Run.2 ∧
      SameV2 x.v2Run.2 x.v2Run.2.v3Run.2 := by
  obtain ⟨hframe, hclear⟩ := v2Run_frame ho h2
  obtain ⟨-, -, ⟨hbits, hlen⟩, -, -, hkeep⟩ := hframe.same
  have hhex' : SameHex y3 x.v2Run.2 := ⟨hbits.trans hhex.1, hlen.trans hhex.2⟩
  obtain ⟨hout, hv3⟩ := v3Run_congr hhex' (ho3.sameOut (hclear hc)) (h33.sameV3 (hkeep h3))
  exact ⟨hout, hv3, (v3Run_frame (hclear hc) (hkeep h3)).sameV2⟩

end Stages

theorem code_eq_of_stage {e : ErrCode} :
    (e.code = 0x00 ∨ e.code = 0x10 ↔ e = .none ∨ e = .payloadTooLong) ∧
      (e.code = 0x03 ∨ e.code = 0x04 → e ≠ .none ∧ e ≠ .payloadTooLong) := by
  cases e <;> decide

/-- The arbitration of a cleared group DEC beside the two decodes of the same bits. -/
theorem arbitrate_stagesAgree {x u : Block} (hhex : SameHex u x) (ho : OutCleared x) (h2 : NoV2 x) (h3 : NoV3 x)
    (v w : Byte) : StagesAgree x.arbitrate (cmdV2d (u.setCmd v)) (cmdV3d (u.setCmd w)) := by
  have hv : cmdV2d (u.setCmd v) = (u.setCmd v).clearDec.v2Run.2.finish (u.setCmd v).clearDec.v2Run.1 := rfl
  have hw : cmdV3d (u.setCmd w) = (u.setCmd w).clearDec.v3Run.2.finish (u.setCmd w).clearDec.v3Run.1 := rfl
  have hov := clearDec_outCleared (u.setCmd v)
  have h2v := clearDec_noV2 (u.setCmd v)
  have hcode : x.v2Run.1 = (u.setCmd v).clearDec.v2Run.1 :=
    (v2Run_congr (b := (u.setCmd v).clearDec) hhex (hov.sameOut ho) (h2v.sameV2 h2)).1
  have hdec := v2Run_sameDec ho h2 h3 (y2 := (u.setCmd v).clearDec) hhex hov h2v (clearDec_noV3 _)
  rw [hv, hw]
  unfold StagesAgree
  rw [Block.finish_errCode, ← hcode, code_eq_of_stage.1]
  obtain ⟨hc, harb⟩ | ⟨hnone, hlong, e, harb⟩ := arbitrate_cases x
  · refine ⟨fun _ => harb ▸ hdec, fun hfail => ?_⟩
    obtain ⟨hnone, hlong⟩ := code_eq_of_stage.2 hfail
    exact absurd hc (not_or.2 ⟨hnone, hlong⟩)
  · refine ⟨fun hc => absurd hc (not_or.2 ⟨hnone, hlong⟩), fun _ => ?_⟩
    obtain ⟨hout, hv3, hv2⟩ := v3Run_after_v2Run ho h2 h3 (y3 := (u.setCmd w).clearDec) hhex
      (clearDec_outCleared _) (clearDec_noV3 _) hnone
    obtain ⟨-, -, hv2pre, -, -, hv2idx, -⟩ := hdec
    rw [harb]
    exact ⟨hout, hv3, hv2.1.trans hv2pre, hv2.2.trans hv2idx⟩

/-- Without bits neither decoder finds its preamble. -/
theorem v2Run_noBits {b : Block} (hbits : b.bits = []) (hlen : b.bitLen = 0) :
    b.v2Run = (.unrecognizedProtocol, b) := by
  unfold Block.v2Run
  rw [hbits, hlen]
  rfl

theorem v3Run_noBits {b : Block} (hbits : b.bits = []) (hlen : b.bitLen = 0) :
    b.v3Run = (.unrecognizedProtocol, b) := by
  unfold Block.v3Run
  rw [hbits, hlen]
  rfl

/-- Where PRE refuses the characters, the decodes of the cleared BITS leave the cleared group DEC that PRE leaves. -/
theorem invalidHex_stagesAgree (b : Block) {u : Block} (hbits : u.bits = []) (hlen : u.bitLen = 0) (v w : Byte) :
    StagesAgree (b.clearHex.clearDec.finish .invalidHex) (cmdV2d (u.setCmd v)) (cmdV3d (u.setCmd w)) := by
  have hv : cmdV2d (u.setCmd v) = (u.setCmd v).clearDec.finish .unrecognizedProtocol :=
    congrArg finishWith (v2Run_noBits (b := (u.setCmd v).clearDec) hbits hlen)
  have hw : cmdV3d (u.setCmd w) = (u.setCmd w).clearDec.finish .unrecognizedProtocol :=
    congrArg finishWith (v3Run_noBits (b := (u.setCmd w).clearDec) hbits hlen)
  rw [hv, hw]
  refine ⟨fun h => ?_, fun _ => ⟨⟨rfl, rfl, rfl⟩, ⟨rfl, rfl, rfl⟩, rfl, rfl⟩⟩
  revert h
  simp [ErrCode.code]

section Shifted

variable {b b' : Block} {n : Nat} (hmsg : ∀ i, i < n → b'.msg.read i = b.msg.read (i + 2))
include hmsg

theorem allHex_shift : AllHex b' 0 n ↔ AllHex b 2 n := by
  refine forall_congr' fun i => forall_congr' fun hi => ?_
  rw [Nat.zero_add, hmsg i hi, Nat.add_comm]

theorem expandBits_shift : expandBits b'.msg 0 n = expandBits b.msg 2 n := by
  refine List.flatMap_congr fun i hi => ?_
  rw [Nat.zero_add, hmsg i (List.mem_range.1 hi), Nat.add_comm]

/-- PRE of a framed message beside H2B of its characters after the marker and the decodes that follow. -/
theorem cmdPre_stages (hcap : b.msgLen.toNat ≤ 256) (hframed : b.framed = true) (hn : n = b.msgLen.toNat - 2)
    (hlen : b'.msgLen.toNat = n) (v w : Byte) :
    SameHex (cmdH2b b') (cmdPre b) ∧
      StagesAgree (cmdPre b) (cmdV2d ((cmdH2b b').setCmd v)) (cmdV3d ((cmdH2b b').setCmd w)) := by
  by_cases hall : AllHex b 2 n
  · have hu := cmdH2b_digits (b := b') (by omega) (hlen ▸ (allHex_shift hmsg).2 hall)
    have ht := cmdPre_digits hcap hframed (hn ▸ hall)
    rw [hlen, expandBits_shift hmsg] at hu
    rw [← hn] at ht
    obtain ⟨-, -, hhex, -⟩ := (arbitrate_setHex_spec b (expandBits b.msg 2 n) n).2.same
    rw [hu, ht]
    refine ⟨hhex, arbitrate_stagesAgree (x := b.clearHex.clearDec.setHex _ n) ?_
      (clearDec_outCleared b.clearHex) (clearDec_noV2 b.clearHex) (clearDec_noV3 b.clearHex) v w⟩
    exact ⟨rfl, rfl⟩
  · have hu := cmdH2b_invalid (b := b') (by omega) (hlen ▸ mt (allHex_shift hmsg).1 hall)
    rw [hu, cmdPre_invalidHex hcap hframed (hn ▸ hall)]
    exact ⟨⟨rfl, rfl⟩, invalidHex_stagesAgree b rfl rfl v w⟩

end Shifted

/-- Settles O50: the characters are converted or refused alike, and the arbitration makes the two decodes. -/
theorem preIsTheThreeStages : Obligations.PreIsTheThreeStages := by
  intro s s' hmin hcap h0 h1 hlen hmsg
  obtain ⟨hhex, hdec, hfall⟩ := cmdPre_stages (b := s.block.setCmd 0x01) (b' := s'.block.setCmd 0x02)
    (n := s'.block.msgLen.toNat) hmsg hcap ((framed_iff _).2 ⟨hmin, h0, h1⟩) hlen rfl 0x03 0x04
  refine ⟨_, _, _, _, exec_pre s, exec_h2b s', exec_v2d _, exec_v3d _, hhex, hdec, fun hfail => ?_⟩
  obtain ⟨⟨hout, houtLen, hpath⟩, ⟨hv3, hv3p, hv3d⟩, hv2, hv2i⟩ := hfall hfail
  exact ⟨hout, houtLen, hpath, hv3, hv3p, hv3d, hv2, hv2i⟩

end Sys2Proof.Machine
end

section
/-! PROOFS. Laws of the checksum commands (45_checksum.md R223): what they read, and what a flipped bit does. -/

namespace Sys2Proof.Machine

/-! ## A checksum reads its bytes only (R223 (a), (e)) -/

theorem nibbleSum_congr {m m' : Memory} {h : Nat} (heq : ∀ i, 2 * i < h → payload m' i = payload m i) :
    nibbleSum m' h = nibbleSum m h := by
  have hbytes : (List.range (h / 2)).map (fun i => hi (payload m' i) + lo (payload m' i)) =
      (List.range (h / 2)).map (fun i => hi (payload m i) + lo (payload m i)) :=
    List.map_congr_left fun i hi => by
      have hi := List.mem_range.1 hi
      rw [heq i (by omega)]
  unfold nibbleSum
  rw [hbytes]
  split
  · rw [heq (h / 2) (by omega)]
  · rfl

theorem csRun_congr {b b' : Block} {h need : Nat} {ref : Memory → Byte} (hlen : b'.payLen = b.payLen)
    (hsum : nibbleSum b'.pay h = nibbleSum b.pay h) (href : ref b'.pay = ref b.pay) :
    SameCs (b.csRun h need ref) (b'.csRun h need ref) ∧ SameStat (b.csRun h need ref) (b'.csRun h need ref) := by
  unfold Block.csRun Block.csCompare csValue
  rw [hlen, hsum, href]
  split
  · exact ⟨⟨rfl, rfl, rfl⟩, rfl, rfl, rfl⟩
  · split
    · exact ⟨⟨rfl, rfl, rfl⟩, rfl, rfl, rfl⟩
    · exact ⟨⟨rfl, rfl, rfl⟩, rfl, rfl, rfl⟩

/-- A reference that is one payload byte, the one after those summed. -/
theorem csRun_byte_congr {b b' : Block} {n need : Nat} (hlen : b'.payLen = b.payLen)
    (hpay : ∀ i, 1 ≤ i → i ≤ n + 1 → b'.pay.read i = b.pay.read i) :
    SameCs (b.csRun (2 * n) need (payload · n)) (b'.csRun (2 * n) need (payload · n)) ∧
      SameStat (b.csRun (2 * n) need (payload · n)) (b'.csRun (2 * n) need (payload · n)) :=
  csRun_congr hlen (nibbleSum_congr fun i _ => hpay (i + 1) (by omega) (by omega))
    (hpay (n + 1) (by omega) (Nat.le_refl _))

theorem ck1Ref_congr {m m' : Memory} (h7 : m'.read 7 = m.read 7) (h8 : m'.read 8 = m.read 8) :
    ck1Ref m' = ck1Ref m := by
  unfold ck1Ref payload
  rw [h7, h8]

/-- Settles O52: the sum and the reference are made of the needed bytes, none of them `PAY[0]`. -/
theorem checksumReadsItsBytesOnly : Obligations.ChecksumReadsItsBytesOnly := by
  intro c need s s' hc hlen hpay
  refine ⟨_, _, exec_command c s, exec_command c s', ?_⟩
  simp only [List.mem_cons, Prod.mk.injEq, List.not_mem_nil, or_false] at hc
  obtain ⟨rfl, rfl⟩ | ⟨rfl, rfl⟩ | ⟨rfl, rfl⟩ | ⟨rfl, rfl⟩ := hc
  · exact csRun_congr (b := s.block.setCmd 0x11) (b' := s'.block.setCmd 0x11) hlen
      (nibbleSum_congr fun i hi => hpay (i + 1) (by omega) (by omega))
      (ck1Ref_congr (hpay 7 (by decide) (by decide)) (hpay 8 (by decide) (by decide)))
  · exact csRun_byte_congr (b := s.block.setCmd 0x12) (b' := s'.block.setCmd 0x12) (n := 8) hlen hpay
  · exact csRun_byte_congr (b := s.block.setCmd 0x14) (b' := s'.block.setCmd 0x14) (n := 9) hlen hpay
  · exact csRun_byte_congr (b := s.block.setCmd 0x15) (b' := s'.block.setCmd 0x15) (n := 10) hlen hpay

/-! ## A flipped bit and the two nibbles of its byte -/

section Flip

variable (x : Byte) {k : Nat}

theorem toNat_flip (hk : k < 8) : (x ^^^ (1#8 <<< k)).toNat = x.toNat ^^^ 2 ^ k := by
  have hpow : 2 ^ k < 2 ^ 8 := Nat.pow_lt_pow_right (by decide) hk
  rw [BitVec.toNat_xor, BitVec.toNat_shiftLeft, Nat.shiftLeft_eq, BitVec.toNat_ofNat,
    show 1 % 2 ^ 8 * 2 ^ k = 2 ^ k from Nat.one_mul _, Nat.mod_eq_of_lt hpow]

theorem hi_flip (hk : k < 8) : hi (x ^^^ (1#8 <<< k)) = hi x ^^^ (2 ^ k / 2 ^ 4) := by
  unfold hi
  rw [toNat_flip x hk]
  exact Nat.xor_div_two_pow (n := 4)

theorem lo_flip (hk : k < 8) : lo (x ^^^ (1#8 <<< k)) = lo x ^^^ (2 ^ k % 2 ^ 4) := by
  unfold lo
  rw [toNat_flip x hk]
  exact Nat.xor_mod_two_pow (n := 4)

theorem xor_ne_self {a b : Nat} (h : b ≠ 0) : a ^^^ b ≠ a := fun heq =>
  h (Nat.xor_right_injective (x := a) (heq.trans (Nat.xor_zero a).symm))

/-- A bit of the low nibble is none of the high. -/
theorem flip_low (hk : k < 4) : hi (x ^^^ (1#8 <<< k)) = hi x ∧ lo (x ^^^ (1#8 <<< k)) ≠ lo x := by
  have hpow : 2 ^ k < 2 ^ 4 := Nat.pow_lt_pow_right (by decide) hk
  have hpos : 2 ^ k ≠ 0 := by positivity
  rw [hi_flip x (by omega), lo_flip x (by omega), Nat.div_eq_of_lt hpow, Nat.mod_eq_of_lt hpow]
  exact ⟨Nat.xor_zero _, xor_ne_self hpos⟩

/-- A bit of the high nibble is none of the low. -/
theorem flip_high (h4 : 4 ≤ k) (hk : k < 8) :
    hi (x ^^^ (1#8 <<< k)) ≠ hi x ∧ lo (x ^^^ (1#8 <<< k)) = lo x := by
  have hpow : 2 ^ k = 2 ^ 4 * 2 ^ (k - 4) := by rw [← pow_add, Nat.add_sub_cancel' h4]
  have hpos : 2 ^ (k - 4) ≠ 0 := by positivity
  rw [hi_flip x hk, lo_flip x hk, hpow, Nat.mul_div_cancel_left _ (by decide), Nat.mul_mod_right]
  exact ⟨xor_ne_self hpos, Nat.xor_zero _⟩

theorem nibbles_flip (hk : k < 8) :
    hi (x ^^^ (1#8 <<< k)) + lo (x ^^^ (1#8 <<< k)) ≠ hi x + lo x := by
  rcases Nat.lt_or_ge k 4 with hlow | hhigh
  · obtain ⟨hhi, hlo⟩ := flip_low x hlow
    omega
  · obtain ⟨hhi, hlo⟩ := flip_high x hhigh hk
    omega

end Flip

/-! ## CK2, CK4 and CK5 (R223 (b), (c)) -/

theorem nibbleTotal_congr {b b' : Block} {n : Nat} (h : ∀ i, i < n → b'.pay.read (i + 1) = b.pay.read (i + 1)) :
    nibbleTotal b' n = nibbleTotal b n :=
  Finset.sum_congr rfl fun i hi => by rw [h i (Finset.mem_range.1 hi)]

/-- The sums of two payloads that differ in one byte differ by that byte's nibbles. -/
theorem nibbleTotal_split {b b' : Block} {n i : Nat} (hi' : i < n)
    (h : ∀ j, j ≠ i + 1 → b'.pay.read j = b.pay.read j) :
    ∃ r, nibbleTotal b n = hi (b.pay.read (i + 1)) + lo (b.pay.read (i + 1)) + r ∧
      nibbleTotal b' n = hi (b'.pay.read (i + 1)) + lo (b'.pay.read (i + 1)) + r := by
  have hmem : i ∈ Finset.range n := Finset.mem_range.2 hi'
  refine ⟨_, (Finset.add_sum_erase _ _ hmem).symm, (Finset.add_sum_erase _ _ hmem).symm.trans ?_⟩
  congr 1
  refine Finset.sum_congr rfl fun j hj => ?_
  rw [h (j + 1) fun heq => (Finset.mem_erase.1 hj).1 (Nat.succ.inj heq)]

/-- CSOK says whether the two values agree (R218). -/
theorem Compared.csok_iff {b : Block} {ns r : Nat} (h : Compared b ns r) :
    b.status.csok = true ↔ (ns + 246) % 256 = r := by
  obtain ⟨-, -, hpass, hfail⟩ := h
  refine ⟨fun hok => ?_, fun heq => (hpass heq).1⟩
  by_contra hne
  rw [(hfail hne).1] at hok
  cases hok

theorem csRun_pass_long {b : Block} {h need : Nat} {ref : Memory → Byte}
    (hpass : (b.csRun h need ref).status.csok = true) : need + 1 ≤ b.payLen.toNat := by
  by_contra hshort
  rw [csRun_short (by omega)] at hpass
  cases hpass

/-- A flip in a summed byte changes the sum and not the reference, so a pass becomes a mismatch. -/
theorem csRun_flip {b b' : Block} {n need i k : Nat} (hi' : i < n) (hk : k < 8)
    (hpass : (b.csRun (2 * n) need (payload · n)).status.csok = true) (hlen : b'.payLen = b.payLen)
    (hflip : b'.pay.read (i + 1) = b.pay.read (i + 1) ^^^ (1#8 <<< k))
    (hrest : ∀ j, j ≠ i + 1 → b'.pay.read j = b.pay.read j) :
    let c := b.csRun (2 * n) need (payload · n)
    let c' := b'.csRun (2 * n) need (payload · n)
    c'.csCalc ≠ c.csCalc ∧ c'.csRef = c.csRef ∧ c'.status.csok = false ∧ c'.errCode = 0x07 := by
  have hlong := csRun_pass_long hpass
  obtain ⟨hcmp, -⟩ := csRun_compares (h := 2 * n) (ref := (payload · n)) hlong
  obtain ⟨hcmp', -⟩ := csRun_compares (b := b') (h := 2 * n) (ref := (payload · n)) (by rwa [hlen])
  have href : payload b'.pay n = payload b.pay n := hrest (n + 1) (by omega)
  have heq := hcmp.csok_iff.1 hpass
  obtain ⟨r, hsum, hsum'⟩ := nibbleTotal_split hi' hrest
  have hnib := nibbles_flip (b.pay.read (i + 1)) hk
  rw [← hflip] at hnib
  have hbound := hi_lt (b.pay.read (i + 1))
  have hbound' := hi_lt (b'.pay.read (i + 1))
  have hboundLo := lo_lt (b.pay.read (i + 1))
  have hboundLo' := lo_lt (b'.pay.read (i + 1))
  rw [nibbleSum_even, hsum] at hcmp heq
  rw [nibbleSum_even, hsum', href] at hcmp'
  have hne : (hi (b'.pay.read (i + 1)) + lo (b'.pay.read (i + 1)) + r + 246) % 256 ≠ (payload b.pay n).toNat := by
    omega
  obtain ⟨hcalc, hcref, -, -⟩ := hcmp
  obtain ⟨hcalc', hcref', -, hfail⟩ := hcmp'
  obtain ⟨hcsok, hcode, -⟩ := hfail hne
  refine ⟨fun hsame => hne ?_, BitVec.eq_of_toNat_eq (hcref'.trans hcref.symm), hcsok, hcode⟩
  rw [← hcalc', hsame, hcalc, heq]

/-- Settles O53: for each of the three variants the reference is the byte after those summed. -/
theorem singleBitFlipFailsChecksum : Obligations.SingleBitFlipFailsChecksum := by
  intro c summed s s' t i k hc hi' hk hexec hpass hlen hflip hrest
  refine ⟨_, exec_command c s', ?_⟩
  cases (exec_command c s).symm.trans hexec
  simp only [List.mem_cons, Prod.mk.injEq, List.not_mem_nil, or_false] at hc
  obtain ⟨rfl, rfl⟩ | ⟨rfl, rfl⟩ | ⟨rfl, rfl⟩ := hc
  · exact csRun_flip (b := s.block.setCmd 0x12) (b' := s'.block.setCmd 0x12) (n := 8) (need := 9) hi' hk hpass hlen
      hflip hrest
  · exact csRun_flip (b := s.block.setCmd 0x14) (b' := s'.block.setCmd 0x14) (n := 9) (need := 10) hi' hk hpass hlen
      hflip hrest
  · exact csRun_flip (b := s.block.setCmd 0x15) (b' := s'.block.setCmd 0x15) (n := 10) (need := 11) hi' hk hpass hlen
      hflip hrest

/-! ## CK1 (R223 (d)) -/

/-- What CK1 leaves, in the nibbles of the two bytes its sum and its reference share. -/
theorem ck1_compared (s : State) (h : 9 ≤ s.block.payLen.toNat) :
    ∃ t, exec .ck1 s = .next t ∧ Compared t.block (nibbleTotal s.block 6 + hi (s.block.pay.read 7))
      (hi (s.block.pay.read 7) + 16 * lo (s.block.pay.read 8)) := by
  obtain ⟨t, hexec, -, -, -, -, -, -, -, hlong⟩ := ck1ValidatesPayload s
  exact ⟨t, hexec, hlong h⟩

section SharedByte

variable {c c' : Block} {n x x' y y' : Nat} (hc : Compared c (n + x) (x + 16 * y))
  (hc' : Compared c' (n + x') (x' + 16 * y'))
include hc hc'

/-- A changed high nibble of `payload[6]` moves the sum and the reference by one amount. -/
theorem ck1_high_shared (hne : x' ≠ x) (hsame : y' = y) :
    c'.csCalc - c.csCalc = c'.csRef - c.csRef ∧ c'.csCalc ≠ c.csCalc ∧ c'.status.csok = c.status.csok := by
  have hok := hc.csok_iff
  have hok' := hc'.csok_iff
  obtain ⟨hcalc, href, -, -⟩ := hc
  obtain ⟨hcalc', href', -, -⟩ := hc'
  subst hsame
  refine ⟨BitVec.eq_of_toNat_eq ?_, fun heq => ?_, ?_⟩
  · rw [BitVec.toNat_sub, BitVec.toNat_sub, hcalc, hcalc', href, href']
    omega
  · rw [heq, hcalc] at hcalc'
    omega
  · rw [Bool.eq_iff_iff, hok, hok']
    omega

/-- What neither the sum nor the reference reads changes neither. -/
theorem ck1_low_unread (hsamex : x' = x) (hsamey : y' = y) : c'.csCalc = c.csCalc ∧ c'.csRef = c.csRef := by
  obtain ⟨hcalc, href, -, -⟩ := hc
  obtain ⟨hcalc', href', -, -⟩ := hc'
  subst hsamex hsamey
  exact ⟨BitVec.eq_of_toNat_eq (hcalc'.trans hcalc.symm), BitVec.eq_of_toNat_eq (href'.trans href.symm)⟩

/-- The low nibble of `payload[7]` is in the reference only. -/
theorem ck1_low_reference (hsamex : x' = x) (hne : y' ≠ y) : c'.csCalc = c.csCalc ∧ c'.csRef ≠ c.csRef := by
  obtain ⟨hcalc, href, -, -⟩ := hc
  obtain ⟨hcalc', href', -, -⟩ := hc'
  subst hsamex
  refine ⟨BitVec.eq_of_toNat_eq (hcalc'.trans hcalc.symm), fun heq => ?_⟩
  rw [heq, href] at href'
  omega

end SharedByte

/-- Settles O54: which nibble of which shared byte the flip hits decides what moves. -/
theorem ck1NibbleFlips : Obligations.Ck1NibbleFlips := by
  intro s s' i k hlong hlen hk hflip hrest
  obtain ⟨t, hexec, hc⟩ := ck1_compared s hlong
  obtain ⟨t', hexec', hc'⟩ := ck1_compared s' (by rwa [hlen])
  have hsum : 7 ≤ i → nibbleTotal s'.block 6 = nibbleTotal s.block 6 := fun h7 =>
    nibbleTotal_congr fun j hj => hrest (j + 1) (by omega)
  refine ⟨t, t', hexec, hexec', ?_, ?_, ?_⟩
  · rintro rfl h4
    obtain ⟨hhi, -⟩ := flip_high (s.block.pay.read 7) h4 hk
    rw [hsum (by decide), hflip, hrest 8 (by decide)] at hc'
    exact ck1_high_shared hc hc' hhi rfl
  · rintro rfl h4
    obtain ⟨hhi, -⟩ := flip_low (s.block.pay.read 7) h4
    rw [hsum (by decide), hflip, hrest 8 (by decide)] at hc'
    exact ck1_low_unread hc hc' hhi rfl
  · rintro rfl h4
    obtain ⟨-, hlo⟩ := flip_low (s.block.pay.read 8) h4
    rw [hsum (by decide), hflip, hrest 7 (by decide)] at hc'
    exact ck1_low_reference hc hc' rfl hlo

end Sys2Proof.Machine
end
